-- ==== Sys2Proof/Word.lean ====
section
/-! DEFINITION. The value types of gr-chirp CORE (`00_scope.md` R11, R12; `30_encoding.md` R81 to R84, R91):
symbols, nibbles, bytes, and the exact numbers that stand for the spec's real and complex numbers (R11: "Real
numbers are exact reals and complex numbers exact complex numbers in every rule"). Types only; the arithmetic on
them is in `Machine/Number.lean`. -/

namespace Sys2Proof

/-- A symbol of the alphabet, `s[6:0]` (R81). -/
abbrev Symbol := BitVec 7

/-- A Hamming(7,4) codeword `c[6:0]`, carried as one symbol (R83). -/
abbrev Codeword := BitVec 7

/-- A 4-bit nibble `n`, "bits b3b2b1b0" (R82, R83). -/
abbrev Nibble := BitVec 4

/-- A byte `b[7:0]` of a transmit request or of a decoded message (R82, R97, R98). -/
abbrev Byte := BitVec 8

/-- One summand `coef * cis(turn)` of an exact complex number, `cis(x) = cos(2*pi*x) + j*sin(2*pi*x)` with its
argument in turns (R11). -/
structure Term where
  /-- the real factor -/
  coef : Rat
  /-- the angle, in turns -/
  turn : Rat
deriving DecidableEq, Repr

/-- An exact complex number: the finite sum of its terms. DESIGN CHOICE (log entry 1): the numbers of this form are
the complex numbers the model can hold. Every chirp table entry is one term; sums, products and conjugates stay of this
form, so no rule rounds (R11, D1) but the making of a table for an irrational ratio of the rates (`Machine/Ratio.lean`). -/
structure Cplx where
  /-- the summands, in no particular order; the empty list is 0 -/
  terms : List Term
deriving DecidableEq, Repr

/-- A complex sample of a chunk, a window, a table or a buffer (R50, R54 (e)). -/
abbrev Sample := Cplx

/-- An exact real number: the magnitude of `abs`, negated when `neg` is set. DESIGN CHOICE (log entry 1).
A correlation magnitude `|y|` (R160) is held as the very `y` it is the magnitude of. -/
structure XReal where
  /-- the sign: `true` for a number that is not positive -/
  neg : Bool
  /-- a complex number whose magnitude is the number's absolute value -/
  abs : Cplx
deriving DecidableEq, Repr

end Sys2Proof
end

