-- ==== Sys2Proof/Config.lean ====
section
/-! DEFINITION. What is fixed for the block: the constants of `00_scope.md` R5, the two reserved symbols and the marker,
and the free values of the model (`93_implementation_defined.md` U2, U3, U4). The parameters that R8 leaves open are settled
as that rule says: exact reals (D1; but for an irrational ratio `fs / BW`, `ratioBits`), round half to even (D2), lowest index
(D3), unbounded buffers (D4), and `EXPECTED_BIAS = num` (D7). -/

namespace Sys2Proof.Config

/-- `ALPHABET`: the number of symbol values (R5). -/
def alphabet : Nat := 128

/-- `PREAMBLE_REPS`: copies of the unshifted up-chirp at frame start (R5). -/
def preambleReps : Nat := 4

/-- `MATCH_TARGET`: "value of the match counter at which SYNCING hands over to DEMODING" (R5), in the two bits of the
counter (R27). -/
def matchTarget : BitVec 2 := 3

/-- `GUARD_LEN`: zero-valued complex samples after the terminator (R5). -/
def guardLen : Nat := 8192

/-- `SYM_TERM`: "terminator symbol, end of frame" (R5). -/
def symTerm : Symbol := 0x01

/-- `SYM_ABORT`: "abort sentinel, weak or absent correlation peak" (R5). -/
def symAbort : Symbol := 0x02

/-- `TX_MARKER`: "byte that must end a transmit request" (R5). -/
def txMarker : Byte := 0x0A

/-- `NUM` (R8, D1): an irrational ratio `fs / BW` is held to at least this many binary places; a rational ratio is held
exactly. DESIGN CHOICE (log entry 1). -/
def ratioBits : Nat := 128

/-- `NUM` (D1, U2, U3): with an irrational ratio the square of a magnitude of the correlation of a window may be off by the
square of the sum of its samples' magnitudes over `2^toleranceBits`. DESIGN CHOICE (log entry 17). -/
def toleranceBits : Nat := 98

/-- FREE VALUE (U2; log entry 17): with an irrational ratio of the rates (the first two arguments) the peak of a window is "any
value among the indices whose magnitudes are within the model's error bound of the maximum". Nothing can be proved of it. -/
opaque nearPeak : XReal → XReal → List Sample → Nat

/-- FREE VALUE (U3; log entry 17): with an irrational ratio of the rates (the first two arguments) the comparison of a window's
peak with the threshold (the third) has "any value of the Boolean when the absolute difference of v and threshold is within the
model's error bound". Nothing can be proved of it. -/
opaque nearThreshold : XReal → XReal → XReal → List Sample → Bool

/-- FREE VALUE (U4, D13; log entry 3): the byte formed with FEC off from a symbol pair with a member above 15 is
"unspecified: the model draws an arbitrary 8-bit value for it". The first argument is the number of the message being
formed (a counter of `State`), the second the place of the byte in it. Nothing can be proved of its value. -/
opaque freeByte : Nat → Nat → Byte

end Sys2Proof.Config
end

