-- ==== Sys2Proof/Syntax.lean ====
section
/-! DEFINITION. The operations of gr-chirp CORE (`30_encoding.md` R93), one constructor for each of the 24 rows of
`opcode_table.json`, with their operands, and the encoded form of an operation: a command word with its operands
(R90, R91), a state selection (R89) or a received symbol (R81). -/

namespace Sys2Proof

/-- The complete set of operations (R93). Operands "are abstract typed values, not bit fields" (R91). -/
inductive Instr where
  -- host transactions, `cmd[7:6] = 00`
  /-- `RX_CONSTRUCT BW, fs, hamming, threshold` (R210) -/
  | rxConstruct (bw fs : XReal) (hamming : Bool) (threshold : XReal)
  /-- `RX_RESET` (R212) -/
  | rxReset
  /-- `RX_CHUNK c` (R170) -/
  | rxChunk (chunk : List Sample)
  /-- `TX_CONSTRUCT BW, fs, hamming` (R211) -/
  | txConstruct (bw fs : XReal) (hamming : Bool)
  /-- `TX_SUBMIT m` (R143) -/
  | txSubmit (request : List Byte)
  /-- `TX_DRAIN N` (R144) -/
  | txDrain (count : Nat)
  -- function-unit probes, `cmd[7:6] = 01`
  /-- `CHIRP_UP` (R120) -/
  | chirpUp
  /-- `CHIRP_DOWN` (R121) -/
  | chirpDown
  /-- `CHIRP_OF s` (R140) -/
  | chirpOf (symbol : Symbol)
  /-- `BUILD_FRAME bytes, use_hamming` (R142) -/
  | buildFrame (payload : List Byte) (useHamming : Bool)
  /-- `CORRELATE w` (R160) -/
  | correlate (window : List Sample)
  /-- `PEAK mag` (R161) -/
  | peak (mag : List XReal)
  /-- `DECHIRP w` (R190) -/
  | dechirp (window : List Sample)
  /-- `DEMAP idx` (R192) -/
  | demap (index : Int)
  /-- `H74_ENC n` (R131) -/
  | h74Enc (nibble : Nibble)
  /-- `H74_DEC c` (R132) -/
  | h74Dec (codeword : Codeword)
  /-- `MSG_OF syms, use_hamming` (R194) -/
  | msgOf (symbols : List Symbol) (useHamming : Bool)
  /-- `SYMS_OF bytes, use_hamming` (R141) -/
  | symsOf (payload : List Byte) (useHamming : Bool)
  -- steps selected by `rx_state` inside `RX_CHUNK`
  /-- `LISTEN_STEP c` (R171) -/
  | listenStep (chunk : List Sample)
  /-- `SYNC_STEP c` (R172) -/
  | syncStep (chunk : List Sample)
  /-- `DEMOD_STEP c` (R175) -/
  | demodStep (chunk : List Sample)
  -- classes of a received symbol inside `DEMOD_WINDOW` (R193)
  /-- `SYM_TERM` -/
  | symTerm
  /-- `SYM_ABORT` -/
  | symAbort
  /-- `SYM_DATA`, with the data symbol -/
  | symData (symbol : Symbol)
deriving DecidableEq, Repr

/-- An operand of a command (R91): "a real, a Boolean, a natural number, a symbol, a byte sequence, a complex-sample
sequence, a real sequence". Symbols, nibbles and codewords come as natural numbers, and sequences of bytes or symbols
as sequences of natural numbers, so that a value outside its type can be written down and refused (R94 (g), U11). -/
inductive Operand where
  /-- a real number: a rate or a threshold -/
  | real (x : XReal)
  /-- a Boolean -/
  | bool (b : Bool)
  /-- a natural number, a symbol, a nibble or a codeword -/
  | nat (n : Nat)
  /-- an integer -/
  | int (i : Int)
  /-- a sequence of bytes or of symbols -/
  | nats (ns : List Nat)
  /-- a complex-sample sequence -/
  | samples (s : List Sample)
  /-- a real sequence -/
  | reals (x : List XReal)
deriving DecidableEq, Repr

/-- One host call: the 8-bit command word `cmd[7:0]` (R90) and its operands (R91). -/
structure Call where
  /-- the command word: `cmd[7:6]` the class, `cmd[5:0]` the operation number -/
  cmd : BitVec 8
  /-- the operands, in the order of the table of R93 -/
  args : List Operand
deriving DecidableEq, Repr

/-- An encoded operation in one of the three formats of R93. -/
inductive Encoded where
  /-- `CMD`: a command word with its operands -/
  | cmd (call : Call)
  /-- `ST`: the value of `rx_state` that selects the step, and the chunk of the enclosing `RX_CHUNK` -/
  | st (code : BitVec 2) (chunk : List Sample)
  /-- `SYM`: a received symbol -/
  | sym (code : Symbol)
deriving DecidableEq, Repr

end Sys2Proof
end

