-- ==== Sys2Proof/WellFormed.lean ====
section
/-! DEFINITION. Which operations are within the contract on operands (`30_encoding.md` R93, R94 (g);
`93_implementation_defined.md` U5, U11). What the types of the operands already ensure (a symbol below 128, a byte below
256) needs no check. What depends on the state or on the values of a configuration (the length of a window, `BW > 0`) is
tested by the operation itself. -/

namespace Sys2Proof

/-- A sequence that must have "length >= 1" (R93) has. -/
def nonEmpty {α : Type} (s : List α) : Bool := !s.isEmpty

/-- The operands are within their types: no empty chunk, no empty sequence given to `CORRELATE`, `PEAK` or `DECHIRP`
(whose window has `num >= 1` samples), and a `SYM_DATA` symbol is none of the two reserved ones (R81). -/
def Instr.wellFormed : Instr → Bool
  | .rxConstruct _ _ _ _ => true
  | .rxReset => true
  | .rxChunk chunk => nonEmpty chunk
  | .txConstruct _ _ _ => true
  | .txSubmit _ => true
  | .txDrain _ => true
  | .chirpUp => true
  | .chirpDown => true
  | .chirpOf _ => true
  | .buildFrame _ _ => true
  | .correlate window => nonEmpty window
  | .peak mag => nonEmpty mag
  | .dechirp window => nonEmpty window
  | .demap _ => true
  | .h74Enc _ => true
  | .h74Dec _ => true
  | .msgOf _ _ => true
  | .symsOf _ _ => true
  | .listenStep chunk => nonEmpty chunk
  | .syncStep chunk => nonEmpty chunk
  | .demodStep chunk => nonEmpty chunk
  | .symTerm => true
  | .symAbort => true
  | .symData s => !(s == Config.symTerm) && !(s == Config.symAbort)

end Sys2Proof
end

