-- ==== Sys2Proof/Decode.lean ====
section
/-! DEFINITION. Decoding and encoding of operations (`30_encoding.md` R81, R89 to R94). There are three formats and a bare
code does not say which one it is in: `0x01` is RX_CONSTRUCT as a command word, SYNC_STEP as a value of `rx_state` and
SYM_TERM as a received symbol. The decoder is total; it refuses by name every command word that is not in the table of
R93, every operand list that does not fit, and `rx_state = 3`. -/

namespace Sys2Proof

/-- Why a code or its operands are refused (R94). -/
inductive DecodeError where
  /-- `cmd[7:6]` is `10` or `11`: "reserved: refuse" (R90, U8). Safe: no meaning exists. -/
  | reservedClass
  /-- the command word is not in the table of R93: "unassigned; the model refuses it" (R94 (a), U8). Safe. -/
  | unassigned
  /-- the operands are not of the number and kinds that R93 gives the command (R94 (g)). Safe. -/
  | operandKinds
  /-- a symbol or codeword above 127, a nibble above 15, a byte above 255 (R94 (g), U11). Safe. -/
  | operandRange
  /-- an empty chunk, or an empty sequence given to `CORRELATE`, `PEAK` or `DECHIRP` (R94 (g), U5, U11). Safe. -/
  | emptySequence
  /-- `rx_state = 3`: "unassigned and never produced" (R94 (b), U9). Safe. -/
  | noSuchState
deriving DecidableEq, Repr

/-- A natural number as a value of `w` bits; refused when it needs more. -/
def narrow (w n : Nat) : Except DecodeError (BitVec w) :=
  if n < 2 ^ w then .ok (BitVec.ofNat w n) else .error .operandRange

/-- A sequence of natural numbers as values of `w` bits. -/
def narrowAll (w : Nat) : List Nat → Except DecodeError (List (BitVec w))
  | [] => .ok []
  | n :: ns =>
    match narrow w n with
    | .error e => .error e
    | .ok b =>
      match narrowAll w ns with
      | .error e => .error e
      | .ok bs => .ok (b :: bs)

/-- An operation whose operand must be a non-empty sequence. -/
def ofNonEmpty {α : Type} (make : List α → Instr) (s : List α) : Except DecodeError Instr :=
  if nonEmpty s then .ok (make s) else .error .emptySequence

/-- An operation whose operand is one value of `w` bits. -/
def ofNarrow (w : Nat) (make : BitVec w → Instr) (n : Nat) : Except DecodeError Instr :=
  match narrow w n with
  | .error e => .error e
  | .ok b => .ok (make b)

/-- An operation whose operand is a sequence of values of `w` bits. -/
def ofNarrowAll (w : Nat) (make : List (BitVec w) → Instr) (ns : List Nat) : Except DecodeError Instr :=
  match narrowAll w ns with
  | .error e => .error e
  | .ok bs => .ok (make bs)

/-- The operands of a command given by its number `cmd[7:0]` (the table of R93). -/
def decodeArgs (code : Nat) (args : List Operand) : Except DecodeError Instr :=
  match code, args with
  | 0x01, [.real bw, .real fs, .bool h, .real t] => .ok (.rxConstruct bw fs h t)
  | 0x02, [] => .ok .rxReset
  | 0x03, [.samples c] => ofNonEmpty .rxChunk c
  | 0x04, [.real bw, .real fs, .bool h] => .ok (.txConstruct bw fs h)
  | 0x05, [.nats m] => ofNarrowAll 8 .txSubmit m
  | 0x06, [.nat n] => .ok (.txDrain n)
  | 0x40, [] => .ok .chirpUp
  | 0x41, [] => .ok .chirpDown
  | 0x42, [.nat s] => ofNarrow 7 .chirpOf s
  | 0x43, [.nats p, .bool h] => ofNarrowAll 8 (fun b => .buildFrame b h) p
  | 0x44, [.samples w] => ofNonEmpty .correlate w
  | 0x45, [.reals m] => ofNonEmpty .peak m
  | 0x46, [.samples w] => ofNonEmpty .dechirp w
  | 0x47, [.int i] => .ok (.demap i)
  | 0x48, [.nat n] => ofNarrow 4 .h74Enc n
  | 0x49, [.nat c] => ofNarrow 7 .h74Dec c
  | 0x4A, [.nats s, .bool h] => ofNarrowAll 7 (fun y => .msgOf y h) s
  | 0x4B, [.nats p, .bool h] => ofNarrowAll 8 (fun b => .symsOf b h) p
  | _, _ => .error .operandKinds

/-- Is the command word one of the 18 of the table of R93? -/
def assigned (code : Nat) : Bool :=
  (0x01 ≤ code && code ≤ 0x06) || (0x40 ≤ code && code ≤ 0x4B)

/-- Decode a host call (R90, R93, R94 (a)). -/
def decodeCmd (c : Call) : Except DecodeError Instr :=
  if c.cmd.toNat / 64 ≥ 2 then .error .reservedClass
  else if assigned c.cmd.toNat then decodeArgs c.cmd.toNat c.args
  else .error .unassigned

/-- The step that `rx_state` selects for a chunk (R89, R170). -/
def decodeSt (code : BitVec 2) (chunk : List Sample) : Except DecodeError Instr :=
  match code.toNat with
  | 0 => ofNonEmpty .listenStep chunk
  | 1 => ofNonEmpty .syncStep chunk
  | 2 => ofNonEmpty .demodStep chunk
  | _ => .error .noSuchState

/-- The class of a received symbol, "by exact value, in this order: 0x02 is SYM_ABORT, 0x01 is SYM_TERM, every other
value is SYM_DATA" (R81). -/
def decodeSym (code : Symbol) : Instr :=
  if code = Config.symAbort then .symAbort
  else if code = Config.symTerm then .symTerm
  else .symData code

/-- Decode an operation in any of the three formats. -/
def decode : Encoded → Except DecodeError Instr
  | .cmd c => decodeCmd c
  | .st code chunk => decodeSt code chunk
  | .sym code => .ok (decodeSym code)

/-! ## The encoder -/

/-- A sequence of values as natural numbers. -/
def widenAll {w : Nat} (bs : List (BitVec w)) : List Nat := bs.map BitVec.toNat

/-- The encoding of an operation (the table of R93). -/
def encode : Instr → Encoded
  | .rxConstruct bw fs h t => .cmd { cmd := 0x01, args := [.real bw, .real fs, .bool h, .real t] }
  | .rxReset => .cmd { cmd := 0x02, args := [] }
  | .rxChunk c => .cmd { cmd := 0x03, args := [.samples c] }
  | .txConstruct bw fs h => .cmd { cmd := 0x04, args := [.real bw, .real fs, .bool h] }
  | .txSubmit m => .cmd { cmd := 0x05, args := [.nats (widenAll m)] }
  | .txDrain n => .cmd { cmd := 0x06, args := [.nat n] }
  | .chirpUp => .cmd { cmd := 0x40, args := [] }
  | .chirpDown => .cmd { cmd := 0x41, args := [] }
  | .chirpOf s => .cmd { cmd := 0x42, args := [.nat s.toNat] }
  | .buildFrame p h => .cmd { cmd := 0x43, args := [.nats (widenAll p), .bool h] }
  | .correlate w => .cmd { cmd := 0x44, args := [.samples w] }
  | .peak m => .cmd { cmd := 0x45, args := [.reals m] }
  | .dechirp w => .cmd { cmd := 0x46, args := [.samples w] }
  | .demap i => .cmd { cmd := 0x47, args := [.int i] }
  | .h74Enc n => .cmd { cmd := 0x48, args := [.nat n.toNat] }
  | .h74Dec c => .cmd { cmd := 0x49, args := [.nat c.toNat] }
  | .msgOf s h => .cmd { cmd := 0x4A, args := [.nats (widenAll s), .bool h] }
  | .symsOf p h => .cmd { cmd := 0x4B, args := [.nats (widenAll p), .bool h] }
  | .listenStep c => .st 0 c
  | .syncStep c => .st 1 c
  | .demodStep c => .st 2 c
  | .symTerm => .sym 0x01
  | .symAbort => .sym 0x02
  | .symData s => .sym s

/-! ## The host's view of a code of the operation table

The table gives the code of a row and no operand bits, since operands are no bit fields (R91). The operands that go with
a bare code are the simplest ones of their types (log entry 5): zero, false, an empty sequence, one zero sample where a
sequence must not be empty, a rate of 1 where a rate must be positive, and a window of 128 zero samples for `DECHIRP`
(`num = 128` in `State.reset`). -/

/-- One sample, 0. -/
def zeroSample : Sample := { terms := [] }

/-- The rate 1. -/
def unitRate : XReal := { neg := false, abs := { terms := [{ coef := 1, turn := 0 }] } }

/-- The operands that stand for operand words of zeros. -/
def zeroArgs (code : Nat) : List Operand :=
  match code with
  | 0x01 => [.real unitRate, .real unitRate, .bool false, .real { neg := false, abs := zeroSample }]
  | 0x03 => [.samples [zeroSample]]
  | 0x04 => [.real unitRate, .real unitRate, .bool false]
  | 0x05 => [.nats []]
  | 0x06 => [.nat 0]
  | 0x42 => [.nat 0]
  | 0x43 => [.nats [], .bool false]
  | 0x44 => [.samples [zeroSample]]
  | 0x45 => [.reals [{ neg := false, abs := zeroSample }]]
  | 0x46 => [.samples (List.replicate 128 zeroSample)]
  | 0x47 => [.int 0]
  | 0x48 => [.nat 0]
  | 0x49 => [.nat 0]
  | 0x4A => [.nats [], .bool false]
  | 0x4B => [.nats [], .bool false]
  | _ => []

/-- The encoded operation that `nbits` bits `w` of the table stand for. The rows of the three formats have 8, 2 and 7
bits; a width of whole bytes is a command word. -/
def tableWord (nbits w : Nat) : Encoded :=
  if nbits ≤ 2 then .st (BitVec.ofNat 2 w) [zeroSample]
  else if nbits ≤ 7 then .sym (BitVec.ofNat 7 w)
  else .cmd { cmd := BitVec.ofNat 8 w, args := zeroArgs w }

/-- The instruction that the decoder reads from a code of the operation table. -/
def decodeTableWord (nbits w : Nat) : Option Instr :=
  if w < 2 ^ nbits ∧ nbits ≤ 8 then
    match decode (tableWord nbits w) with
    | .ok i => some i
    | .error _ => none
  else none

end Sys2Proof
end

