-- ==== Sys2Proof/Machine/Number.lean ====
section
/-! DEFINITION. Exact arithmetic (`00_scope.md` R11; `92_eei_decisions.md` D1, D2): rounding of a rational to the
nearest integer, sums, products and conjugates of exact complex numbers, and the comparison of their magnitudes.
The comparison is exact for every pair of numbers (`Laws/Exact.lean`, `cmpAbs_eq_compare`): it evaluates both magnitudes
in fixed point with a proved error bound, first coarsely, then more finely, and last so finely that two different
magnitudes must come apart; what stays together is equal. -/

namespace Sys2Proof.Machine

/-! ## Rationals -/

/-- `round(x)`: "the nearest integer, a tie going to the even integer" (R11, D2). -/
def roundEven (q : Rat) : Int :=
  let lo := q.floor
  let frac := q - lo
  if frac < 1 / 2 then lo
  else if 1 / 2 < frac then lo + 1
  else if lo % 2 = 0 then lo else lo + 1

/-- An angle in turns, reduced to `[0, 1)`; `cis` has period one turn. -/
def wrapTurn (t : Rat) : Rat := t - t.floor

/-! ## Complex numbers -/

/-- The complex number 0. -/
def cplxZero : Cplx := { terms := [] }

/-- A rational number as a complex number. -/
def cplxOfRat (q : Rat) : Cplx :=
  if q = 0 then cplxZero else { terms := [{ coef := q, turn := 0 }] }

/-- `cis(t) = cos(2*pi*t) + j*sin(2*pi*t)` (R11). -/
def cis (t : Rat) : Cplx := { terms := [{ coef := 1, turn := wrapTurn t }] }

/-- The sum of two complex numbers. -/
def cplxAdd (x y : Cplx) : Cplx := { terms := x.terms ++ y.terms }

/-- The product of two complex numbers: `cis(a) * cis(b) = cis(a + b)`, distributed over the terms. -/
def cplxMul (x y : Cplx) : Cplx :=
  { terms := x.terms.flatMap fun a =>
      y.terms.map fun b => { coef := a.coef * b.coef, turn := wrapTurn (a.turn + b.turn) } }

/-- `conj(z)` (R11): `conj(cis(a)) = cis(-a)`. -/
def cplxConj (x : Cplx) : Cplx :=
  { terms := x.terms.map fun a => { coef := a.coef, turn := wrapTurn (-a.turn) } }

/-- The sum of a sequence of complex numbers. -/
def cplxSum : List Cplx → Cplx
  | [] => cplxZero
  | x :: xs => cplxAdd x (cplxSum xs)

/-! ## Fixed-point values of `pi` and `cis`

A fixed-point number of precision `p` is an integer that stands for itself divided by `2^p`. -/

/-- `arctan(1/k)` by the first `j` terms of its series, precision `p`. -/
def arctanInv (p k : Nat) : Nat → Int
  | 0 => 0
  | j + 1 =>
    arctanInv p k j + (if j % 2 = 0 then 1 else -1) * ((2 ^ p / ((2 * j + 1) * k ^ (2 * j + 1)) : Nat) : Int)

/-- `pi = 4 * (4 * arctan(1/5) - arctan(1/239))`, precision `p`. -/
def piFixed (p : Nat) : Int := 4 * (4 * arctanInv p 5 p - arctanInv p 239 p)

/-- `1 + (i x / m) * (1 + (i x / (m+1)) * ( ... ))` with `n` nested factors, as (real, imaginary), precision `p`:
for `m = 1` the first terms of the series of `exp(i x)`. -/
def expFixed (p : Nat) (x : Int) : Nat → Nat → Int × Int
  | 0, _ => (2 ^ p, 0)
  | n + 1, m =>
    let e := expFixed p x n (m + 1)
    (2 ^ p - x * e.2 / (m * 2 ^ p : Nat), x * e.1 / (m * 2 ^ p : Nat))

/-- `cis(t)`, precision `p`, given `pi` to that precision. -/
def cisFixed (p : Nat) (pi : Int) (t : Rat) : Int × Int :=
  let w := wrapTurn t
  expFixed p (2 * pi * w.num / w.den) (p + 20) 1

/-- How far `cisFixed` at precision `p` may be from `2^p * cis(t)`. -/
def cisError (p : Nat) : Nat := 40 * p + 2300

/-! ## Comparing magnitudes

An integer combination of roots of unity is a list of pairs (integer factor, angle). -/

/-- Add a term to a list of terms, joining terms of equal angle. -/
def collectTerm (t : Term) : List Term → List Term
  | [] => [t]
  | u :: us => if u.turn = t.turn then { coef := u.coef + t.coef, turn := u.turn } :: us else u :: collectTerm t us

/-- The terms with equal angles joined and zero terms left out. -/
def collect : List Term → List Term
  | [] => []
  | t :: ts => (collectTerm { coef := t.coef, turn := wrapTurn t.turn } (collect ts)).filter fun u => u.coef ≠ 0

/-- A common denominator of the factors. -/
def coefDen : List Term → Nat
  | [] => 1
  | t :: ts => Nat.lcm t.coef.den (coefDen ts)

/-- The terms with their factors multiplied by `d`, a common denominator of them. -/
def intTerms (d : Nat) (ts : List Term) : List (Int × Rat) := ts.map fun t => ((t.coef * (d : Rat)).num, t.turn)

/-- A common denominator of the angles. -/
def turnDen : List (Int × Rat) → Nat
  | [] => 1
  | t :: ts => Nat.lcm t.2.den (turnDen ts)

/-- The sum of the absolute values of the factors: a bound on the magnitude. -/
def coefSum : List (Int × Rat) → Nat
  | [] => 0
  | t :: ts => t.1.natAbs + coefSum ts

/-- The value of an integer combination, precision `p`. -/
def sumFixed (p : Nat) (pi : Int) : List (Int × Rat) → Int × Int
  | [] => (0, 0)
  | t :: ts =>
    let c := cisFixed p pi t.2
    let r := sumFixed p pi ts
    (t.1 * c.1 + r.1, t.1 * c.2 + r.2)

/-- The order of the magnitudes of `xs` and `ys` as far as precision `p` shows it: `none` when the difference of the
squares is within the error bound. -/
def cmpAt (p : Nat) (xs ys : List (Int × Rat)) : Option Ordering :=
  let pi := piFixed p
  let x := sumFixed p pi xs
  let y := sumFixed p pi ys
  let diff := y.1 * y.1 + y.2 * y.2 - (x.1 * x.1 + x.2 * x.2)
  let err : Nat := (coefSum xs ^ 2 + coefSum ys ^ 2) * (cisError p * (2 ^ (p + 1) + cisError p))
  if (err : Int) < diff then some .lt else if diff < -(err : Int) then some .gt else none

/-- A precision at which two different magnitudes are told apart (`Laws/Exact.lean`, `cmpAt_final`). -/
def finalPrecision (xs ys : List (Int × Rat)) : Nat :=
  let bits := (coefSum xs ^ 2 + coefSum ys ^ 2).log2 + 1
  let k := (Nat.lcm (turnDen xs) (turnDen ys) + 1) * bits
  k + k.log2 + 20

/-- A precision that tells most different magnitudes apart, also when their factors are large. -/
def middlePrecision (xs ys : List (Int × Rat)) : Nat := 64 + 2 * (coefSum xs + coefSum ys).log2

/-- The order of the magnitudes of two integer combinations. -/
def cmpInt (xs ys : List (Int × Rat)) : Ordering :=
  match cmpAt 64 xs ys with
  | some o => o
  | none =>
    match cmpAt (middlePrecision xs ys) xs ys with
    | some o => o
    | none =>
      match cmpAt (finalPrecision xs ys) xs ys with
      | some o => o
      | none => .eq

/-- The magnitude of a sum of at most one term: `|c * cis(t)| = |c|`. -/
def shortAbs : List Term → Option Rat
  | [] => some 0
  | [t] => some (if t.coef < 0 then -t.coef else t.coef)
  | _ => none

/-- The magnitude of `q` when `ys` is `q` times `xs`, term by term. -/
def proportion (xs ys : List Term) : Option Rat :=
  match xs, ys with
  | t :: _, u :: _ =>
    let q := u.coef / t.coef
    if ys = xs.map (fun x => { coef := q * x.coef, turn := x.turn }) then some (if q < 0 then -q else q) else none
  | _, _ => none

/-- The order of two rational numbers. -/
def cmpRat (a b : Rat) : Ordering := if a < b then .lt else if b < a then .gt else .eq

/-- The order of the magnitudes `|x|` and `|y|`, exact. -/
def cmpAbs (x y : Cplx) : Ordering :=
  let xs := collect x.terms
  let ys := collect y.terms
  if xs = ys then .eq
  else
    match shortAbs xs, shortAbs ys with
    | some a, some b => cmpRat a b
    | _, _ =>
      match proportion xs ys with
      | some q => if cmpInt (intTerms (coefDen xs) xs) [] = .eq then .eq else cmpRat 1 q
      | none =>
        let d := coefDen xs * coefDen ys
        cmpInt (intTerms d xs) (intTerms d ys)

/-! ## Real numbers -/

/-- A rational number as a real number. -/
def realOfRat (q : Rat) : XReal := { neg := decide (q < 0), abs := cplxOfRat q }

/-- The magnitude `|z| = sqrt(re(z)^2 + im(z)^2)` (R11). -/
def magnitude (z : Cplx) : XReal := { neg := false, abs := z }

/-- Is the complex number 0? -/
def cplxIsZero (z : Cplx) : Bool := cmpAbs z cplxZero == .eq

/-- `a < b` on the reals, exact. -/
def realLt (a b : XReal) : Bool :=
  match a.neg, b.neg with
  | false, false => cmpAbs a.abs b.abs == .lt
  | true, true => cmpAbs b.abs a.abs == .lt
  | true, false => !(cplxIsZero a.abs && cplxIsZero b.abs)
  | false, true => false

end Sys2Proof.Machine
end

