-- ==== Sys2Proof/Machine/Ratio.lean ====
section
/-! DEFINITION. The ratio `fs / BW` of two rates that may be any of the model's real numbers (`00_scope.md` R6: "a real
number > 0"). `num` and the phases of the chirp table depend on the rates through this ratio alone (R7, R120), and a table
entry is a `cis` of a rational number of turns, so the ratio is held as a rational number. Which ratios are rounded is a DESIGN
CHOICE (`NUM` of D1; log entry 1): a rational ratio is held exactly, however its rates are written (`rationalRatio`), and an
irrational one to within `2^-ratioBits` (the error bound is proved in `Laws/Ratio.lean`). -/

namespace Sys2Proof.Machine

/-- A natural multiple of a complex number. -/
def cplxScale (n : Nat) (z : Cplx) : Cplx := { terms := z.terms.map fun t => { coef := n * t.coef, turn := t.turn } }

/-- A number that the denominator of `|fs| / |bw|` does not exceed where that ratio is rational (`Laws/Ratio.lean`,
`den_le_denBound`). -/
def denBound (bw fs : Cplx) : Nat :=
  let b := collect bw.terms
  coefSum (intTerms (coefDen b) b) * coefDen (collect fs.terms)

/-- The binary places to which the ratio is evaluated: two fractions with denominators of at most `denBound` differ by more. -/
def gridBits (bw fs : Cplx) : Nat := Config.ratioBits + 2 * (denBound bw fs).log2 + 2

/-- The order of `n * |bw|` and `2^gridBits * |fs|`, exact. -/
def ratioOrder (bw fs : Cplx) (n : Nat) : Ordering :=
  cmpAbs (cplxScale n bw) (cplxScale (2 ^ gridBits bw fs) fs)

/-- The largest number from `acc` on that `reaches` holds of, when it holds of the numbers up to one below
`acc + 2^bits`: its binary digits from the highest down. -/
def floorSearch (reaches : Nat → Bool) : Nat → Nat → Nat
  | 0, acc => acc
  | b + 1, acc => floorSearch reaches b (if reaches (acc + 2 ^ b) then acc + 2 ^ b else acc)

/-- A number of binary digits that `2^gridBits * |fs| / |bw|` does not exceed: `|fs|` is at most the sum of its factors, and
a combination of `n`-th roots of unity that is not 0 is not close to 0. -/
def ratioDigits (bw fs : Cplx) : Nat :=
  let b := collect bw.terms
  let f := collect fs.terms
  let bs := intTerms (coefDen b) b
  (2 ^ gridBits bw fs * coefSum (intTerms (coefDen f) f) * coefDen b * (coefSum bs ^ 2) ^ turnDen bs).log2 + 1

/-- A number near `2^gridBits * |fs| / |bw|`, from fixed-point values; nothing rests on how near it is. -/
def ratioGuess (bw fs : Cplx) : Nat :=
  let b := collect bw.terms
  let f := collect fs.terms
  let d := coefDen b * coefDen f
  let p := 2 * gridBits bw fs
  let pi := piFixed p
  let x := sumFixed p pi (intTerms d b)
  let y := sumFixed p pi (intTerms d f)
  let q := 2 ^ p * (y.1 * y.1 + y.2 * y.2).toNat / (x.1 * x.1 + x.2 * x.2).toNat
  floorSearch (fun k => k * k ≤ q) (q.log2 / 2 + 1) 0

/-- Is `n` at most `2^gridBits * |fs| / |bw|`? -/
def ratioReaches (bw fs : Cplx) (n : Nat) : Bool := ratioOrder bw fs n != .gt

/-- The integral part of `2^gridBits * |fs| / |bw|`: the guess or a neighbour of it, when the exact comparison says so, else
found by search. -/
def ratioFloor (bw fs : Cplx) : Nat :=
  let g := ratioGuess bw fs
  match [g, g + 1, g - 1].find? fun k => ratioReaches bw fs k && !ratioReaches bw fs (k + 1) with
  | some k => k
  | none => floorSearch (ratioReaches bw fs) (ratioDigits bw fs) 0

/-- The convergents of the continued fraction of a rational number, the first ones up to a number of them. -/
def convergents : Nat → Rat → List Rat
  | 0, _ => []
  | k + 1, x =>
    (x.floor : Rat) ::
      if x = x.floor then [] else (convergents k (x - x.floor)⁻¹).map fun c => x.floor + c⁻¹

/-- Is the ratio `|fs| / |bw|` the rational number `q`? Exact. -/
def isRatio (bw fs : Cplx) (q : Rat) : Bool :=
  decide (0 ≤ q) && cmpAbs (cplxScale q.den fs) (cplxScale q.num.toNat bw) == .eq

/-- `|fs| / |bw|` where it is rational: the ratio of two magnitudes that are single terms, or the one fraction of a bounded
denominator near the ratio's digits, if it is the ratio. Every rational ratio is found (`Laws/Ratio.lean`,
`rationalRatio_complete`). -/
def rationalRatio (bw fs : Cplx) : Option Rat :=
  match shortAbs (collect bw.terms), shortAbs (collect fs.terms) with
  | some b, some f => some (f / b)
  | _, _ =>
    let grid : Nat := 2 ^ gridBits bw fs
    let x : Rat := ratioFloor bw fs / grid
    (convergents grid x).find? fun q =>
      decide (q.den ≤ denBound bw fs) && decide (q - x < 1 / grid) && decide (x - q < 1 / grid) && isRatio bw fs q

/-- Is the ratio of the rates rational? It is then held exactly. -/
def exactRates (bw fs : XReal) : Bool := (rationalRatio bw.abs fs.abs).isSome

/-- `fs / BW` as a rational number: itself, or, where it is irrational, the middle between the two multiples of `2^-gridBits`
around it, which stands in the same order to every such multiple as the ratio does. Rounding the irrational ratios, and no
others, is a DESIGN CHOICE (log entry 1). -/
def rateRatio (bw fs : XReal) : Rat :=
  match rationalRatio bw.abs fs.abs with
  | some q => q
  | none => (2 * ratioFloor bw.abs fs.abs + 1) / 2 ^ (gridBits bw.abs fs.abs + 1)

end Sys2Proof.Machine
end

