-- ==== Sys2Proof/Machine/Tables.lean ====
section
/-! DEFINITION. The derived constant `num` (`00_scope.md` R7) and the contents of the read-only tables that construction
makes: `UP` (`40_chirp_table.md` R120), `DOWN` (R121) and `DEMAP` (`10_state.md` R25). -/

namespace Sys2Proof.Machine

/-- `ts = 128 / BW`: the symbol duration (R7). -/
def symbolTime (bw : Rat) : Rat := 128 / bw

/-- `round(ts * fs)` (R7, R210): the window length before the check that it is positive. It depends on `fs / BW` alone: in
the unit of time `1 / BW` the rates are 1 and that ratio. -/
def numRounded (bw fs : XReal) : Int := roundEven (symbolTime 1 * rateRatio bw fs)

/-- `num`: "window length in samples" (R7). -/
def numOf (bw fs : XReal) : Nat := (numRounded bw fs).toNat

/-- The phase of sample `i`, in turns: `theta(i) = (-BW/2 + 0.5*(BW/ts)*t) * t` with `t = i / fs` (R120). -/
def theta (bw fs : Rat) (i : Nat) : Rat :=
  let t : Rat := i / fs
  (-bw / 2 + 1 / 2 * (bw / symbolTime bw) * t) * t

/-- `UP`, `num` entries `cis(theta(i))` (R120, R23), in the unit of time `1 / BW`. -/
def upTable (bw fs : XReal) (num : Nat) : List Sample :=
  let ratio := rateRatio bw fs
  (List.range num).map fun i => cis (theta 1 ratio i)

/-- `DOWN`: "the element-wise complex conjugate of this sequence" (R121, R24). -/
def downTable (up : List Sample) : List Sample := up.map cplxConj

/-- `DEMAP`: `DEMAP[0] = 0` and `DEMAP[k] = 128 - k` for `k = 1 .. 127` (R25, D9). -/
def demapTable : List Symbol :=
  (List.range Config.alphabet).map fun k => if k = 0 then 0 else BitVec.ofNat 7 (128 - k)

end Sys2Proof.Machine
end

