-- ==== Sys2Proof/Machine/State.lean ====
section
/-! DEFINITION. The state of gr-chirp CORE (`10_state.md` R20: "Complete inventory of state"), the result of the last call
(`00_scope.md` R10, `30_encoding.md` R93), the reasons for which a call is refused, and the state after reset. -/

namespace Sys2Proof.Machine

/-- The value of `rx_state` that encodes LISTENING (R89). -/
def listening : BitVec 2 := 0

/-- The value of `rx_state` that encodes SYNCING (R89). -/
def syncing : BitVec 2 := 1

/-- The value of `rx_state` that encodes DEMODING (R89). -/
def demoding : BitVec 2 := 2

/-- The configuration record `RX.cfg` (R21, R88). -/
structure RxCfg where
  /-- `BW`, bandwidth in Hz, > 0 -/
  bw : XReal
  /-- `fs`, sample rate in Hz, > 0 -/
  fs : XReal
  /-- `hamming`, 1 bit: FEC on -/
  hamming : Bool
  /-- `threshold`, any real -/
  threshold : XReal
deriving DecidableEq, Repr

/-- The configuration record `TX.cfg` (R21, "without threshold", R20). -/
structure TxCfg where
  /-- `BW`, bandwidth in Hz, > 0 -/
  bw : XReal
  /-- `fs`, sample rate in Hz, > 0 -/
  fs : XReal
  /-- `hamming`, 1 bit: FEC on -/
  hamming : Bool
deriving DecidableEq, Repr

/-- The receiver unit RXU (R20). -/
structure Rxu where
  /-- `RX.cfg` (R21) -/
  cfg : RxCfg
  /-- `RX.num` (R22) -/
  num : Nat
  /-- `RX.expected_bias` (R22) -/
  expectedBias : Nat
  /-- `RX.UP` (R23) -/
  up : List Sample
  /-- `RX.DOWN` (R24) -/
  down : List Sample
  /-- `RX.DEMAP` (R25) -/
  demap : List Symbol
  /-- `rx_state[1:0]`, the sequencing register (R26, R89) -/
  rxState : BitVec 2
  /-- `match_cnt[1:0]` (R27) -/
  matchCnt : BitVec 2
  /-- `sample_buf`, element 0 the oldest (R28, R50) -/
  sampleBuf : List Sample
  /-- `sym_buf`, element 0 the oldest (R29, R50) -/
  symBuf : List Symbol
deriving DecidableEq, Repr

/-- The transmitter unit TXU (R20). -/
structure Txu where
  /-- `TX.cfg` (R21) -/
  cfg : TxCfg
  /-- `TX.num` (R22) -/
  num : Nat
  /-- `TX.UP` (R23) -/
  up : List Sample
  /-- `tx_buf`, element 0 the next to be output (R30, R50) -/
  txBuf : List Sample
deriving DecidableEq, Repr

/-- A decoded message: "the pair (metadata, bytes)" (R98); the metadata is "the unit value" (D30). -/
structure Message where
  /-- "an empty metadata record" -/
  metadata : Unit
  /-- the bytes -/
  bytes : List Byte
deriving DecidableEq, Repr

/-- What the last call returned to the host (R10, the result column of R93). The decoded message "is not state" (R31):
this is the result port of the model, overwritten by every call. -/
inductive Result where
  /-- no call has been made since reset -/
  | idle
  /-- the call is still in progress and will never return (R180); no further call can be made -/
  | notReturned
  /-- the call returned, and its operation has no result -/
  | done
  /-- `RX_CHUNK`: the samples consumed and the decoded message, if any -/
  | chunk (consumed : Nat) (message : Option Message)
  /-- `DEMOD_STEP`: the decoded message, if any -/
  | message (message : Option Message)
  /-- `SYM_TERM`: the signal DONE and the message -/
  | signalDone (message : Message)
  /-- `SYM_ABORT`: the signal ABORT -/
  | signalAbort
  /-- a complex sequence -/
  | samples (s : List Sample)
  /-- a real sequence -/
  | reals (x : List XReal)
  /-- `PEAK`: the maximum and its index -/
  | peak (max : XReal) (argmax : Nat)
  /-- a symbol -/
  | symbol (s : Symbol)
  /-- a nibble -/
  | nibble (n : Nibble)
  /-- a codeword -/
  | codeword (c : Codeword)
  /-- a byte sequence -/
  | bytes (b : List Byte)
  /-- a symbol sequence -/
  | symbols (s : List Symbol)
deriving DecidableEq, Repr

/-- The whole machine: one receiver unit, one transmitter unit (R20), and the model's own fields for the host side. -/
structure State where
  /-- RXU; `none` before its constructor has run: "Before construction the unit has no state" (R253) -/
  rx : Option Rxu
  /-- TXU; `none` before its constructor has run (R253) -/
  tx : Option Txu
  /-- MODEL'S OWN: the host's calls to come, in order (R4: "a sequence of calls"; R61) -/
  calls : List Call
  /-- MODEL'S OWN: what the last call returned (R10, R31) -/
  result : Result
  /-- MODEL'S OWN: the number of messages formed so far; it numbers the draws of `Config.freeByte` (U4) -/
  draws : Nat
deriving DecidableEq, Repr

/-- No condition of the block stops the machine: "No exceptions/faults propagate across the core boundary" (R220), and
the abnormal conditions E1 to E4 (R221) are next states. There is no fault. -/
inductive Fault where
deriving DecidableEq, Repr

/-- Why a call has no meaning: the items of `93_implementation_defined.md` that are to be refused, "outside what the
source defines" (R237). All are safe: the spec gives the run no meaning. -/
inductive Refusal where
  /-- raised by no meaning: kept for an operation that has none -/
  | notModelled (mnemonic : String)
  /-- raised by `step`: the code or the operands of the call are refused by the decoder (U5, U8, U11). Safe. -/
  | undecodable (why : DecodeError)
  /-- raised by the operations of RXU: the unit has not been constructed (R253, U15). Safe. -/
  | rxNotConstructed
  /-- raised by the operations of TXU: the unit has not been constructed (R253, U15). Safe. -/
  | txNotConstructed
  /-- raised by `RX_CONSTRUCT` and `TX_CONSTRUCT`: `BW <= 0`, `fs <= 0` or `num = 0` (R210, R211, U7). Safe. -/
  | invalidConfiguration
  /-- raised by `RX_CHUNK`: `rx_state = 3` (R89, U9). Safe; no run reaches it. -/
  | noSuchState
  /-- raised by operations on chunks, windows and real sequences: an empty sequence (R94 (g), U5). Safe. -/
  | emptySequence
  /-- raised by `DECHIRP`: the window has not `num` samples (R94 (g), U11). Safe. -/
  | windowLength
  /-- raised by `SYM_DATA`: a reserved symbol is no data symbol (R81). Safe; the decoder never gives it. -/
  | reservedSymbol
deriving DecidableEq, Repr

/-- The rate 125000 of the example of R210 (log entry 2). -/
def exampleRate : XReal := realOfRat 125000

/-- RXU right after `RX_CONSTRUCT BW=125000 fs=125000 hamming=1 threshold=40` (R35). The configuration is a DESIGN
CHOICE (log entry 2): the example of R210. -/
def resetRxu : Rxu :=
  { cfg := { bw := exampleRate, fs := exampleRate, hamming := true, threshold := realOfRat 40 }
    num := 128
    expectedBias := 128
    up := upTable exampleRate exampleRate 128
    down := downTable (upTable exampleRate exampleRate 128)
    demap := demapTable
    rxState := listening
    matchCnt := 0
    sampleBuf := []
    symBuf := [] }

/-- TXU right after `TX_CONSTRUCT BW=125000 fs=125000 hamming=1` (R35). The configuration is a DESIGN CHOICE (log
entry 2). -/
def resetTxu : Txu :=
  { cfg := { bw := exampleRate, fs := exampleRate, hamming := true }
    num := 128
    up := upTable exampleRate exampleRate 128
    txBuf := [] }

/-- The machine right after reset. "Construction is the power-on reset" (R250): both units have been constructed (R35),
and the host has made no call yet. -/
def State.reset : State :=
  { rx := some resetRxu
    tx := some resetTxu
    calls := []
    result := .idle
    draws := 0 }

end Sys2Proof.Machine
end

