-- ==== Sys2Proof/Machine/Operands.lean ====
section
/-! DEFINITION. Operand assembly: every value that an operation assembles from the bits or numbers of another
(`30_encoding.md` R92), one definition for each: the nibble split (R82), the codeword (R83, R131), the syndrome and the
decoding by it (R84, R132), the table offset of a symbol (R140), the bias (R173), the demapping index (R191), the symbol
of an index (R192), and the byte of a received symbol pair (R85, R195, R196). -/

namespace Sys2Proof.Machine

/-! ## Parity and the Hamming(7,4) codec -/

/-- `parity(v)`: "the XOR of all bits of v" (R11, R130). -/
def parity {w : Nat} (v : BitVec w) : Bool := (List.range w).foldl (fun p i => Bool.xor p (v.getLsbD i)) false

/-- The high nibble of a byte, `b[7:4] = b >> 4` (R82). -/
def highNibble (b : Byte) : Nibble := b.extractLsb' 4 4

/-- The low nibble of a byte, `b[3:0] = b & 0xF` (R82). -/
def lowNibble (b : Byte) : Nibble := b.extractLsb' 0 4

/-- `H74_ENC(n) = (n << 3) | (p_a << 2) | (p_b << 1) | p_c`, the parities under the masks `0b1110`, `0b1101`, `0b1011`
(R83, R131). -/
def hammingEncode (n : Nibble) : Codeword :=
  let pa := parity (n &&& 0b1110)
  let pb := parity (n &&& 0b1101)
  let pc := parity (n &&& 0b1011)
  n ++ BitVec.ofBool pa ++ BitVec.ofBool pb ++ BitVec.ofBool pc

/-- The syndrome `S = S1 S2 S3`, the parities under the masks `0b1110100`, `0b1101010`, `0b1011001` (R84, R132). -/
def syndrome (c : Codeword) : BitVec 3 :=
  BitVec.ofBool (parity (c &&& 0b1110100)) ++ BitVec.ofBool (parity (c &&& 0b1101010))
    ++ BitVec.ofBool (parity (c &&& 0b1011001))

/-- The data bit that a syndrome flips; "for any other syndrome value ... the data nibble is returned unmodified"
(R84, R132). -/
def syndromeFlip (s : BitVec 3) : Nibble :=
  if s = 0b111 then 0b1000
  else if s = 0b110 then 0b0100
  else if s = 0b101 then 0b0010
  else if s = 0b011 then 0b0001
  else 0

/-- `H74_DEC(c)`: the data nibble `c >> 3` with the bit that the syndrome names flipped (R132). -/
def hammingDecode (c : Codeword) : Nibble := c.extractLsb' 3 4 ^^^ syndromeFlip (syndrome c)

/-! ## Symbols of bytes, bytes of symbols -/

/-- A nibble as a symbol, "zero-extended to 7 bits" (R82). -/
def nibbleSymbol (n : Nibble) : Symbol := n.zeroExtend 7

/-- The symbol of a nibble: the nibble itself or its codeword (R82, R96). -/
def symbolOfNibble (useHamming : Bool) (n : Nibble) : Symbol :=
  if useHamming then hammingEncode n else nibbleSymbol n

/-- The two symbols of a payload byte, "always high-nibble symbol first" (R82, R54 (a)). -/
def symbolsOfByte (useHamming : Bool) (b : Byte) : List Symbol :=
  [symbolOfNibble useHamming (highNibble b), symbolOfNibble useHamming (lowNibble b)]

/-- `PAIR_FEC(first, second) = (H74_DEC(first) << 4) | H74_DEC(second)` (R195). -/
def pairFec (first second : Symbol) : Byte := hammingDecode first ++ hammingDecode second

/-- Is a received symbol a nibble, "at most 15" (R196)? -/
def isNibble (s : Symbol) : Bool := s ≤ 15

/-- `PAIR_RAW(first, second)`: `(first << 4) | second` "when both symbols are at most 15"; otherwise "the byte is
unspecified: the model draws an arbitrary 8-bit value for it" (R196, U4), here `draw`. -/
def pairRaw (draw : Byte) (first second : Symbol) : Byte :=
  if isNibble first && isNibble second then first.extractLsb' 0 4 ++ second.extractLsb' 0 4 else draw

/-! ## Offsets and indices -/

/-- `offset = floor(num * s / 128)` (R140). -/
def symbolOffset (num : Nat) (s : Symbol) : Nat := num * s.toNat / Config.alphabet

/-- `BIAS(a) = a - num if a > num, a otherwise` (R173). -/
def bias (num a : Nat) : Nat := if num < a then a - num else a

/-- `INDEX(a) = round((a - num) * 128 / num)`, signed (R191). -/
def demapIndex (num a : Nat) : Int := roundEven ((((a : Int) - num) * 128 : Int) / (num : Rat))

/-- `k = idx mod 128`, the "non-negative residue" (R192). -/
def demapSlot (idx : Int) : Nat := (idx % (Config.alphabet : Int)).toNat

/-- `DEMAP(idx) = DEMAP[k]`, a read of the table (R192, R25). -/
def demapLookup (table : List Symbol) (idx : Int) : Symbol := table.getD (demapSlot idx) 0

end Sys2Proof.Machine
end

