-- ==== Sys2Proof/Machine/Flags.lean ====
section
/-! DEFINITION. The transient conditions of the receiver (`10_state.md` R32): "The block has no status register and no
condition codes. Three transient Boolean conditions exist inside a call": DET, ABORT and DONE. None is stored. -/

namespace Sys2Proof.Machine

/-- `DET(v)`: "true exactly when v > threshold", strict (R162, C1). -/
def det (threshold v : XReal) : Bool := realLt threshold v

/-- The class of a received symbol: "0x02 is SYM_ABORT, 0x01 is SYM_TERM, every other value is SYM_DATA" (R81). -/
inductive SymClass where
  /-- `SYM_ABORT` -/
  | abort
  /-- `SYM_TERM` -/
  | term
  /-- `SYM_DATA` with its symbol -/
  | data (s : Symbol)
deriving DecidableEq, Repr

/-- "The receiver classifies a received symbol by exact value, in this order" (R81). -/
def classify (s : Symbol) : SymClass :=
  if s = Config.symAbort then .abort else if s = Config.symTerm then .term else .data s

/-- What `DEMOD_WINDOW` answers `DEMOD_STEP` (R193, R32). -/
inductive Signal where
  /-- ABORT is raised -/
  | abort
  /-- DONE is raised, with the message -/
  | done (m : Message)
  /-- CONTINUE: the symbol has been appended to `sym_buf` -/
  | next (symBuf : List Symbol)
  /-- the window is empty and has no peak: no unit that construction made (`num > 0`) meets this -/
  | noPeak
deriving DecidableEq, Repr

end Sys2Proof.Machine
end

