-- ==== Sys2Proof/Machine/Ops.lean ====
section
/-! DEFINITION. Operations shared by the meanings: the buffer primitives (`20_memory.md` R52), access to the two units
(`70_reset_and_hazards.md` R253), the way a call returns, and the common exit of the receiver,
`RETURN_TO_LISTENING` (`44_sync_engine.md` R176), which is this block's taking of an exception: "the only condition that
changes control state" (`60_exceptions.md` R228). There is no return from it (R229). -/

namespace Sys2Proof.Machine

/-- What one operation answers. -/
abbrev Out := Host.Outcome State Fault Refusal

/-! ## Buffers (R52) -/

/-- `append(b, s)`: `b <- b ++ s`. -/
def bufAppend {α : Type} (b s : List α) : List α := b ++ s

/-- `head(b, n) = b[0:n]`, without changing `b`. -/
def bufHead {α : Type} (b : List α) (n : Nat) : List α := b.take n

/-- `drop(b, n)`: `b <- b[n:len(b)]`. -/
def bufDrop {α : Type} (b : List α) (n : Nat) : List α := b.drop n

/-! ## Units -/

/-- An operation of RXU: refused before the unit's constructor has run (R253, U15). -/
def withRx (s : State) (k : Rxu → Out) : Out :=
  match s.rx with
  | none => .refused .rxNotConstructed
  | some r => k r

/-- An operation of TXU: refused before the unit's constructor has run (R253, U15). -/
def withTx (s : State) (k : Txu → Out) : Out :=
  match s.tx with
  | none => .refused .txNotConstructed
  | some t => k t

/-- The call returns `res` and changes nothing else: a probe is "a pure function of its operands and the configuration;
no state changes" (R90, R59). -/
def answer (s : State) (res : Result) : Out := .next { s with result := res }

/-- The call leaves RXU as `r` and returns `res`. -/
def answerRx (s : State) (r : Rxu) (res : Result) : Out := .next { s with rx := some r, result := res }

/-- The call leaves TXU as `t` and returns `res`. -/
def answerTx (s : State) (t : Txu) (res : Result) : Out := .next { s with tx := some t, result := res }

/-! ## The common exit of the receiver -/

/-- `RETURN_TO_LISTENING` (R176): `clear(sample_buf) ; clear(sym_buf) ; match_cnt <- 0 ; rx_state <- LISTENING`. Entry of
the weak-signal abort and of a frame completion (R228): nothing is saved, "configuration and tables untouched". -/
def returnToListening (r : Rxu) : Rxu :=
  { r with sampleBuf := [], symBuf := [], matchCnt := 0, rxState := listening }

end Sys2Proof.Machine
end

