-- ==== Sys2Proof/Machine/Chirp.lean ====
section
/-! DEFINITION. The probes of the chirp tables (`40_chirp_table.md`): `CHIRP_UP` (R120) and `CHIRP_DOWN` (R121). The
tables are made by construction (`Machine/Tables.lean`); a probe reads them (`20_memory.md` R50, R64). -/

namespace Sys2Proof.Machine

/-- `CHIRP_UP` (R120): the table `UP`. Both units hold one (R23); DESIGN CHOICE (log entry 6): the probe reads that of
TXU, whose operations read it, and that of RXU where TXU has not been constructed. -/
def execChirpUp (s : State) : Out :=
  match s.tx with
  | some t => answer s (.samples t.up)
  | none => withRx s fun r => answer s (.samples r.up)

/-- `CHIRP_DOWN` (R121): the table `DOWN`, "Present in RXU" (R24). -/
def execChirpDown (s : State) : Out := withRx s fun r => answer s (.samples r.down)

end Sys2Proof.Machine
end

