-- ==== Sys2Proof/Machine/Hamming.lean ====
section
/-! DEFINITION. The probes of the Hamming(7,4) codec (`41_hamming74.md`): `H74_ENC` (R131) and `H74_DEC` (R132). "It is
combinational: no state, no side effects", and needs no unit (`95_test_vectors.md` P6). -/

namespace Sys2Proof.Machine

/-- `H74_ENC n` (R131). -/
def execH74Enc (n : Nibble) (s : State) : Out := answer s (.codeword (hammingEncode n))

/-- `H74_DEC c` (R132). -/
def execH74Dec (c : Codeword) (s : State) : Out := answer s (.nibble (hammingDecode c))

end Sys2Proof.Machine
end

