-- ==== Sys2Proof/Machine/Modulator.lean ====
section
/-! DEFINITION. The Modulator (`42_modulator.md`): `CHIRP_OF` (R140), `SYMS_OF` (R141), `BUILD_FRAME` (R142), `TX_SUBMIT`
(R143) and `TX_DRAIN` (R144). -/

namespace Sys2Proof.Machine

/-- `UP2`: "a doubled chirp table (up-chirp concatenated with itself, length 2*num)" (R51). A view, not stored. -/
def doubled (up : List Sample) : List Sample := up ++ up

/-- `CHIRP_OF(s)`: "the num-sample window starting at offset" of the doubled table (R140). -/
def chirpOf (up : List Sample) (num : Nat) (s : Symbol) : List Sample :=
  bufHead (bufDrop (doubled up) (symbolOffset num s)) num

/-- `SYMS_OF(bytes, use_hamming)` (R141). -/
def symsOf (useHamming : Bool) (payload : List Byte) : List Symbol := payload.flatMap (symbolsOfByte useHamming)

/-- `BUILD_FRAME(bytes, use_hamming)` (R142): preamble, payload symbols, terminator, guard (R86). -/
def buildFrame (up : List Sample) (num : Nat) (useHamming : Bool) (payload : List Byte) : List Sample :=
  (List.replicate Config.preambleReps up).flatten
    ++ (symsOf useHamming payload).flatMap (chirpOf up num)
    ++ chirpOf up num Config.symTerm
    ++ List.replicate Config.guardLen cplxZero

/-- Is a transmit request honoured: "only when n >= 1 and m[n-1] = 0x0A" (R97)? -/
def hasMarker (m : List Byte) : Bool := m.getLast? == some Config.txMarker

/-- `CHIRP_OF s` (R140). -/
def execChirpOf (symbol : Symbol) (s : State) : Out :=
  withTx s fun t => answer s (.samples (chirpOf t.up t.num symbol))

/-- `SYMS_OF bytes, use_hamming` (R141): a function of its operands alone (`95_test_vectors.md` P6). -/
def execSymsOf (payload : List Byte) (useHamming : Bool) (s : State) : Out :=
  answer s (.symbols (symsOf useHamming payload))

/-- `BUILD_FRAME bytes, use_hamming` (R142). -/
def execBuildFrame (payload : List Byte) (useHamming : Bool) (s : State) : Out :=
  withTx s fun t => answer s (.samples (buildFrame t.up t.num useHamming payload))

/-- `TX_SUBMIT m` (R143): the frame of the request without its marker goes behind what is pending; "otherwise it is
silently ignored" (E3, R224). "Result: none; the host is told nothing, in either branch." -/
def execTxSubmit (m : List Byte) (s : State) : Out :=
  withTx s fun t =>
    if hasMarker m then
      answerTx s { t with txBuf := bufAppend t.txBuf (buildFrame t.up t.num t.cfg.hamming m.dropLast) } .done
    else answer s .done

/-- `TX_DRAIN N` (R144): "callers request up to N samples and receive min(N, available)"; none pending is "not an error"
(E4, R225). -/
def execTxDrain (count : Nat) (s : State) : Out :=
  withTx s fun t =>
    let n := min count t.txBuf.length
    answerTx s { t with txBuf := bufDrop t.txBuf n } (.samples (bufHead t.txBuf n))

end Sys2Proof.Machine
end

