-- ==== Sys2Proof/Machine/Correlator.lean ====
section
/-! DEFINITION. The Correlator (`43_correlator.md`): `CORRELATE` (R160), `PEAK` (R161), and the peak of a window with its DET
(R162), which the receiver's steps and `DECHIRP` use. -/

namespace Sys2Proof.Machine

/-- `y[n]`: the "sum over k with 0 <= k <= L-1 and 0 <= n-k <= num-1 of w[k] * DOWN[n - k]" (R160). The table has no entry
at `num` and beyond. -/
def convolveAt (down w : List Sample) (n : Nat) : Cplx :=
  cplxSum (w.zipIdx.map fun (x, k) => if k ≤ n then cplxMul x (down.getD (n - k) cplxZero) else cplxZero)

/-- `CORRELATE(w)`: the magnitudes `mag[n] = |y[n]|` for `n = 0 .. L + num - 2` (R160). -/
def correlation (num : Nat) (down w : List Sample) : List XReal :=
  (List.range (w.length + num - 1)).map fun n => magnitude (convolveAt down w n)

/-- The peak of what is left of a sequence, given the peak of what went before it; an equal value later does not replace
an earlier one. -/
def peakFrom (best : XReal) (bestIdx idx : Nat) : List XReal → XReal × Nat
  | [] => (best, bestIdx)
  | x :: xs => if realLt best x then peakFrom x idx (idx + 1) xs else peakFrom best bestIdx (idx + 1) xs

/-- `PEAK(mag)`: the maximum and "the lowest n with mag[n] == peak_val" (R161, D3). An empty sequence has none. -/
def peakOf : List XReal → Option (XReal × Nat)
  | [] => none
  | x :: xs => some (peakFrom x 0 1 xs)

/-! ### The error bound

With an irrational ratio of the rates the entries of `DOWN` are rounded, and with them the magnitudes (D1). Where an index or the
Boolean DET could be another without that rounding, it is a free value (U2, U3; log entry 17). With a rational ratio nothing is
rounded and nothing is free. -/

/-- The sum of the factors of a sequence of terms, a bound on their sum's magnitude. -/
def termSum : List Term → Rat
  | [] => 0
  | t :: ts => (if t.coef < 0 then -t.coef else t.coef) + termSum ts

/-- A bound on the sum of the magnitudes of the samples of a window. -/
def windowSum : List Sample → Rat
  | [] => 0
  | x :: xs => termSum x.terms + windowSum xs

/-- How far the difference of the squares of two magnitudes of a window may be off: 0 with a rational ratio of the rates
(`Laws/System.lean`, `mayPeak_of_exact`, `mayDetect_of_exact`, `mayMiss_of_exact`). -/
def tolerance (bw fs : XReal) (w : List Sample) : Rat :=
  if exactRates bw fs then 0 else windowSum w ^ 2 / 2 ^ Config.toleranceBits

/-- Is `|x|^2 + e < |y|^2`? Exact, for `e >= 0`. -/
def farBelow (e : Rat) (x y : Cplx) : Bool :=
  cmpAbs (cplxAdd (cplxMul x (cplxConj x)) (cplxOfRat e)) (cplxMul y (cplxConj y)) == .lt

/-- The entries whose magnitudes are within the error bound of the maximum (U2). -/
def nearPeaks (e : Rat) (mag : List XReal) (best : XReal) : List (XReal × Nat) :=
  mag.zipIdx.filter fun p => !farBelow e p.1.abs best.abs

/-- `PEAK(CORRELATE(w))` of RXU (R161): the first maximum, or any value among the entries near it (U2). -/
def windowPeak (r : Rxu) (w : List Sample) : Option (XReal × Nat) :=
  let mag := correlation r.num r.down w
  match peakOf mag with
  | none => none
  | some best =>
    let e := tolerance r.cfg.bw r.cfg.fs w
    if e = 0 then some best
    else
      let near := nearPeaks e mag best.1
      some (near.getD (Config.nearPeak r.cfg.bw r.cfg.fs w % near.length) best)

/-- Is the magnitude `v` of a window within the error bound of the threshold (U3)? -/
def isNearThreshold (e : Rat) (threshold v : XReal) : Bool :=
  !realLt threshold (realOfRat 0) && !farBelow e threshold.abs v.abs && !farBelow e v.abs threshold.abs

/-- `DET(v)` for the peak `v` of a window of RXU (R162): strict, or any Boolean near the threshold (U3). -/
def windowDet (r : Rxu) (w : List Sample) (v : XReal) : Bool :=
  let e := tolerance r.cfg.bw r.cfg.fs w
  if e ≠ 0 ∧ isNearThreshold e r.cfg.threshold v = true then
    Config.nearThreshold r.cfg.bw r.cfg.fs r.cfg.threshold w
  else det r.cfg.threshold v

/-- `CORRELATE w` (R160); "an empty w is outside the type (refuse)". -/
def execCorrelate (window : List Sample) (s : State) : Out :=
  withRx s fun r =>
    if nonEmpty window then answer s (.reals (correlation r.num r.down window)) else .refused .emptySequence

/-- `PEAK mag` (R161): a function of its operand alone, whose numbers are compared exactly. -/
def execPeak (mag : List XReal) (s : State) : Out :=
  match peakOf mag with
  | some (v, a) => answer s (.peak v a)
  | none => .refused .emptySequence

end Sys2Proof.Machine
end

