-- ==== Sys2Proof/Machine/Demodulator.lean ====
section
/-! DEFINITION. The Demodulator (`45_demodulator.md`): `DECHIRP` (R190), `DEMAP` (R192), `MSG_OF` (R194), the three classes
of a received symbol `SYM_TERM`, `SYM_ABORT`, `SYM_DATA` (R193), and `DEMOD_WINDOW`, which `DEMOD_STEP` runs once for each
window. -/

namespace Sys2Proof.Machine

/-- `DECHIRP(w)`: one window to one symbol (R190). `none` when the window has no peak, being empty. -/
def dechirp (r : Rxu) (w : List Sample) : Option Symbol :=
  match windowPeak r w with
  | none => none
  | some (v, a) =>
    if windowDet r w v then some (demapLookup r.demap (demapIndex r.num a)) else some Config.symAbort

/-- The bytes of the consecutive symbol pairs, from place `k` on; "an unpaired last symbol is ignored" (R194, R197). -/
def pairBytes (useHamming : Bool) (draw k : Nat) : List Symbol → List Byte
  | first :: second :: rest =>
    (if useHamming then pairFec first second else pairRaw (Config.freeByte draw k) first second)
      :: pairBytes useHamming draw (k + 1) rest
  | _ => []

/-- `MSG_OF(syms, use_hamming)` (R194): "Every byte equal to 0x00 is removed from the sequence, wherever it stands" (R198).
`draw` numbers the draws of unspecified bytes (U4). -/
def messageBytes (draw : Nat) (useHamming : Bool) (syms : List Symbol) : List Byte :=
  (pairBytes useHamming draw 0 syms).filter fun b => b ≠ 0

/-- `FRAME_FINISH`: "MSG_OF(sym_buf, RX.cfg.hamming) packed as the message" (R194, R98). -/
def frameFinish (draw : Nat) (r : Rxu) : Message :=
  { metadata := (), bytes := messageBytes draw r.cfg.hamming r.symBuf }

/-- `DEMOD_WINDOW w` (R193): what DEMODING does with one window. -/
def demodWindow (draw : Nat) (r : Rxu) (w : List Sample) : Signal :=
  match dechirp r w with
  | none => .noPeak
  | some y =>
    match classify y with
    | .abort => .abort
    | .term => .done (frameFinish draw r)
    | .data d => .next (bufAppend r.symBuf [d])

/-- `DECHIRP w` (R190); "a window whose length is not num is outside the type (refuse)". -/
def execDechirp (window : List Sample) (s : State) : Out :=
  withRx s fun r =>
    if window.length = r.num then
      match dechirp r window with
      | some y => answer s (.symbol y)
      | none => .refused .emptySequence
    else .refused .windowLength

/-- `DEMAP idx` (R192): "first reduced into 0 .. 127 and then looked up in the table". -/
def execDemap (index : Int) (s : State) : Out := withRx s fun r => answer s (.symbol (demapLookup r.demap index))

/-- `MSG_OF syms, use_hamming` (R194): a function of its operands and of the draws of unspecified bytes alone. -/
def execMsgOf (symbols : List Symbol) (useHamming : Bool) (s : State) : Out :=
  .next { s with result := .bytes (messageBytes s.draws useHamming symbols), draws := s.draws + 1 }

/-- `SYM_TERM` (R193): `FRAME_FINISH`, the signal DONE, and then `RETURN_TO_LISTENING` (R175). -/
def execSymTerm (s : State) : Out :=
  withRx s fun r =>
    .next { s with
      rx := some (returnToListening r), result := .signalDone (frameFinish s.draws r), draws := s.draws + 1 }

/-- `SYM_ABORT` (R193): the signal ABORT, and then `RETURN_TO_LISTENING` (R175, R228); nothing is emitted. -/
def execSymAbort (s : State) : Out := withRx s fun r => answerRx s (returnToListening r) .signalAbort

/-- `SYM_DATA` (R193): `append(sym_buf, [s])`. -/
def execSymData (symbol : Symbol) (s : State) : Out :=
  withRx s fun r =>
    if symbol = Config.symTerm ∨ symbol = Config.symAbort then .refused .reservedSymbol
    else answerRx s { r with symBuf := bufAppend r.symBuf [symbol] } .done

end Sys2Proof.Machine
end

