-- ==== Sys2Proof/Machine/Sync.lean ====
section
/-! DEFINITION. The SyncEngine (`44_sync_engine.md`): `RX_CHUNK` (R170) and the three steps that `rx_state` selects,
`LISTEN_STEP` (R171), `SYNC_STEP` (R172 to R174, R180) and `DEMOD_STEP` (R175). -/

namespace Sys2Proof.Machine

/-- How a step of the receiver ends. -/
inductive StepEnd where
  /-- it returns, with the unit, the message if one was emitted, and the number of messages formed so far -/
  | returns (r : Rxu) (message : Option Message) (draws : Nat)
  /-- its loop never ends; every iteration leaves the unit as it is (R180, U10) -/
  | loops (r : Rxu)
  /-- a window without a sample has no peak: no unit that construction made (`num > 0`) meets this -/
  | noPeak
deriving DecidableEq, Repr

/-- `LISTEN_STEP c`: "detection on the raw chunk" (R171). -/
def listenStep (draws : Nat) (r : Rxu) (c : List Sample) : StepEnd :=
  match windowPeak r c with
  | none => .noPeak
  | some (v, _) =>
    if windowDet r c v then
      .returns { r with sampleBuf := bufAppend r.sampleBuf c, rxState := syncing } none draws
    else .returns r none draws

/-- The rest of an iteration of SYNCING's loop for the index `a` of its window's peak and its DET (R172, R173, R174). -/
def syncWindow (r : Rxu) (detected : Bool) (a : Nat) : Rxu :=
  if detected then
    let b := bias r.num a
    { r with
      matchCnt := if b = r.expectedBias then r.matchCnt + 1 else r.matchCnt
      sampleBuf := bufDrop r.sampleBuf b }
  else { r with sampleBuf := bufDrop r.sampleBuf r.num }

/-- The loop of `SYNC_STEP` (R172): "the length test, the counter test, correlation, threshold test, bias, match test,
removal". An iteration that changes nothing is repeated for ever (R180). The first argument bounds the iterations;
`syncFuel` is enough of them (`Laws/Sync.lean`, `syncLoop_enough`). -/
def syncLoop : Nat → Nat → Rxu → StepEnd
  | 0, _, r => .loops r
  | fuel + 1, draws, r =>
    if r.sampleBuf.length < r.num then .returns r none draws
    else if r.matchCnt = Config.matchTarget then .returns { r with rxState := demoding } none draws
    else
      match windowPeak r (bufHead r.sampleBuf r.num) with
      | none => .noPeak
      | some (v, a) =>
        let r' := syncWindow r (windowDet r (bufHead r.sampleBuf r.num) v) a
        if r'.sampleBuf.length = r.sampleBuf.length ∧ r'.matchCnt = r.matchCnt then .loops r
        else syncLoop fuel draws r'

/-- Every iteration of SYNCING's loop that changes something removes a sample or raises the counter, which ends at 3. -/
def syncFuel (r : Rxu) : Nat := r.sampleBuf.length + 4

/-- `SYNC_STEP c`: "alignment on the preamble" (R172). -/
def syncStep (draws : Nat) (r : Rxu) (c : List Sample) : StepEnd :=
  let r' := { r with sampleBuf := bufAppend r.sampleBuf c }
  syncLoop (syncFuel r') draws r'

/-- The loop of `DEMOD_STEP` (R175): each iteration removes one window, so the buffer's length bounds the iterations. -/
def demodLoop : Nat → Nat → Rxu → StepEnd
  | 0, draws, r => .returns r none draws
  | fuel + 1, draws, r =>
    if r.sampleBuf.length < r.num then .returns r none draws
    else
      let r' := { r with sampleBuf := bufDrop r.sampleBuf r.num }
      match demodWindow draws r' (bufHead r.sampleBuf r.num) with
      | .noPeak => .noPeak
      | .abort => .returns (returnToListening r') none draws
      | .done m => .returns (returnToListening r') (some m) (draws + 1)
      | .next symBuf => demodLoop fuel draws { r' with symBuf := symBuf }

/-- `DEMOD_STEP c`: "demodulation of windows" (R175). -/
def demodStep (draws : Nat) (r : Rxu) (c : List Sample) : StepEnd :=
  let r' := { r with sampleBuf := bufAppend r.sampleBuf c }
  demodLoop (r'.sampleBuf.length + 1) draws r'

/-- The state after a step of the receiver: it returned, with the result made from its message; or it never will. -/
def finishStep (s : State) (res : Option Message → Result) : StepEnd → Out
  | .returns r m d => .next { s with rx := some r, result := res m, draws := d }
  | .loops r => answerRx s r .notReturned
  | .noPeak => .refused .emptySequence

/-- `LISTEN_STEP c` (R171). -/
def execListenStep (chunk : List Sample) (s : State) : Out :=
  withRx s fun r =>
    if nonEmpty chunk then finishStep s (fun _ => .done) (listenStep s.draws r chunk) else .refused .emptySequence

/-- `SYNC_STEP c` (R172). -/
def execSyncStep (chunk : List Sample) (s : State) : Out :=
  withRx s fun r =>
    if nonEmpty chunk then finishStep s (fun _ => .done) (syncStep s.draws r chunk) else .refused .emptySequence

/-- `DEMOD_STEP c` (R175); its result is the optional message. -/
def execDemodStep (chunk : List Sample) (s : State) : Out :=
  withRx s fun r =>
    if nonEmpty chunk then finishStep s .message (demodStep s.draws r chunk) else .refused .emptySequence

/-- `RX_CHUNK c` (R170): "reads rx_state once, at entry, and runs the one step that state selects"; every call consumes
its whole chunk (R177). -/
def execRxChunk (chunk : List Sample) (s : State) : Out :=
  withRx s fun r =>
    if nonEmpty chunk then
      if r.rxState = listening then finishStep s (.chunk chunk.length) (listenStep s.draws r chunk)
      else if r.rxState = syncing then finishStep s (.chunk chunk.length) (syncStep s.draws r chunk)
      else if r.rxState = demoding then finishStep s (.chunk chunk.length) (demodStep s.draws r chunk)
      else .refused .noSuchState
    else .refused .emptySequence

end Sys2Proof.Machine
end

