-- ==== Sys2Proof/Machine/System.lean ====
section
/-! DEFINITION. Construction and explicit reset (`46_system_ops.md`): `RX_CONSTRUCT` (R210), `TX_CONSTRUCT` (R211) and
`RX_RESET` (R212). -/

namespace Sys2Proof.Machine

/-- "`require BW > 0 and fs > 0`", "`require num > 0`" (R210, R211, U7). -/
def validRates (bw fs : XReal) : Bool := realLt (realOfRat 0) bw && realLt (realOfRat 0) fs && decide (0 < numOf bw fs)

/-- RXU as `RX_CONSTRUCT` leaves it (R210). -/
def constructRxu (bw fs : XReal) (hamming : Bool) (threshold : XReal) : Rxu :=
  let num := numOf bw fs
  let up := upTable bw fs num
  { cfg := { bw := bw, fs := fs, hamming := hamming, threshold := threshold }
    num := num
    expectedBias := num
    up := up
    down := downTable up
    demap := demapTable
    rxState := listening
    matchCnt := 0
    sampleBuf := []
    symBuf := [] }

/-- TXU as `TX_CONSTRUCT` leaves it (R211). -/
def constructTxu (bw fs : XReal) (hamming : Bool) : Txu :=
  let num := numOf bw fs
  { cfg := { bw := bw, fs := fs, hamming := hamming }
    num := num
    up := upTable bw fs num
    txBuf := [] }

/-- `RX_CONSTRUCT BW, fs, hamming, threshold` (R210): "Constructing again replaces all state, including a frame in
progress". -/
def execRxConstruct (bw fs : XReal) (hamming : Bool) (threshold : XReal) (s : State) : Out :=
  if validRates bw fs then answerRx s (constructRxu bw fs hamming threshold) .done
  else .refused .invalidConfiguration

/-- `TX_CONSTRUCT BW, fs, hamming` (R211): "constructing again discards pending output". -/
def execTxConstruct (bw fs : XReal) (hamming : Bool) (s : State) : Out :=
  if validRates bw fs then answerTx s (constructTxu bw fs hamming) .done
  else .refused .invalidConfiguration

/-- `RX_RESET` (R212): "The configuration, derived constants and tables are not changed. No message is emitted". -/
def execRxReset (s : State) : Out := withRx s fun r => answerRx s (returnToListening r) .done

end Sys2Proof.Machine
end

