-- ==== Sys2Proof/Machine/Dispatch.lean ====
section
/-! DEFINITION. The meaning of every operation of `opcode_table.json`, one arm for each. -/

namespace Sys2Proof.Machine

/-- What an operation does (`30_encoding.md` R93). -/
def exec (i : Instr) (s : State) : Host.Outcome State Fault Refusal :=
  match i with
  | .rxConstruct bw fs hamming threshold => Sys2Proof.Machine.execRxConstruct bw fs hamming threshold s
  | .rxReset => Sys2Proof.Machine.execRxReset s
  | .rxChunk chunk => Sys2Proof.Machine.execRxChunk chunk s
  | .txConstruct bw fs hamming => Sys2Proof.Machine.execTxConstruct bw fs hamming s
  | .txSubmit request => Sys2Proof.Machine.execTxSubmit request s
  | .txDrain count => Sys2Proof.Machine.execTxDrain count s
  | .chirpUp => Sys2Proof.Machine.execChirpUp s
  | .chirpDown => Sys2Proof.Machine.execChirpDown s
  | .chirpOf symbol => Sys2Proof.Machine.execChirpOf symbol s
  | .buildFrame payload useHamming => Sys2Proof.Machine.execBuildFrame payload useHamming s
  | .correlate window => Sys2Proof.Machine.execCorrelate window s
  | .peak mag => Sys2Proof.Machine.execPeak mag s
  | .dechirp window => Sys2Proof.Machine.execDechirp window s
  | .demap index => Sys2Proof.Machine.execDemap index s
  | .h74Enc nibble => Sys2Proof.Machine.execH74Enc nibble s
  | .h74Dec codeword => Sys2Proof.Machine.execH74Dec codeword s
  | .msgOf symbols useHamming => Sys2Proof.Machine.execMsgOf symbols useHamming s
  | .symsOf payload useHamming => Sys2Proof.Machine.execSymsOf payload useHamming s
  | .listenStep chunk => Sys2Proof.Machine.execListenStep chunk s
  | .syncStep chunk => Sys2Proof.Machine.execSyncStep chunk s
  | .demodStep chunk => Sys2Proof.Machine.execDemodStep chunk s
  | .symTerm => Sys2Proof.Machine.execSymTerm s
  | .symAbort => Sys2Proof.Machine.execSymAbort s
  | .symData symbol => Sys2Proof.Machine.execSymData symbol s

end Sys2Proof.Machine
end

