-- ==== Sys2Proof/Machine/Fetch.lean ====
section
/-! DEFINITION. Where the next operation comes from. The block fetches no instructions (`20_memory.md` R64): "Every step of
the model is one host call on one unit; the call runs to completion before the next call begins" (`00_scope.md` R9). The
host's calls to come stand in `State.calls`. -/

namespace Sys2Proof.Machine

/-- The next host call, and the state in which it is made. There is none when the host makes no call, and none while a call
is in progress that never returns (R180): the host, "the only agent" (R9), is still inside it. -/
def nextCall (s : State) : Option (Call × State) :=
  if s.result = .notReturned then none
  else
    match s.calls with
    | [] => none
    | c :: cs => some (c, { s with calls := cs })

/-- The result port of a machine in which a call can be made. -/
def readyResult : Result → Result
  | .notReturned => .idle
  | res => res

/-- Make `c` the next host call. -/
def placeCall (s : State) (c : Call) : State := { s with calls := c :: s.calls, result := readyResult s.result }

/-- The call of `RX_CHUNK`. -/
def chunkCall (chunk : List Sample) : Call := { cmd := 0x03, args := [.samples chunk] }

/-- A sample whose magnitude exceeds a threshold. -/
def loudSample (threshold : XReal) : Sample :=
  { terms := [{ coef := 1 + (threshold.abs.terms.map fun m => if m.coef < 0 then -m.coef else m.coef).sum, turn := 0 }] }

/-- A window that `DECHIRP` reads as the symbol `y` when `num` is a multiple of 128: one loud sample at index
`(num - offset) mod num`, where the peak then is (R160, R161), among zeros. -/
def symbolWindow (r : Rxu) (y : Symbol) : List Sample :=
  let place := (r.num - symbolOffset r.num y) % r.num
  List.replicate place cplxZero ++ [loudSample r.cfg.threshold] ++ List.replicate (r.num - 1 - place) cplxZero

/-- Make an encoded operation the one that the next step runs. A command word is the next call. A step is selected by
`rx_state` inside `RX_CHUNK` (R93, R170): the state is set and `RX_CHUNK` is the next call. A symbol class is selected by
the symbol of a window of DEMODING (R93, R193): the state is DEMODING with an empty sample buffer, and the next call brings
one window of that symbol. -/
def placeEncoded (s : State) : Encoded → State
  | .cmd c => placeCall s c
  | .st code chunk => placeCall { s with rx := s.rx.map fun r => { r with rxState := code } } (chunkCall chunk)
  | .sym y =>
    match s.rx with
    | none => placeCall s (chunkCall [])
    | some r =>
      placeCall { s with rx := some { r with rxState := demoding, sampleBuf := [] } } (chunkCall (symbolWindow r y))

end Sys2Proof.Machine
end

