-- ==== Sys2Proof/Machine/Step.lean ====
section
/-! DEFINITION. One step of the machine: one host call, decoded and run (`00_scope.md` R9, `20_memory.md` R58: "A model
takes one call as one step"). -/

namespace Sys2Proof.Machine

/-- One step. Without a call nothing happens: the block is "call-driven" (R9), and "If the host stops calling, the frame
stays unfinished in the buffers; nothing times out" (R264). While a call is in progress that never returns, every step is
one more iteration of its loop, which leaves the state as it is (R180). A call that the decoder refuses is refused. -/
def step (s : State) : Host.Outcome State Fault Refusal :=
  match nextCall s with
  | none => .next s
  | some (c, s') =>
    match decodeCmd c with
    | .error e => .refused (.undecodable e)
    | .ok i => exec i s'

/-- The state in which the next step runs the operation that `nbits` bits `w` of the operation table stand for. -/
def State.withFetchWord (s : State) (nbits w : Nat) : State := placeEncoded s (tableWord nbits w)

end Sys2Proof.Machine
end

