-- ==== Sys2Proof/Machine/Denote.lean ====
section
/-! DEFINITION. What the model's exact numbers are: the real and complex numbers of `00_scope.md` R11 that they stand
for. No definition of the machine uses these (they are not computable); the statements do, so that they speak of the
reals and complex numbers of the spec and not of the model's way to write them down. -/

namespace Sys2Proof.Machine

/-- `cis(x) = cos(2*pi*x) + j*sin(2*pi*x)`, "its argument in turns" (R11), as a complex number. -/
noncomputable def cisC (x : ℝ) : ℂ := Complex.exp (2 * Real.pi * x * Complex.I)

/-- The complex number that a list of terms stands for. -/
noncomputable def termsVal (ts : List Term) : ℂ := (ts.map fun t => (t.coef : ℂ) * cisC t.turn).sum

/-- The complex number that an exact complex number stands for. -/
noncomputable def cplxVal (z : Cplx) : ℂ := termsVal z.terms

/-- The real number that an exact real number stands for. -/
noncomputable def realVal (x : XReal) : ℝ := if x.neg then -‖cplxVal x.abs‖ else ‖cplxVal x.abs‖

end Sys2Proof.Machine
end

