-- ==== Sys2Proof/Safety.lean ====
section
/-! DEFINITION. The terms that the statements use: the invariants that hold between calls (`10_state.md` R22 to R25, R36),
which operations are whose, and the receiver's rules written as relations on the real and complex numbers of the spec,
independent of the functions of the machine: the convolution (R160), the peak (R161), rounding (R11), the symbol of a
window (R190 to R192), and one iteration of each of the two loops (R172, R175). -/

namespace Sys2Proof.Machine

/-! ## Invariants -/

/-- What holds of RXU between calls: the derived constants and tables are those of its configuration (R22 to R25), and
R36 (a) to (d) and (f). R36 (e) speaks of the last call and is stated of `RX_CHUNK` instead. -/
structure RxInv (r : Rxu) : Prop where
  /-- `BW > 0` (R6, R21) -/
  bw_pos : 0 < realVal r.cfg.bw
  /-- `fs > 0` (R6, R21) -/
  fs_pos : 0 < realVal r.cfg.fs
  /-- "Invariant: num > 0" (R7) -/
  num_pos : 0 < r.num
  /-- `num = round(128 * fs / BW)` (R22) -/
  num_eq : r.num = numOf r.cfg.bw r.cfg.fs
  /-- `expected_bias = num` (R22, D7) -/
  expectedBias_eq : r.expectedBias = r.num
  /-- the table `UP` (R23) -/
  up_eq : r.up = upTable r.cfg.bw r.cfg.fs r.num
  /-- the table `DOWN` (R24) -/
  down_eq : r.down = downTable r.up
  /-- the table `DEMAP` (R25) -/
  demap_eq : r.demap = demapTable
  /-- R36 (f): "rx_state is never 3" -/
  state_ne : r.rxState ≠ 3
  /-- R36 (a) -/
  of_listening : r.rxState = listening → r.sampleBuf = [] ∧ r.symBuf = [] ∧ r.matchCnt = 0
  /-- R36 (b); `0 <= match_cnt <= 3` holds by its width -/
  of_syncing : r.rxState = syncing → r.symBuf = []
  /-- R36 (c) -/
  of_demoding : r.rxState = demoding → r.matchCnt = 3
  /-- R36 (d): "sym_buf never contains 0x01" -/
  no_term : Config.symTerm ∉ r.symBuf
  /-- R36 (d): "or 0x02" -/
  no_abort : Config.symAbort ∉ r.symBuf

/-- What holds of TXU between calls (R22, R23). -/
structure TxInv (t : Txu) : Prop where
  /-- `BW > 0` (R6, R21) -/
  bw_pos : 0 < realVal t.cfg.bw
  /-- `fs > 0` (R6, R21) -/
  fs_pos : 0 < realVal t.cfg.fs
  /-- "Invariant: num > 0" (R7) -/
  num_pos : 0 < t.num
  /-- `num = round(128 * fs / BW)` (R22) -/
  num_eq : t.num = numOf t.cfg.bw t.cfg.fs
  /-- the table `UP` (R23) -/
  up_eq : t.up = upTable t.cfg.bw t.cfg.fs t.num

/-- The invariant of the machine: each unit that has been constructed has its own. -/
def StateInv (s : State) : Prop := (∀ r, s.rx = some r → RxInv r) ∧ (∀ t, s.tx = some t → TxInv t)

/-! ## Whose operation -/

/-- The host transactions of RXU (R93). -/
def isRxCall : Instr → Bool
  | .rxConstruct _ _ _ _ | .rxReset | .rxChunk _ => true
  | _ => false

/-- The host transactions of TXU (R93). -/
def isTxCall : Instr → Bool
  | .txConstruct _ _ _ | .txSubmit _ | .txDrain _ => true
  | _ => false

/-- The function-unit probes (R93). -/
def isProbe : Instr → Bool
  | .chirpUp | .chirpDown | .chirpOf _ | .buildFrame _ _ | .correlate _ | .peak _ | .dechirp _ | .demap _
  | .h74Enc _ | .h74Dec _ | .msgOf _ _ | .symsOf _ _ => true
  | _ => false

/-! ## The receiver's rules as relations -/

/-- The value of the threshold of RXU. -/
noncomputable def thresholdVal (r : Rxu) : ℝ := realVal r.cfg.threshold

/-- "sum over k with 0 <= k <= L-1 and 0 <= n-k <= num-1 of w[k] * DOWN[n - k]" (R160), in the complex numbers. -/
noncomputable def convVal (r : Rxu) (w : List Sample) (n : Nat) : ℂ :=
  ∑ k ∈ Finset.range w.length,
    if k ≤ n ∧ n - k < r.num then cplxVal (w.getD k cplxZero) * cplxVal (r.down.getD (n - k) cplxZero) else 0

/-- `v` is "max over n of mag[n]" and `a` "the lowest n with mag[n] == peak_val" (R161), for the magnitudes
`mag[n] = |y[n]|`, `n = 0 .. L + num - 2`, of `CORRELATE(w)` (R160). -/
def IsPeak (r : Rxu) (w : List Sample) (v : ℝ) (a : Nat) : Prop :=
  a < w.length + r.num - 1 ∧ v = ‖convVal r w a‖ ∧ (∀ n < w.length + r.num - 1, ‖convVal r w n‖ ≤ v) ∧
    ∀ n < a, ‖convVal r w n‖ < v

/-- "`round(x)` is the nearest integer, a tie going to the even integer" (R11). -/
def IsRound (x : ℝ) (z : Int) : Prop := |x - z| ≤ 1 / 2 ∧ (|x - z| = 1 / 2 → Even z)

/-- The ratio of the rates is rational, however they are written (all whose window length `128 * fs / BW` is an integer are):
the model rounds nothing. An irrational ratio it holds to within `2^-128` (D1; log entry 1). -/
def ExactRates (bw fs : XReal) : Prop := ∃ q : Rat, realVal fs = q * realVal bw

/-- The error bound of a window (D1, U2, U3; log entry 17): how far the difference of the squares of two of its magnitudes may
be off where the ratio of the rates is irrational. -/
noncomputable def errorBound (w : List Sample) : ℝ := (windowSum w : ℝ) ^ 2 / 2 ^ 98

/-- The peak that RXU may find: the one of R161, and where the ratio of the rates is irrational "any value among the indices
whose magnitudes are within the model's error bound of the maximum" (U2). -/
def MayPeak (r : Rxu) (w : List Sample) (v : ℝ) (a : Nat) : Prop :=
  IsPeak r w v a ∨
    (¬ExactRates r.cfg.bw r.cfg.fs ∧ a < w.length + r.num - 1 ∧ v = ‖convVal r w a‖ ∧
      ∀ n < w.length + r.num - 1, ‖convVal r w n‖ ^ 2 ≤ v ^ 2 + errorBound w)

/-- A peak too near to the threshold to tell, which is possible where the ratio of the rates is irrational (U3). -/
def NearThreshold (r : Rxu) (w : List Sample) (v : ℝ) : Prop :=
  ¬ExactRates r.cfg.bw r.cfg.fs ∧ 0 ≤ thresholdVal r ∧ |v ^ 2 - thresholdVal r ^ 2| ≤ errorBound w

/-- DET may be true for the peak `v` (R162, U3). -/
def MayDetect (r : Rxu) (w : List Sample) (v : ℝ) : Prop := thresholdVal r < v ∨ NearThreshold r w v

/-- DET may be false for the peak `v` (R162, U3). -/
def MayMiss (r : Rxu) (w : List Sample) (v : ℝ) : Prop := v ≤ thresholdVal r ∨ NearThreshold r w v

/-- No peak that RXU may find in the window can be a detection. -/
def NeverDetects (r : Rxu) (w : List Sample) : Prop := ∀ v a, MayPeak r w v a → ¬MayDetect r w v

/-- Every peak that RXU may find in the window is at index `a` and is a detection. -/
def DetectsAt (r : Rxu) (w : List Sample) (a : Nat) : Prop := ∀ v a', MayPeak r w v a' → a' = a ∧ ¬MayMiss r w v

/-- The window leaves RXU no choice: the ratio of the rates is rational, or its peak stands out from the other magnitudes and
from the threshold by more than the error bound. -/
def NoNearTie (r : Rxu) (w : List Sample) : Prop :=
  ExactRates r.cfg.bw r.cfg.fs ∨
    ∀ v a, IsPeak r w v a →
      ¬NearThreshold r w v ∧ ∀ n < w.length + r.num - 1, n ≠ a → ‖convVal r w n‖ ^ 2 + errorBound w < v ^ 2

/-- `DECHIRP(w)` is `y` (R190): the abort sentinel when the peak does not exceed the threshold (R162), else the symbol
`(-idx) mod 128` (R192) of the index `idx = round((a - num) * 128 / num)` (R191) of the peak's place `a`. -/
def Dechirps (r : Rxu) (w : List Sample) (y : Symbol) : Prop :=
  ∃ v a, MayPeak r w v a ∧
    ((MayMiss r w v ∧ y = Config.symAbort) ∨
      (MayDetect r w v ∧
        ∃ idx : Int, IsRound (((a : ℝ) - r.num) * 128 / r.num) idx ∧ (y.toNat : Int) = (-idx) % 128))

/-- One iteration of SYNCING's loop that neither makes the transition to DEMODING nor finds the buffer too short (R172):
a window whose peak exceeds the threshold gives the bias `b` (R173), counts when `b` is the expected bias (R174), and
removes `b` samples; another window is removed whole. -/
def SyncIter (r r' : Rxu) : Prop :=
  r.num ≤ r.sampleBuf.length ∧ r.matchCnt ≠ 3 ∧
    ∃ v a, MayPeak r (r.sampleBuf.take r.num) v a ∧
      ((MayDetect r (r.sampleBuf.take r.num) v ∧
          ∃ b : Nat, (b : Int) = (if r.num < a then (a : Int) - r.num else a) ∧
            r' = { r with
              matchCnt := if b = r.expectedBias then r.matchCnt + 1 else r.matchCnt
              sampleBuf := r.sampleBuf.drop b }) ∨
        (MayMiss r (r.sampleBuf.take r.num) v ∧ r' = { r with sampleBuf := r.sampleBuf.drop r.num }))

/-- One iteration of DEMODING's loop whose window gives a data symbol (R175, R193): the window is removed and the symbol
appended. -/
def DemodIter (r r' : Rxu) : Prop :=
  r.num ≤ r.sampleBuf.length ∧
    ∃ y, Dechirps r (r.sampleBuf.take r.num) y ∧ y ≠ 0x01 ∧ y ≠ 0x02 ∧
      r' = { r with sampleBuf := r.sampleBuf.drop r.num, symBuf := r.symBuf ++ [y] }

/-- The receiver as every return to LISTENING leaves it (R176): buffers and counter cleared, "configuration and tables
untouched" (R228). -/
def cleared (r : Rxu) : Rxu := { r with sampleBuf := [], symBuf := [], matchCnt := 0, rxState := 0 }

/-- The byte of place `k` of a message before zero bytes are removed (R194): with FEC on from the decoded codewords
(R195), with FEC off from the two nibbles (R196), or a value of which nothing is known (U4). -/
def PairByte (useHamming : Bool) (first second : Symbol) (b : Byte) : Prop :=
  if useHamming then b.toNat = (hammingDecode first).toNat * 16 + (hammingDecode second).toNat
  else first.toNat ≤ 15 → second.toNat ≤ 15 → b.toNat = first.toNat * 16 + second.toNat

/-- `bytes` is a message of the symbols `syms` (R194): the bytes of the consecutive pairs (R195, R196), "an unpaired last
symbol is ignored" (R197), with every zero byte removed (R198). With FEC off there can be more than one (U4). -/
def IsMessage (useHamming : Bool) (syms : List Symbol) (bytes : List Byte) : Prop :=
  ∃ formed : List Byte, formed.length = syms.length / 2 ∧
    (∀ k < formed.length, PairByte useHamming (syms.getD (2 * k) 0) (syms.getD (2 * k + 1) 0) (formed.getD k 0)) ∧
    bytes = formed.filter fun b => b ≠ 0

/-! ## The tables as relations -/

/-- The phase of sample `i` in turns, `theta(i) = (-BW/2 + 0.5*(BW/ts)*t) * t` with `ts = 128 / BW` and `t = i / fs`
(R120), over the reals. -/
noncomputable def phase (bw fs : ℝ) (i : Nat) : ℝ := (-bw / 2 + 0.5 * (bw / (128 / bw)) * (i / fs)) * (i / fs)

/-- `up` is the table `UP` of a configuration (R120): `num = round(128 * fs / BW)` entries of magnitude 1, each
`cis(theta(i))`, and where the ratio of the rates is irrational within `2^-100` of it (D1; log entry 1). -/
def IsUpTable (bw fs : XReal) (up : List Sample) : Prop :=
  IsRound (128 * realVal fs / realVal bw) up.length ∧
    ∀ i < up.length,
      ‖cplxVal (up.getD i cplxZero)‖ = 1 ∧
      ‖cplxVal (up.getD i cplxZero) - cisC (phase (realVal bw) (realVal fs) i)‖ ≤ 1 / 2 ^ 100 ∧
      (ExactRates bw fs → cplxVal (up.getD i cplxZero) = cisC (phase (realVal bw) (realVal fs) i))

/-- `up` is the table `UP` of RXU or of TXU, which has those rates and that window length (R23). -/
def IsUnitTable (bw fs : XReal) (num : Nat) (up : List Sample) : Prop :=
  (∃ r : Rxu, RxInv r ∧ r.cfg.bw = bw ∧ r.cfg.fs = fs ∧ r.num = num ∧ r.up = up) ∨
    ∃ t : Txu, TxInv t ∧ t.cfg.bw = bw ∧ t.cfg.fs = fs ∧ t.num = num ∧ t.up = up

/-- `down` is the table `DOWN` of `up` (R121): the entries are the complex conjugates. -/
def IsDownTable (up down : List Sample) : Prop :=
  down.length = up.length ∧
    ∀ i < up.length, cplxVal (down.getD i cplxZero) = starRingEnd ℂ (cplxVal (up.getD i cplxZero))

/-- `DEMAP` as R25 lists it: `DEMAP[0] = 0` and `DEMAP[k] = 128 - k`. -/
def IsDemapTable (table : List Symbol) : Prop :=
  table.length = 128 ∧ ∀ k < 128, (table.getD k 0).toNat = if k = 0 then 0 else 128 - k

/-- Sample `k` of `CHIRP_OF(s)`: `UP[(offset + k) mod num]` with `offset = floor(num * s / 128)` (R140). -/
def chirpSample (t : Txu) (s : Symbol) (k : Nat) : Sample :=
  t.up.getD ((t.num * s.toNat / 128 + k) % t.num) cplxZero

end Sys2Proof.Machine
end

