-- ==== Sys2Proof/Certificates/Slice0/Obligations.lean ====
section
/-! DEFINITION. The statements for the provers, one definition for each. They speak of `exec` and `step` through the
relations of `Sys2Proof/Safety.lean`, which are written from the rules of the spec over the real and complex numbers.
A statement of what an operation does gives the whole next state, and so its frame: what `with` does not name is as it
was. -/

open Sys2Proof Sys2Proof.Machine

/-! ## Encoding -/

/-- Decoding the encoding of any well-formed operation, in any of the three formats of R93, gives it back. -/
def Obligations.DecodeEncode : Prop :=
  ∀ i : Instr, i.wellFormed = true → decode (encode i) = .ok i

/-- What the decoder accepts is well-formed and is the encoding of what it reads: no two encodings of one operation,
none that is not in the table of R93. -/
def Obligations.EncodeDecode : Prop :=
  ∀ (e : Encoded) (i : Instr), decode e = .ok i → i.wellFormed = true ∧ encode i = e

/-- A host call with a command word outside the table of R93 is refused, whatever its operands (R94 (a)). -/
def Obligations.UnassignedCommandRefused : Prop :=
  ∀ (s : State) (c : Call) (cs : List Call), s.calls = c :: cs → s.result ≠ .notReturned →
    ¬((0x01 ≤ c.cmd.toNat ∧ c.cmd.toNat ≤ 0x06) ∨ (0x40 ≤ c.cmd.toNat ∧ c.cmd.toNat ≤ 0x4B)) →
    ∃ why, step s = .refused (.undecodable why)

/-- Operand values outside the stated types are refused by the decoder (R94 (g)): symbols and codewords above 127, a
nibble above 15, a byte above 255 or a symbol above 127 anywhere in a sequence, and empty sequences. -/
def Obligations.OutOfRangeOperandRefused : Prop :=
  (∀ n, 127 < n → decodeCmd { cmd := 0x42, args := [.nat n] } = .error .operandRange) ∧
  (∀ n, 15 < n → decodeCmd { cmd := 0x48, args := [.nat n] } = .error .operandRange) ∧
  (∀ n, 127 < n → decodeCmd { cmd := 0x49, args := [.nat n] } = .error .operandRange) ∧
  (∀ ns n, n ∈ ns → 255 < n → decodeCmd { cmd := 0x05, args := [.nats ns] } = .error .operandRange) ∧
  (∀ ns n h, n ∈ ns → 255 < n → decodeCmd { cmd := 0x43, args := [.nats ns, .bool h] } = .error .operandRange) ∧
  (∀ ns n h, n ∈ ns → 127 < n → decodeCmd { cmd := 0x4A, args := [.nats ns, .bool h] } = .error .operandRange) ∧
  (∀ ns n h, n ∈ ns → 255 < n → decodeCmd { cmd := 0x4B, args := [.nats ns, .bool h] } = .error .operandRange) ∧
  decodeCmd { cmd := 0x03, args := [.samples []] } = .error .emptySequence ∧
  decodeCmd { cmd := 0x44, args := [.samples []] } = .error .emptySequence ∧
  decodeCmd { cmd := 0x45, args := [.reals []] } = .error .emptySequence

/-- A few words of the table of R93, written out bit by bit, decode to their operations. -/
def Obligations.SampleWordsDecode : Prop :=
  decode (.cmd { cmd := 0b00000010, args := [] }) = .ok .rxReset ∧
  decode (.cmd { cmd := 0b00000110, args := [.nat 9] }) = .ok (.txDrain 9) ∧
  decode (.cmd { cmd := 0b01000000, args := [] }) = .ok .chirpUp ∧
  decode (.cmd { cmd := 0b01001000, args := [.nat 4] }) = .ok (.h74Enc 0b0100) ∧
  decode (.cmd { cmd := 0b01001001, args := [.nat 0x66] }) = .ok (.h74Dec 0b1100110) ∧
  decode (.st 0b01 [zeroSample]) = .ok (.syncStep [zeroSample]) ∧
  decode (.sym 0b0000001) = .ok .symTerm ∧
  decode (.sym 0b0000010) = .ok .symAbort ∧
  decode (.sym 0b0100110) = .ok (.symData 38)

/-- A step runs the operation that the decoder reads from the host's next call, in the state without that call. -/
def Obligations.StepRunsDecodedCall : Prop :=
  ∀ (s : State) (c : Call) (cs : List Call) (i : Instr), s.calls = c :: cs → s.result ≠ .notReturned →
    decodeCmd c = .ok i → i.wellFormed = true ∧ step s = exec i { s with calls := cs }

/-- Without a call to make, and inside a call that never returns, a step changes nothing. That there is a step without a
call is the model's choice (log entry 4; the spec has none: R9 makes every step a host call), and so is that the hang of
R180 is shown as steps that answer the same state (log entry 8). -/
def Obligations.NoCallNoChange : Prop :=
  ∀ s : State, s.calls = [] ∨ s.result = .notReturned → step s = .next s

/-! ## The machine as a whole -/

/-- Every step keeps the invariant of the machine: tables and derived constants belong to the configuration, and R36 (a)
to (d) and (f) hold. -/
def Obligations.StepKeepsInvariant : Prop :=
  ∀ s t : State, StateInv s → step s = .next t → StateInv t

/-- The invariant holds after reset, and the four receiver elements and `tx_buf` have the reset values of R35. The
configuration of the two units is the model's choice (log entry 2). -/
def Obligations.ResetSatisfiesInvariant : Prop :=
  StateInv State.reset ∧
    ∃ r u, State.reset.rx = some r ∧ State.reset.tx = some u ∧ r.rxState = 0 ∧ r.matchCnt = 0 ∧ r.sampleBuf = [] ∧
      r.symBuf = [] ∧ u.txBuf = []

/-- Reset is construction: a host that constructs both units with the values of reset (log entry 2) has the units of
`State.reset`, whatever was there before. -/
def Obligations.ResetIsConstruction : Prop :=
  ∀ s : State,
    exec (.rxConstruct (realOfRat 125000) (realOfRat 125000) true (realOfRat 40)) s
      = .next { s with rx := State.reset.rx, result := .done } ∧
    exec (.txConstruct (realOfRat 125000) (realOfRat 125000) true) s
      = .next { s with tx := State.reset.tx, result := .done }

/-- Nothing crosses the boundary: with both units constructed, every host call that decodes returns, except for the
refusals of R210, R211 (a configuration without a window) and R94 (g) (a `DECHIRP` window of another length), and only a
chunk in SYNCING may fail to return (R180). -/
def Obligations.NothingCrossesBoundary : Prop :=
  ∀ (s : State) (r : Rxu) (u : Txu) (c : Call) (cs : List Call) (i : Instr), StateInv s → s.rx = some r → s.tx = some u →
    s.result ≠ .notReturned → s.calls = c :: cs → decodeCmd c = .ok i →
    (∃ t, step s = .next t ∧ t.calls = cs ∧ (t.result = .notReturned → (∃ w, i = .rxChunk w) ∧ r.rxState = 1)) ∨
    (step s = .refused .invalidConfiguration ∧
      ∃ bw fs h, ((∃ thr, i = .rxConstruct bw fs h thr) ∨ i = .txConstruct bw fs h) ∧
        ¬(0 < realVal bw ∧ 0 < realVal fs ∧ 0 < numOf bw fs)) ∨
    (step s = .refused .windowLength ∧ ∃ w, i = .dechirp w ∧ w.length ≠ r.num)

/-- The transitions of `rx_state` in one step are those of R178: only a chunk goes on from LISTENING to SYNCING, to
DEMODING and back to LISTENING, one transition a call, and only `RX_RESET` and `RX_CONSTRUCT` go to LISTENING from
anywhere. -/
def Obligations.ReceiverTransitions : Prop :=
  ∀ (s t : State) (c : Call) (cs : List Call) (i : Instr) (r r' : Rxu), s.calls = c :: cs → decodeCmd c = .ok i →
    s.rx = some r → step s = .next t → t.rx = some r' →
    r'.rxState = r.rxState ∨
    ((∃ w, i = .rxChunk w) ∧
      ((r.rxState = 0 ∧ r'.rxState = 1) ∨ (r.rxState = 1 ∧ r'.rxState = 2) ∨ (r.rxState = 2 ∧ r'.rxState = 0))) ∨
    ((i = .rxReset ∨ ∃ bw fs h thr, i = .rxConstruct bw fs h thr) ∧ r'.rxState = 0)

/-- Between calls the sample buffer of SYNCING and DEMODING holds less than a window, unless the last call made the
transition into the state (R36 (e)). -/
def Obligations.BufferLengthBetweenCalls : Prop :=
  ∀ (s t : State) (w : List Sample) (r r' : Rxu), StateInv s → s.rx = some r → exec (.rxChunk w) s = .next t →
    t.rx = some r' → t.result ≠ .notReturned →
    (r.rxState = 1 → r'.rxState = 1 → r'.sampleBuf.length < r'.num) ∧
    (r.rxState = 2 → r'.rxState = 2 → r'.sampleBuf.length < r'.num) ∧
    (r.rxState = 0 → r'.rxState = 1 → r'.sampleBuf = w) ∧
    (r.rxState = 1 → r'.rxState = 2 → r'.num ≤ r'.sampleBuf.length)

/-- No operation but a constructor changes a configuration, a derived constant or a table, and none removes a unit. -/
def Obligations.TablesWrittenOnlyByConstruction : Prop :=
  ∀ (i : Instr) (s t : State), exec i s = .next t →
    (∀ r, s.rx = some r → (∀ bw fs h thr, i ≠ .rxConstruct bw fs h thr) →
      ∃ r', t.rx = some r' ∧ r'.cfg = r.cfg ∧ r'.num = r.num ∧ r'.expectedBias = r.expectedBias ∧ r'.up = r.up ∧
        r'.down = r.down ∧ r'.demap = r.demap) ∧
    (∀ u, s.tx = some u → (∀ bw fs h, i ≠ .txConstruct bw fs h) →
      ∃ u', t.tx = some u' ∧ u'.cfg = u.cfg ∧ u'.num = u.num ∧ u'.up = u.up)

/-- A call on RXU and a call on TXU commute, whichever comes first: made in the other order they return what they
returned and leave the same units (R61). -/
def Obligations.UnitsCommute : Prop :=
  ∀ (i j : Instr) (s a b : State), isRxCall i = true → isTxCall j = true →
    (exec i s = .next a → exec j a = .next b →
      ∃ c d, exec j s = .next c ∧ exec i c = .next d ∧ c.result = b.result ∧ d.result = a.result ∧
        c.rx = s.rx ∧ a.tx = s.tx ∧ d.rx = b.rx ∧ d.tx = b.tx ∧ d.draws = b.draws ∧ d.calls = b.calls) ∧
    (exec j s = .next a → exec i a = .next b →
      ∃ c d, exec i s = .next c ∧ exec j c = .next d ∧ c.result = b.result ∧ d.result = a.result ∧
        c.tx = s.tx ∧ a.rx = s.rx ∧ d.rx = b.rx ∧ d.tx = b.tx ∧ d.draws = b.draws ∧ d.calls = b.calls)

/-- A probe changes no state of a unit, and made again it returns the same (R59, R90). `MSG_OF` repeats its result with
FEC on, and with FEC off when every symbol is at most 15; else it may draw other unspecified bytes (U4). -/
def Obligations.ProbesChangeNoState : Prop :=
  ∀ (i : Instr) (s t : State), isProbe i = true → exec i s = .next t →
    t.rx = s.rx ∧ t.tx = s.tx ∧ t.calls = s.calls ∧
    ((∀ y h, i ≠ .msgOf y h) → t = { s with result := t.result } ∧ exec i t = .next t) ∧
    (∀ y h, i = .msgOf y h → (h = true ∨ ∀ x ∈ y, x.toNat ≤ 15) →
      ∃ t', exec i t = .next t' ∧ t'.result = t.result)

/-- Before its constructor has run, no operation on a unit has a meaning: each is refused (R253). `CHIRP_UP` reads the
table of either unit (log entry 6). -/
def Obligations.NotConstructedRefused : Prop :=
  (∀ s : State, s.rx = none →
    exec .rxReset s = .refused .rxNotConstructed ∧ (∀ w, exec (.rxChunk w) s = .refused .rxNotConstructed) ∧
    exec .chirpDown s = .refused .rxNotConstructed ∧ (∀ w, exec (.correlate w) s = .refused .rxNotConstructed) ∧
    (∀ w, exec (.dechirp w) s = .refused .rxNotConstructed) ∧ (∀ i, exec (.demap i) s = .refused .rxNotConstructed) ∧
    (∀ w, exec (.listenStep w) s = .refused .rxNotConstructed) ∧
    (∀ w, exec (.syncStep w) s = .refused .rxNotConstructed) ∧
    (∀ w, exec (.demodStep w) s = .refused .rxNotConstructed) ∧ exec .symTerm s = .refused .rxNotConstructed ∧
    exec .symAbort s = .refused .rxNotConstructed ∧ (∀ y, exec (.symData y) s = .refused .rxNotConstructed) ∧
    (s.tx = none → exec .chirpUp s = .refused .rxNotConstructed)) ∧
  (∀ s : State, s.tx = none →
    (∀ m, exec (.txSubmit m) s = .refused .txNotConstructed) ∧ (∀ n, exec (.txDrain n) s = .refused .txNotConstructed) ∧
    (∀ y, exec (.chirpOf y) s = .refused .txNotConstructed) ∧
    (∀ p h, exec (.buildFrame p h) s = .refused .txNotConstructed))

/-- The encodings that are accepted and do nothing (R95): a request without marker, a drain of nothing, `RX_RESET` in
LISTENING, and a chunk in LISTENING that cannot be a detection: its peak does not exceed the threshold, with an
irrational ratio of the rates by more than the model's error bound (log entry 17). -/
def Obligations.NoEffectCalls : Prop :=
  (∀ (s : State) (u : Txu) (m : List Byte), s.tx = some u → m.getLast? ≠ some 0x0A →
    exec (.txSubmit m) s = .next { s with result := .done }) ∧
  (∀ (s : State) (u : Txu) (n : Nat), s.tx = some u → n = 0 ∨ u.txBuf = [] →
    exec (.txDrain n) s = .next { s with result := .samples [] }) ∧
  (∀ (s : State) (r : Rxu), s.rx = some r → RxInv r → r.rxState = 0 → exec .rxReset s = .next { s with result := .done }) ∧
  (∀ (s : State) (r : Rxu) (w : List Sample), s.rx = some r → RxInv r → r.rxState = 0 → w ≠ [] → NeverDetects r w →
    exec (.rxChunk w) s = .next { s with result := .chunk w.length none })

/-! ## Construction and reset -/

/-- `RX_CONSTRUCT` (R210): a configuration with a window gives every element of RXU its value, whatever was there
before; any other is refused. Rounding half to even, `expected_bias = num` and the refusal are the spec's own decisions
D2, D7 and D21; that an irrational ratio of the rates is held to within `2^-128` is the model's choice (log entry 1). -/
def Obligations.RxConstructBuildsReceiver : Prop :=
  ∀ (bw fs : XReal) (h : Bool) (thr : XReal) (n : Int) (s : State), IsRound (128 * realVal fs / realVal bw) n →
    (0 < realVal bw ∧ 0 < realVal fs ∧ 0 < n →
      ∃ r : Rxu, exec (.rxConstruct bw fs h thr) s = .next { s with rx := some r, result := .done } ∧
        r.cfg = { bw := bw, fs := fs, hamming := h, threshold := thr } ∧ (r.num : Int) = n ∧ r.expectedBias = r.num ∧
        r.up.length = r.num ∧ IsUpTable bw fs r.up ∧ IsDownTable r.up r.down ∧ IsDemapTable r.demap ∧ r.rxState = 0 ∧
        r.matchCnt = 0 ∧ r.sampleBuf = [] ∧ r.symBuf = []) ∧
    (¬(0 < realVal bw ∧ 0 < realVal fs ∧ 0 < n) → exec (.rxConstruct bw fs h thr) s = .refused .invalidConfiguration)

/-- `TX_CONSTRUCT` (R211): a configuration with a window gives every element of TXU its value, whatever was there
before; any other is refused. Rounding half to even and the refusal are the spec's own decisions D2 and D21; that an
irrational ratio of the rates is held to within `2^-128` is the model's choice (log entry 1). -/
def Obligations.TxConstructBuildsTransmitter : Prop :=
  ∀ (bw fs : XReal) (h : Bool) (n : Int) (s : State), IsRound (128 * realVal fs / realVal bw) n →
    (0 < realVal bw ∧ 0 < realVal fs ∧ 0 < n →
      ∃ u : Txu, exec (.txConstruct bw fs h) s = .next { s with tx := some u, result := .done } ∧
        u.cfg = { bw := bw, fs := fs, hamming := h } ∧ (u.num : Int) = n ∧ u.up.length = u.num ∧ IsUpTable bw fs u.up ∧
        u.txBuf = []) ∧
    (¬(0 < realVal bw ∧ 0 < realVal fs ∧ 0 < n) → exec (.txConstruct bw fs h) s = .refused .invalidConfiguration)

/-- `RX_RESET` (R212): the four receiver elements get their reset values; the configuration, the derived constants and
the tables stay; no message is emitted. In LISTENING it changes nothing. -/
def Obligations.RxResetClears : Prop :=
  ∀ (s : State) (r : Rxu), s.rx = some r →
    exec .rxReset s = .next { s with
      rx := some { r with sampleBuf := [], symBuf := [], matchCnt := 0, rxState := 0 }, result := .done } ∧
    (RxInv r → r.rxState = 0 → { r with sampleBuf := [], symBuf := [], matchCnt := 0, rxState := 0 } = r)

/-! ## Chirp tables -/

/-- `CHIRP_UP` returns the table of R120 and changes nothing. Which unit's table it is, is the model's choice (log entry
6), and so is that the entries for an irrational ratio of the rates are within `2^-100` of those of R120 and not equal
to them (log entry 1). -/
def Obligations.ChirpUpReturnsTable : Prop :=
  ∀ s : State, StateInv s →
    (∀ u, s.tx = some u →
      exec .chirpUp s = .next { s with result := .samples u.up } ∧ u.up.length = u.num ∧ IsUpTable u.cfg.bw u.cfg.fs u.up) ∧
    (∀ r, s.tx = none → s.rx = some r →
      exec .chirpUp s = .next { s with result := .samples r.up } ∧ r.up.length = r.num ∧ IsUpTable r.cfg.bw r.cfg.fs r.up)

/-- `CHIRP_DOWN` returns `num` numbers, the conjugates of `UP` (R121, R122), and changes nothing. -/
def Obligations.ChirpDownReturnsConjugates : Prop :=
  ∀ (s : State) (r : Rxu), s.rx = some r → RxInv r →
    exec .chirpDown s = .next { s with result := .samples r.down } ∧ r.down.length = r.num ∧ IsDownTable r.up r.down

/-- With an oversampling `m` that is an integer, `num = 128*m` and the table `UP` of either unit is the closed form of
R123 with the integer phase index `phi(i)`; with `m = 1` every entry is a 256th root of unity. -/
def Obligations.UpTableClosedForm : Prop :=
  ∀ (bw fs : XReal) (num : Nat) (up : List Sample) (m : Nat), IsUnitTable bw fs num up → 0 < m →
    realVal fs = m * realVal bw →
    num = 128 * m ∧
    ∀ i < num,
      phase (realVal bw) (realVal fs) i = (i * (i - (128 * m : ℝ))) / (256 * m * m) ∧
      cplxVal (up.getD i cplxZero) = cisC ((((i : Int) * (i - 128 * m)) % (256 * m * m) : Int) / (256 * m * m : ℝ)) ∧
      (m = 1 → cplxVal (up.getD i cplxZero) ^ 256 = 1)

/-- If `128 * fs / BW` is an integer `N`, the table `UP` of either unit is symmetric (R124, derived there from R123). -/
def Obligations.UpTableSymmetric : Prop :=
  ∀ (bw fs : XReal) (num : Nat) (up : List Sample) (N : Nat), IsUnitTable bw fs num up →
    128 * realVal fs / realVal bw = N →
    num = N ∧ ∀ i, 1 ≤ i → i < N →
      phase (realVal bw) (realVal fs) (N - i) = phase (realVal bw) (realVal fs) i ∧
      cplxVal (up.getD (N - i) cplxZero) = cplxVal (up.getD i cplxZero)

/-- Every entry of both chirp tables, of `UP` in either unit and of `DOWN` in RXU, has magnitude 1 (R125). -/
def Obligations.TablesHaveUnitMagnitude : Prop :=
  (∀ (bw fs : XReal) (num : Nat) (up : List Sample), IsUnitTable bw fs num up →
    up.length = num ∧ ∀ i < num, ‖cplxVal (up.getD i cplxZero)‖ = 1) ∧
  ∀ r : Rxu, RxInv r → r.down.length = r.num ∧ ∀ i < r.num, ‖cplxVal (r.down.getD i cplxZero)‖ = 1

/-! ## Hamming(7,4) -/

/-- `H74_ENC` (R131): the nibble stands above its three parities. -/
def Obligations.H74EncodesNibble : Prop :=
  ∀ (n : Nibble) (s : State), ∃ c : Codeword, exec (.h74Enc n) s = .next { s with result := .codeword c } ∧
    c.extractLsb' 3 4 = n ∧
    c.getLsbD 2 = Bool.xor (n.getLsbD 3) (Bool.xor (n.getLsbD 2) (n.getLsbD 1)) ∧
    c.getLsbD 1 = Bool.xor (n.getLsbD 3) (Bool.xor (n.getLsbD 2) (n.getLsbD 0)) ∧
    c.getLsbD 0 = Bool.xor (n.getLsbD 3) (Bool.xor (n.getLsbD 1) (n.getLsbD 0))

/-- `H74_DEC` (R132): the data nibble with the bit flipped that the syndrome `S1 S2 S3` names. -/
def Obligations.H74DecodesCodeword : Prop :=
  ∀ (c : Codeword) (s : State), ∃ d : Nibble, exec (.h74Dec c) s = .next { s with result := .nibble d } ∧
    ∀ s1 s2 s3 : Bool,
      s1 = Bool.xor (c.getLsbD 6) (Bool.xor (c.getLsbD 5) (Bool.xor (c.getLsbD 4) (c.getLsbD 2))) →
      s2 = Bool.xor (c.getLsbD 6) (Bool.xor (c.getLsbD 5) (Bool.xor (c.getLsbD 3) (c.getLsbD 1))) →
      s3 = Bool.xor (c.getLsbD 6) (Bool.xor (c.getLsbD 4) (Bool.xor (c.getLsbD 3) (c.getLsbD 0))) →
      d.getLsbD 3 = Bool.xor (c.getLsbD 6) (s1 && s2 && s3) ∧
      d.getLsbD 2 = Bool.xor (c.getLsbD 5) (s1 && s2 && !s3) ∧
      d.getLsbD 1 = Bool.xor (c.getLsbD 4) (s1 && !s2 && s3) ∧
      d.getLsbD 0 = Bool.xor (c.getLsbD 3) (!s1 && s2 && s3)

/-- The codeword table of R133, and what it says of the 16 codewords (derived there from R131). -/
def Obligations.CodewordTable : Prop :=
  (List.range 16).map (fun n => (hammingEncode (BitVec.ofNat 4 n)).toNat)
    = [0, 11, 21, 30, 38, 45, 51, 56, 71, 76, 82, 89, 97, 106, 116, 127] ∧
  (∀ n : Nibble, hammingEncode n ≠ 0x01 ∧ hammingEncode n ≠ 0x02 ∧ ((hammingEncode n).toNat < 8 → hammingEncode n = 0)) ∧
  (∀ m n : Nibble, m ≠ n →
    3 ≤ ((List.range 7).filter fun i => (hammingEncode m ^^^ hammingEncode n).getLsbD i).length)

/-- Every codeword decodes to its nibble, also with any single bit flipped (R134). -/
def Obligations.SingleErrorsCorrected : Prop :=
  ∀ n : Nibble, hammingDecode (hammingEncode n) = n ∧
    ∀ i < 7, hammingDecode (hammingEncode n ^^^ BitVec.twoPow 7 i) = n

/-- Two flipped bits are never corrected (R135, derived there from R132). -/
def Obligations.DoubleErrorsMiscorrected : Prop :=
  ∀ n : Nibble, ∀ i < 7, ∀ j < 7, i ≠ j →
    hammingDecode (hammingEncode n ^^^ BitVec.twoPow 7 i ^^^ BitVec.twoPow 7 j) ≠ n

/-- The codeword of nibble 0 with `p_c` flipped is received as the terminator, with `p_b` flipped as the abort sentinel
(R136). -/
def Obligations.DamagedZeroCodewordIsReserved : Prop :=
  decodeSym (hammingEncode 0 ^^^ 0b0000001) = .symTerm ∧ decodeSym (hammingEncode 0 ^^^ 0b0000010) = .symAbort

/-! ## Modulator -/

/-- `CHIRP_OF` (R140): the cyclic shift of the table by `floor(num * s / 128)`. -/
def Obligations.ChirpOfShiftsTable : Prop :=
  ∀ (s : State) (u : Txu) (y : Symbol), s.tx = some u → TxInv u →
    ∃ w, exec (.chirpOf y) s = .next { s with result := .samples w } ∧ w.length = u.num ∧
      ∀ k < u.num, w.getD k cplxZero = u.up.getD ((u.num * y.toNat / 128 + k) % u.num) cplxZero

/-- `SYMS_OF` (R141): two symbols a byte, the high nibble first, each the nibble or its codeword. -/
def Obligations.SymsOfOrdersNibbles : Prop :=
  ∀ (s : State) (p : List Byte) (h : Bool),
    ∃ y : List Symbol, exec (.symsOf p h) s = .next { s with result := .symbols y } ∧ y.length = 2 * p.length ∧
      ∀ k < p.length,
        (h = true → y.getD (2 * k) 0 = hammingEncode ((p.getD k 0).extractLsb' 4 4) ∧
          y.getD (2 * k + 1) 0 = hammingEncode ((p.getD k 0).extractLsb' 0 4)) ∧
        (h = false → (y.getD (2 * k) 0).toNat = (p.getD k 0).toNat / 16 ∧
          (y.getD (2 * k + 1) 0).toNat = (p.getD k 0).toNat % 16)

/-- With FEC on no payload gives a reserved symbol (R94 (d), R133). -/
def Obligations.FecSymbolsAreNotReserved : Prop :=
  ∀ (s t : State) (p : List Byte) (y : List Symbol), exec (.symsOf p true) s = .next t → t.result = .symbols y →
    0x01 ∉ y ∧ 0x02 ∉ y

/-- `BUILD_FRAME` (R142): the frame of R86, every sample at its place. -/
def Obligations.BuildFrameLayout : Prop :=
  ∀ (s : State) (u : Txu) (p : List Byte) (h : Bool), s.tx = some u → TxInv u →
    ∃ (f : List Sample) (y : List Symbol), exec (.buildFrame p h) s = .next { s with result := .samples f } ∧
      exec (.symsOf p h) s = .next { s with result := .symbols y } ∧
      f.length = (5 + 2 * p.length) * u.num + 8192 ∧
      (∀ k < 4 * u.num, f[k]? = some (u.up.getD (k % u.num) cplxZero)) ∧
      (∀ j < 2 * p.length, ∀ k < u.num, f[(4 + j) * u.num + k]? = some (chirpSample u (y.getD j 0) k)) ∧
      (∀ k < u.num, f[(4 + 2 * p.length) * u.num + k]? = some (chirpSample u 0x01 k)) ∧
      (∀ k < 8192, f[(5 + 2 * p.length) * u.num + k]? = some cplxZero)

/-- `TX_SUBMIT` (R143): a request that ends with the marker puts the frame of the bytes before the marker behind what is
pending; any other, also the empty one, changes nothing. The host is told nothing. That the marker is no payload and
that frames queue are the spec's own decisions D10 and D11. -/
def Obligations.TxSubmitQueuesFrame : Prop :=
  ∀ (s : State) (u : Txu), s.tx = some u →
    (∀ p : List Byte, ∃ f, exec (.buildFrame p u.cfg.hamming) s = .next { s with result := .samples f } ∧
      exec (.txSubmit (p ++ [0x0A])) s = .next { s with tx := some { u with txBuf := u.txBuf ++ f }, result := .done }) ∧
    (∀ m : List Byte, (∀ p, m ≠ p ++ [0x0A]) → exec (.txSubmit m) s = .next { s with result := .done })

/-- `TX_DRAIN` (R144): the oldest `min(N, available)` samples are returned and removed. -/
def Obligations.TxDrainTakesOldest : Prop :=
  ∀ (s : State) (u : Txu) (n : Nat), s.tx = some u →
    ∃ out, exec (.txDrain n) s = .next { s with tx := some { u with txBuf := u.txBuf.drop n }, result := .samples out } ∧
      out.length = min n u.txBuf.length ∧ out ++ u.txBuf.drop n = u.txBuf

/-- Successive drains return consecutive pieces (R144): two drains give together what one gives. -/
def Obligations.DrainsCompose : Prop :=
  ∀ (s : State) (u : Txu) (m n : Nat), s.tx = some u →
    ∃ a b x y, exec (.txDrain m) s = .next a ∧ a.result = .samples x ∧ exec (.txDrain n) a = .next b ∧
      b.result = .samples y ∧ exec (.txDrain (m + n)) s = .next { b with result := .samples (x ++ y) }

/-! ## Correlator -/

/-- `CORRELATE` (R160): the magnitudes of the full convolution with `DOWN`; an empty sequence is refused. -/
def Obligations.CorrelateIsConvolution : Prop :=
  ∀ (s : State) (r : Rxu) (w : List Sample), s.rx = some r → RxInv r →
    (w ≠ [] → ∃ mag, exec (.correlate w) s = .next { s with result := .reals mag } ∧
      mag.length = w.length + r.num - 1 ∧ ∀ (n : Nat) (x : XReal), mag[n]? = some x → realVal x = ‖convVal r w n‖) ∧
    (w = [] → exec (.correlate w) s = .refused .emptySequence)

/-- Scaling a window by a rational `q >= 0` scales its magnitudes by `q` (R160). -/
def Obligations.CorrelateScales : Prop :=
  ∀ (s : State) (r : Rxu) (w : List Sample) (q : Rat), s.rx = some r → RxInv r → w ≠ [] → 0 ≤ q →
    ∃ mag mag', exec (.correlate w) s = .next { s with result := .reals mag } ∧
      exec (.correlate (w.map (cplxMul (cplxOfRat q)))) s = .next { s with result := .reals mag' } ∧
      mag'.length = mag.length ∧
      ∀ (n : Nat) (x x' : XReal), mag[n]? = some x → mag'[n]? = some x' → realVal x' = q * realVal x

/-- `PEAK` (R161): the maximum and the lowest index that has it; an empty sequence is refused. The lowest index is the
spec's own decision D3, the refusal D28. -/
def Obligations.PeakIsFirstMaximum : Prop :=
  ∀ (s : State) (mag : List XReal),
    (mag ≠ [] → ∃ v a, exec (.peak mag) s = .next { s with result := .peak v a } ∧ mag[a]? = some v ∧
      (∀ (n : Nat) (x : XReal), mag[n]? = some x → realVal x ≤ realVal v) ∧
      (∀ (n : Nat) (x : XReal), n < a → mag[n]? = some x → realVal x < realVal v)) ∧
    (mag = [] → exec (.peak mag) s = .refused .emptySequence)

/-- The correlation of an aligned preamble repetition is `N - 1` at index `N`, when `128 * fs / BW` is an integer `N`
(R163; that this is the maximum is not stated here). -/
def Obligations.AlignedRepetitionAtNum : Prop :=
  ∀ (r : Rxu) (N : Nat), RxInv r → 128 * realVal r.cfg.fs / realVal r.cfg.bw = N → convVal r r.up N = N - 1

/-- A window `[A, 0, ..., 0]` has its peak `|A|` at index 0 (R180). -/
def Obligations.ImpulsePeaksAtZero : Prop :=
  ∀ (r : Rxu) (A : Sample), RxInv r → IsPeak r (A :: List.replicate (r.num - 1) cplxZero) ‖cplxVal A‖ 0

/-! ## SyncEngine -/

/-- `RX_CHUNK` (R170, R177): it runs the one step that `rx_state` selects at entry and returns the length of the whole
chunk, with the message of `DEMOD_STEP` if there is one; a call whose step never returns does not return (R180). An
empty chunk and `rx_state = 3` are refused. One step a call, the count and the refusals are the spec's own decisions D5,
D6, D17 and D28. -/
def Obligations.RxChunkRunsSelectedStep : Prop :=
  ∀ (s : State) (r : Rxu) (w : List Sample), s.rx = some r →
    (w = [] → exec (.rxChunk w) s = .refused .emptySequence) ∧
    (w ≠ [] → r.rxState = 3 → exec (.rxChunk w) s = .refused .noSuchState) ∧
    (w ≠ [] → RxInv r → r.rxState = 0 →
      ∃ t, exec (.listenStep w) s = .next t ∧ exec (.rxChunk w) s = .next { t with result := .chunk w.length none }) ∧
    (w ≠ [] → RxInv r → r.rxState = 1 →
      ∃ t, exec (.syncStep w) s = .next t ∧
        ((t.result = .done ∧ exec (.rxChunk w) s = .next { t with result := .chunk w.length none }) ∨
          (t.result = .notReturned ∧ exec (.rxChunk w) s = .next t))) ∧
    (w ≠ [] → RxInv r → r.rxState = 2 →
      ∃ t m, exec (.demodStep w) s = .next t ∧ t.result = .message m ∧
        exec (.rxChunk w) s = .next { t with result := .chunk w.length m })

/-- `LISTEN_STEP` (R171): a chunk whose peak exceeds the threshold is buffered and starts SYNCING; any other is
discarded. That the step runs in every `rx_state`, and not in LISTENING alone, is the model's choice (log entry 15).
Where the ratio of the rates is irrational, a peak may be any near the maximum and DET any Boolean near the threshold,
as U2 and U3 say of a rounded model; the error bound is the model's choice (log entry 17). A rational ratio leaves no
choice. -/
def Obligations.ListenStepDetects : Prop :=
  ∀ (s : State) (r : Rxu) (w : List Sample), s.rx = some r → RxInv r → w ≠ [] →
    ∃ v a, MayPeak r w v a ∧
      ((MayDetect r w v ∧ exec (.listenStep w) s = .next { s with
          rx := some { r with sampleBuf := r.sampleBuf ++ w, rxState := 1 }, result := .done }) ∨
        (MayMiss r w v ∧ exec (.listenStep w) s = .next { s with result := .done }))

/-- `SYNC_STEP` (R172): the chunk is appended and the loop is run to its end, which is a buffer shorter than a window,
the transition to DEMODING at a counter of 3, or an iteration that repeats itself for ever (R180). The lowest peak
index, the expected bias and the transition's taking effect for the next call are the spec's own decisions D3, D7 and
D5; that the step runs in every `rx_state`, and that the hang is the result `notReturned`, is the model's choice (log
entries 15 and 8). With an irrational ratio of the rates, U2 and U3 leave a choice within the model's error bound (log
entry 17). -/
def Obligations.SyncStepRunsLoop : Prop :=
  ∀ (s : State) (r : Rxu) (w : List Sample), s.rx = some r → RxInv r → w ≠ [] →
    ∃ r', Relation.ReflTransGen SyncIter { r with sampleBuf := r.sampleBuf ++ w } r' ∧
      ((r'.sampleBuf.length < r'.num ∧ exec (.syncStep w) s = .next { s with rx := some r', result := .done }) ∨
        (r'.num ≤ r'.sampleBuf.length ∧ r'.matchCnt = 3 ∧
          exec (.syncStep w) s = .next { s with rx := some { r' with rxState := 2 }, result := .done }) ∨
        (SyncIter r' r' ∧ exec (.syncStep w) s = .next { s with rx := some r', result := .notReturned }))

/-- `SYNC_STEP` ends in one way: whatever state of the loop the iterations reach from the appended chunk in which the
loop ends (a buffer shorter than a window, a counter of 3, or an iteration that repeats itself for ever), that state is
the one the operation answers (R172, R180), when no window on the way has a near tie: with a rational ratio of the rates
none has, with an irrational one U2 and U3 leave a choice within the model's error bound (log entry 17). That the step
runs in every `rx_state` and that the hang is the result `notReturned` is the model's choice (log entries 15 and 8). -/
def Obligations.SyncStepEndIsUnique : Prop :=
  ∀ (s : State) (r r' : Rxu) (w : List Sample), s.rx = some r → RxInv r → w ≠ [] →
    (∀ r2, Relation.ReflTransGen SyncIter { r with sampleBuf := r.sampleBuf ++ w } r2 →
      NoNearTie r2 (r2.sampleBuf.take r2.num)) →
    Relation.ReflTransGen SyncIter { r with sampleBuf := r.sampleBuf ++ w } r' →
    (r'.sampleBuf.length < r'.num → exec (.syncStep w) s = .next { s with rx := some r', result := .done }) ∧
    (r'.num ≤ r'.sampleBuf.length → r'.matchCnt = 3 →
      exec (.syncStep w) s = .next { s with rx := some { r' with rxState := 2 }, result := .done }) ∧
    (SyncIter r' r' → exec (.syncStep w) s = .next { s with rx := some r', result := .notReturned })

/-- A SYNCING window whose peak above the threshold is at index 0 (beyond the model's error bound of log entry 17, with
an irrational ratio of the rates) makes the call loop for ever (R180): the call does not return, and every further step
leaves the machine as it is. That form of the hang is the model's choice (log entry 8). -/
def Obligations.SyncHangsAtBiasZero : Prop :=
  ∀ (s : State) (r : Rxu) (w : List Sample), s.rx = some r → RxInv r → r.rxState = 1 → w ≠ [] → r.matchCnt ≠ 3 →
    r.num ≤ (r.sampleBuf ++ w).length → DetectsAt r ((r.sampleBuf ++ w).take r.num) 0 →
    ∃ t, t = { s with rx := some { r with sampleBuf := r.sampleBuf ++ w }, result := .notReturned } ∧
      exec (.rxChunk w) s = .next t ∧ step t = .next t

/-- `DEMOD_STEP` (R175): the chunk is appended and the loop is run to its end, which is a buffer shorter than a window,
an abort, or a terminator, upon which the message of the symbols collected is emitted. The symbol of a window and the
message rest on the spec's own decisions D2, D3, D8, D9 and D12 to D15; that the step runs in every `rx_state` is the
model's choice (log entry 15). With an irrational ratio of the rates, U2 and U3 leave a choice within the model's error
bound (log entry 17). -/
def Obligations.DemodStepRunsLoop : Prop :=
  ∀ (s : State) (r : Rxu) (w : List Sample), s.rx = some r → RxInv r → w ≠ [] →
    ∃ r', Relation.ReflTransGen DemodIter { r with sampleBuf := r.sampleBuf ++ w } r' ∧
      ((r'.sampleBuf.length < r'.num ∧ exec (.demodStep w) s = .next { s with rx := some r', result := .message none }) ∨
        (r'.num ≤ r'.sampleBuf.length ∧ Dechirps r' (r'.sampleBuf.take r'.num) 0x02 ∧
          exec (.demodStep w) s = .next { s with rx := some (cleared r), result := .message none }) ∨
        (r'.num ≤ r'.sampleBuf.length ∧ Dechirps r' (r'.sampleBuf.take r'.num) 0x01 ∧
          ∃ b, IsMessage r.cfg.hamming r'.symBuf b ∧
            exec (.demodStep w) s = .next { s with
              rx := some (cleared r), result := .message (some { metadata := (), bytes := b }), draws := s.draws + 1 }))

/-- A call emits at most one message, and only a call that begins in DEMODING emits one; it ends in LISTENING with the
buffers cleared (R179, R176). -/
def Obligations.MessageOnlyFromDemoding : Prop :=
  ∀ (s t : State) (w : List Sample) (n : Nat) (m : Message), exec (.rxChunk w) s = .next t →
    t.result = .chunk n (some m) → n = w.length ∧ ∃ r, s.rx = some r ∧ r.rxState = 2 ∧ t.rx = some (cleared r)

/-- Weak-signal abort (R222, R228): a first window of DEMODING whose peak does not exceed the threshold (beyond the
model's error bound of log entry 17, with an irrational ratio of the rates) discards the frame; nothing is emitted, the
receiver is in LISTENING with empty buffers, and everything else is as it was. -/
def Obligations.WeakWindowAborts : Prop :=
  ∀ (s : State) (r : Rxu) (w : List Sample), s.rx = some r → RxInv r → r.rxState = 2 → w ≠ [] →
    r.num ≤ (r.sampleBuf ++ w).length → NeverDetects r ((r.sampleBuf ++ w).take r.num) →
    exec (.rxChunk w) s = .next { s with rx := some (cleared r), result := .chunk w.length none }

/-! ## Demodulator -/

/-- `DECHIRP` (R190): one window to one symbol; a window of another length is refused. Rounding, the lowest peak index,
the reduction modulo 128, the table's direction and the refusal are the spec's own decisions D2, D3, D8, D9 and D29.
With an irrational ratio of the rates, U2 and U3 leave a choice within the model's error bound (log entry 17). -/
def Obligations.DechirpGivesSymbol : Prop :=
  ∀ (s : State) (r : Rxu) (w : List Sample), s.rx = some r → RxInv r →
    (w.length = r.num → ∃ y, Dechirps r w y ∧ exec (.dechirp w) s = .next { s with result := .symbol y }) ∧
    (w.length ≠ r.num → exec (.dechirp w) s = .refused .windowLength)

/-- The round trip of one symbol at `fs = BW` (R200): `DECHIRP` of the window `CHIRP_OF(s)` gives `s`, for every symbol,
when both units have `fs = BW` and the threshold is below 64, the smallest peak. (The terms of the convolution then form
a geometric sum: its magnitude is the number of terms where the offsets cancel, and at most `1 / sin(pi / 128)`
elsewhere.) -/
def Obligations.DechirpInvertsChirpOf : Prop :=
  ∀ (s : State) (r : Rxu) (u : Txu) (y : Symbol), s.rx = some r → s.tx = some u → RxInv r → TxInv u →
    realVal r.cfg.fs = realVal r.cfg.bw → realVal u.cfg.fs = realVal u.cfg.bw → thresholdVal r < 64 →
    ∃ w, exec (.chirpOf y) s = .next { s with result := .samples w } ∧
      exec (.dechirp w) s = .next { s with result := .symbol y }

/-- `DEMAP` (R192): the symbol `(-idx) mod 128`, by the spec's own decisions D8 and D9. -/
def Obligations.DemapNegates : Prop :=
  ∀ (s : State) (r : Rxu) (idx : Int), s.rx = some r → RxInv r →
    ∃ y : Symbol, exec (.demap idx) s = .next { s with result := .symbol y } ∧ (y.toNat : Int) = (-idx) % 128

/-- The three classes of a received symbol (R193): the terminator emits the message of the symbols collected and the
receiver returns to LISTENING, the abort sentinel returns it to LISTENING without a message, and any other symbol is
appended. A reserved symbol is no data symbol. The refusal of a reserved symbol as data is the model's choice (log entry
11), and so is that these rows run by themselves in every `rx_state`, with `RETURN_TO_LISTENING` inside (log entry 15);
the message rests on the spec's own decisions D12 to D15. -/
def Obligations.SymbolClasses : Prop :=
  ∀ (s : State) (r : Rxu), s.rx = some r →
    (∃ b, IsMessage r.cfg.hamming r.symBuf b ∧ exec .symTerm s = .next { s with
      rx := some (cleared r), result := .signalDone { metadata := (), bytes := b }, draws := s.draws + 1 }) ∧
    exec .symAbort s = .next { s with rx := some (cleared r), result := .signalAbort } ∧
    (∀ y : Symbol, y ≠ 0x01 → y ≠ 0x02 →
      exec (.symData y) s = .next { s with rx := some { r with symBuf := r.symBuf ++ [y] }, result := .done }) ∧
    (∀ y : Symbol, y = 0x01 ∨ y = 0x02 → exec (.symData y) s = .refused .reservedSymbol)

/-- A `DEMOD_STEP` in DEMODING with one window is the symbol class of that window's symbol `y` (R190), run with the
window removed (R175, R193). That the class is an operation run by itself, with `RETURN_TO_LISTENING` inside, is the
model's choice (log entry 15). With an irrational ratio of the rates, U2 and U3 leave a choice within the model's error
bound (log entry 17). -/
def Obligations.WindowRunsItsSymbolClass : Prop :=
  ∀ (s : State) (r : Rxu) (w : List Sample), s.rx = some r → RxInv r → r.rxState = 2 → w ≠ [] →
    r.num ≤ (r.sampleBuf ++ w).length → (r.sampleBuf ++ w).length < 2 * r.num →
    ∃ y t, Dechirps r ((r.sampleBuf ++ w).take r.num) y ∧
      exec (decodeSym y) { s with rx := some { r with sampleBuf := (r.sampleBuf ++ w).drop r.num } } = .next t ∧
      ((y = 0x01 ∧ ∃ m, t.result = .signalDone m ∧ exec (.demodStep w) s = .next { t with result := .message (some m) }) ∨
        (y ≠ 0x01 ∧ exec (.demodStep w) s = .next { t with result := .message none }))

/-- `MSG_OF` (R194 to R198): one byte for each pair of symbols, zero bytes removed. With FEC off the byte of a pair with
a member above 15 may be any (U4). The odd symbol, that byte and the removal of all zero bytes are the spec's own
decisions D12 to D14. -/
def Obligations.MsgOfFormsBytes : Prop :=
  ∀ (s : State) (y : List Symbol) (h : Bool),
    ∃ b, exec (.msgOf y h) s = .next { s with result := .bytes b, draws := s.draws + 1 } ∧ IsMessage h y b

/-- The bytes of the symbols of a payload are the payload without its zero bytes, in both modes. -/
def Obligations.MsgOfInvertsSymsOf : Prop :=
  ∀ (s t : State) (p : List Byte) (h : Bool) (y : List Symbol), exec (.symsOf p h) s = .next t →
    t.result = .symbols y →
    exec (.msgOf y h) t = .next { t with result := .bytes (p.filter fun b => b ≠ 0), draws := t.draws + 1 }

/-- No message holds a zero byte (R98, R198). -/
def Obligations.MessagesHaveNoZeroByte : Prop :=
  ∀ (s t : State),
    (∀ y h b, exec (.msgOf y h) s = .next t → t.result = .bytes b → 0 ∉ b) ∧
    (∀ m, exec .symTerm s = .next t → t.result = .signalDone m → 0 ∉ m.bytes) ∧
    (∀ w m, exec (.demodStep w) s = .next t → t.result = .message (some m) → 0 ∉ m.bytes) ∧
    (∀ w n m, exec (.rxChunk w) s = .next t → t.result = .chunk n (some m) → 0 ∉ m.bytes)
end

