-- ==== Sys2Proof/Laws/FixedPoint.lean ====
section
/-! SUPPORT. The fixed-point values of `Machine/Number.lean` are as close to the real ones as `cisError` says:
`piFixed_close`, `expFixed_close`, `cisFixed_close`. -/

namespace Sys2Proof.Machine
open Real

/-! ## `arctan` and `pi` -/

/-- A term of the series of `arctan(1/k)`. -/
noncomputable def arctanTerm (k : Nat) (j : Nat) : ℝ := (-1) ^ j * ((k:ℝ)⁻¹) ^ (2 * j + 1) / ((2 * j + 1 : ℕ) : ℝ)

theorem arctanInv_error (p k : Nat) (hk : 0 < k) (j : Nat) :
    |(arctanInv p k j : ℝ) - 2 ^ p * ∑ i ∈ Finset.range j, arctanTerm k i| ≤ j := by
  induction j with
  | zero => simp [arctanInv]
  | succ j ih =>
    rw [Finset.sum_range_succ, arctanInv]
    set q : Nat := (2 * j + 1) * k ^ (2 * j + 1) with hq
    have hq0 : (0:ℝ) < q := by positivity
    have h1 : |((2 ^ p / q : Nat) : ℝ) - 2 ^ p / q| ≤ 1 := by
      have ha : ((2 ^ p / q : Nat) : ℝ) ≤ (2 ^ p : Nat) / (q : ℝ) := Nat.cast_div_le
      have hb : ((2 ^ p : Nat) : ℝ) / q < (2 ^ p / q : Nat) + 1 := by
        have := Nat.lt_div_mul_add (a := 2 ^ p) (b := q) (by positivity)
        rw [div_lt_iff₀ hq0]
        have h2 : ((2 ^ p : Nat) : ℝ) < ((2 ^ p / q * q + q : Nat) : ℝ) := by exact_mod_cast this
        push_cast at h2 ⊢
        linarith
      push_cast at ha hb
      rw [abs_le]
      constructor <;> linarith
    have h2 : (2:ℝ) ^ p * arctanTerm k j = (-1) ^ j * (2 ^ p / q) := by
      have hk' : ((k:ℝ) ^ (2 * j + 1)) ≠ 0 := by positivity
      rw [arctanTerm, hq, inv_pow]
      push_cast
      field_simp
    have h3 : (((if j % 2 = 0 then 1 else -1 : Int)) : ℝ) = (-1) ^ j := by
      rcases Nat.even_or_odd j with h | h
      · rw [if_pos (Nat.even_iff.mp h), h.neg_one_pow]; simp
      · rw [if_neg (by have := Nat.odd_iff.mp h; omega), h.neg_one_pow]; simp
    have h4 : ((arctanInv p k j + (if j % 2 = 0 then 1 else -1) * ((2 ^ p / q : Nat) : Int) : Int) : ℝ)
        - 2 ^ p * (∑ i ∈ Finset.range j, arctanTerm k i + arctanTerm k j)
        = ((arctanInv p k j : ℝ) - 2 ^ p * ∑ i ∈ Finset.range j, arctanTerm k i)
          + (-1) ^ j * (((2 ^ p / q : Nat) : ℝ) - 2 ^ p / q) := by
      rw [Int.cast_add, Int.cast_mul, h3, mul_add, h2, Int.cast_natCast]
      ring
    rw [h4]
    refine (abs_add_le _ _).trans ?_
    rw [abs_mul, abs_pow, abs_neg, abs_one, one_pow, one_mul]
    push_cast
    linarith

theorem arctan_tail (k : Nat) (hk : 5 ≤ k) (j : Nat) :
    |arctan ((k:ℝ)⁻¹) - ∑ i ∈ Finset.range j, arctanTerm k i| ≤ (1 / 2) ^ j := by
  have hk0 : (5:ℝ) ≤ k := by exact_mod_cast hk
  have hx : (k:ℝ)⁻¹ ≤ 1 / 5 := by
    rw [inv_eq_one_div]; exact one_div_le_one_div_of_le (by norm_num) hk0
  have hx0 : 0 < (k:ℝ)⁻¹ := by positivity
  have hs : HasSum (fun n => arctanTerm k n) (arctan ((k:ℝ)⁻¹)) :=
    Real.hasSum_arctan (by rw [Real.norm_of_nonneg hx0.le]; linarith)
  have ht := (hasSum_nat_add_iff' j).mpr hs
  have hb : ∀ n, ‖arctanTerm k (n + j)‖ ≤ (1 / 2) ^ (j + 1) * (1 / 2) ^ n := by
    intro n
    rw [arctanTerm, norm_div, norm_mul, norm_pow, norm_neg, norm_one, one_pow, one_mul, norm_pow,
      Real.norm_of_nonneg hx0.le, Real.norm_of_nonneg (by positivity)]
    have h1 : ((k:ℝ)⁻¹) ^ (2 * (n + j) + 1) ≤ (1 / 2) ^ (2 * (n + j) + 1) :=
      pow_le_pow_left₀ hx0.le (by linarith) _
    have h2 : ((1:ℝ) / 2) ^ (2 * (n + j) + 1) ≤ (1 / 2) ^ (j + 1 + n) :=
      pow_le_pow_of_le_one (by norm_num) (by norm_num) (by omega)
    have h3 : (1:ℝ) ≤ ((2 * (n + j) + 1 : ℕ) : ℝ) := by exact_mod_cast Nat.le_add_left 1 _
    rw [← pow_add]
    exact (div_le_self (by positivity) h3).trans (h1.trans h2)
  have hg : HasSum (fun n => ((1:ℝ) / 2) ^ (j + 1) * (1 / 2) ^ n) ((1 / 2) ^ (j + 1) * 2) :=
    hasSum_geometric_two.mul_left _
  have := ht.norm_le_of_bounded hg hb
  rw [Real.norm_eq_abs] at this
  refine this.trans (le_of_eq ?_)
  rw [pow_succ]; ring

theorem arctanInv_close (p k : Nat) (hk : 5 ≤ k) :
    |(arctanInv p k p : ℝ) - 2 ^ p * arctan ((k:ℝ)⁻¹)| ≤ p + 1 := by
  have h1 := arctanInv_error p k (by omega) p
  have h2 := arctan_tail k hk p
  have h3 : (arctanInv p k p : ℝ) - 2 ^ p * arctan ((k:ℝ)⁻¹)
      = ((arctanInv p k p : ℝ) - 2 ^ p * ∑ i ∈ Finset.range p, arctanTerm k i)
        - 2 ^ p * (arctan ((k:ℝ)⁻¹) - ∑ i ∈ Finset.range p, arctanTerm k i) := by ring
  rw [h3]
  refine (abs_sub _ _).trans ?_
  rw [abs_mul, abs_of_pos (by positivity : (0:ℝ) < 2 ^ p)]
  have h4 : (2:ℝ) ^ p * (1 / 2) ^ p = 1 := by rw [← mul_pow]; norm_num
  have h5 := mul_le_mul_of_nonneg_left h2 (by positivity : (0:ℝ) ≤ 2 ^ p)
  linarith

theorem piFixed_close (p : Nat) : |(piFixed p : ℝ) - 2 ^ p * π| ≤ 20 * (p + 1) := by
  have h1 := arctanInv_close p 5 (by norm_num)
  have h2 := arctanInv_close p 239 (by norm_num)
  have hm := Real.four_mul_arctan_inv_5_sub_arctan_inv_239
  have hp : (2:ℝ) ^ p * π = 16 * (2 ^ p * arctan ((5:ℕ):ℝ)⁻¹) - 4 * (2 ^ p * arctan ((239:ℕ):ℝ)⁻¹) := by
    push_cast
    have : π = 16 * arctan (5:ℝ)⁻¹ - 4 * arctan (239:ℝ)⁻¹ := by linarith
    rw [this]; ring
  rw [piFixed, hp]
  push_cast
  push_cast at h1 h2
  rw [abs_le] at h1 h2 ⊢
  constructor <;> linarith [h1.1, h1.2, h2.1, h2.2]

/-! ## The series of `exp` -/

/-- The nested sum that `expFixed` evaluates, exact. -/
noncomputable def nest (z : ℂ) : Nat → Nat → ℂ
  | 0, _ => 1
  | n + 1, m => 1 + z / m * nest z n (m + 1)

/-- The bound on the error of `expFixed`, for an argument of magnitude at most `u`. -/
noncomputable def nestBound (u : ℝ) : Nat → Nat → ℝ
  | 0, _ => 0
  | n + 1, m => 2 + u / m * nestBound u n (m + 1)

theorem nest_eq (z : ℂ) (n m : Nat) :
    nest z n (m + 1) = ∑ j ∈ Finset.range (n + 1), z ^ j * (m.factorial : ℂ) / ((m + j).factorial : ℂ) := by
  induction n generalizing m with
  | zero =>
    have : (m.factorial : ℂ) ≠ 0 := by exact_mod_cast m.factorial_ne_zero
    simp [nest, this]
  | succ n ih =>
    rw [nest, ih, Finset.sum_range_succ' _ (n + 1)]
    have h0 : (m.factorial : ℂ) ≠ 0 := by exact_mod_cast m.factorial_ne_zero
    have h1 : ((m : ℂ) + 1) ≠ 0 := by exact_mod_cast Nat.succ_ne_zero m
    rw [Finset.mul_sum, add_comm]
    congr 1
    · refine Finset.sum_congr rfl fun j _ => ?_
      have h2 : (((m + (j + 1)).factorial : ℕ) : ℂ) ≠ 0 := by exact_mod_cast Nat.factorial_ne_zero _
      have h3 : m + 1 + j = m + (j + 1) := by omega
      rw [h3, Nat.factorial_succ m]
      push_cast
      field_simp
      ring
    · simp [h0]

theorem nest_one (z : ℂ) (n : Nat) :
    nest z n 1 = ∑ j ∈ Finset.range (n + 1), z ^ j / (j.factorial : ℂ) := by
  rw [show (1:ℕ) = 0 + 1 from rfl, nest_eq]
  simp

theorem nestBound_eq (u : ℝ) (n m : Nat) :
    nestBound u n (m + 1) = 2 * ∑ j ∈ Finset.range n, u ^ j * (m.factorial : ℝ) / ((m + j).factorial : ℝ) := by
  induction n generalizing m with
  | zero => simp [nestBound]
  | succ n ih =>
    have h0 : (m.factorial : ℝ) ≠ 0 := by exact_mod_cast m.factorial_ne_zero
    rw [nestBound, ih, Finset.sum_range_succ' _ n, mul_add, add_comm]
    congr 1
    · rw [Finset.mul_sum, Finset.mul_sum, Finset.mul_sum]
      refine Finset.sum_congr rfl fun j _ => ?_
      have h2 : (((m + (j + 1)).factorial : ℕ) : ℝ) ≠ 0 := by exact_mod_cast Nat.factorial_ne_zero _
      have h3 : m + 1 + j = m + (j + 1) := by omega
      rw [h3, Nat.factorial_succ m]
      push_cast
      field_simp
      ring
    · simp [h0]

theorem nestBound_seven (n : Nat) : nestBound 7 n 1 ≤ 2200 := by
  rw [show (1:ℕ) = 0 + 1 from rfl, nestBound_eq]
  have h : ∑ j ∈ Finset.range n, (7:ℝ) ^ j * ((Nat.factorial 0 : ℕ) : ℝ) / ((0 + j).factorial : ℝ) ≤ rexp 7 := by
    simpa using Real.sum_le_exp_of_nonneg (by norm_num : (0:ℝ) ≤ 7) n
  have he : rexp 7 = rexp 1 ^ 7 := by rw [← Real.exp_nat_mul]; norm_num
  have h1 : rexp 1 ^ 7 ≤ (2.7182818286 : ℝ) ^ 7 := pow_le_pow_left₀ (Real.exp_pos _).le Real.exp_one_lt_d9.le 7
  have h2 : (2.7182818286 : ℝ) ^ 7 ≤ 1100 := by norm_num
  linarith [he ▸ h]

theorem nestBound_nonneg (u : ℝ) (hu : 0 ≤ u) (n m : Nat) : 0 ≤ nestBound u n m := by
  induction n generalizing m with
  | zero => simp [nestBound]
  | succ n ih => rw [nestBound]; have := ih (m + 1); positivity

/-- A fixed-point pair as a complex number, in units of the last place. -/
noncomputable def pairVal (e : Int × Int) : ℂ := ⟨(e.1 : ℝ), (e.2 : ℝ)⟩

theorem floorDiv_close (a : Int) (b : Nat) (hb : 0 < b) : |((a / (b : Int) : Int) : ℝ) - (a : ℝ) / b| ≤ 1 := by
  have hb' : (0:ℝ) < b := by exact_mod_cast hb
  have h1 : a / (b:Int) * b ≤ a := Int.ediv_mul_le a (by omega)
  have h2 : a < (a / (b:Int) + 1) * b := Int.lt_ediv_add_one_mul_self a (by omega)
  have h1' : ((a / (b:Int) : Int) : ℝ) * b ≤ a := by exact_mod_cast h1
  have h2' : (a:ℝ) < (((a / (b:Int) : Int) : ℝ) + 1) * b := by exact_mod_cast h2
  rw [abs_le]
  have h3 : (a : ℝ) / b * b = a := by field_simp
  constructor
  · have : (a : ℝ) / b < ((a / (b:Int) : Int) : ℝ) + 1 := by rw [div_lt_iff₀ hb']; exact h2'
    linarith
  · have : ((a / (b:Int) : Int) : ℝ) ≤ (a : ℝ) / b := by rw [le_div_iff₀ hb']; exact h1'
    linarith

theorem expFixed_close (p : Nat) (x : Int) (hx : |(x:ℝ)| ≤ 7 * 2 ^ p) (n m : Nat) (hm : 0 < m) :
    ‖pairVal (expFixed p x n m) - 2 ^ p * nest ((x : ℂ) / 2 ^ p * Complex.I) n m‖ ≤ nestBound 7 n m := by
  induction n generalizing m with
  | zero =>
    have : pairVal ((2:Int) ^ p, (0:Int)) = (2:ℂ) ^ p := by
      apply Complex.ext <;> simp [pairVal, ← Complex.ofReal_ofNat, ← Complex.ofReal_pow]
    simp [expFixed, nest, nestBound, this]
  | succ n ih =>
    have ih' := ih (m + 1) (by omega)
    set e := expFixed p x n (m + 1) with he
    have hm0 : (0:ℝ) < m := by exact_mod_cast hm
    have h2p : (0:ℝ) < 2 ^ p := by positivity
    have d1 := floorDiv_close (x * e.2) (m * 2 ^ p) (by positivity)
    have d2 := floorDiv_close (x * e.1) (m * 2 ^ p) (by positivity)
    set q1 : Int := x * e.2 / ((m * 2 ^ p : Nat) : Int)
    set q2 : Int := x * e.1 / ((m * 2 ^ p : Nat) : Int)
    have hstep : pairVal (expFixed p x (n + 1) m)
        = (2:ℂ) ^ p + (x : ℂ) / 2 ^ p * Complex.I / m * pairVal e
          + (⟨-((q1:ℝ) - ((x * e.2 : Int) : ℝ) / ((m * 2 ^ p : Nat) : ℝ)),
              (q2:ℝ) - ((x * e.1 : Int) : ℝ) / ((m * 2 ^ p : Nat) : ℝ)⟩ : ℂ) := by
      have hc : (x : ℂ) / 2 ^ p * Complex.I / m * pairVal e
          = (⟨-((x * e.2 : ℝ) / (m * 2 ^ p)), (x * e.1 : ℝ) / (m * 2 ^ p)⟩ : ℂ) := by
        obtain ⟨r, hr⟩ : ∃ r : ℝ, r = x / 2 ^ p / m := ⟨_, rfl⟩
        have h1 : (x : ℂ) / 2 ^ p * Complex.I / m = (r : ℂ) * Complex.I := by
          rw [hr]; push_cast; ring
        have h2 : (x * e.2 : ℝ) / (m * 2 ^ p) = r * e.2 := by rw [hr]; field_simp
        have h3 : (x * e.1 : ℝ) / (m * 2 ^ p) = r * e.1 := by rw [hr]; field_simp
        rw [h1, h2, h3]
        apply Complex.ext <;> simp [pairVal]
      rw [hc]
      have h2c : (2:ℂ) ^ p = (⟨2 ^ p, 0⟩ : ℂ) := by
        apply Complex.ext <;> simp [← Complex.ofReal_ofNat, ← Complex.ofReal_pow]
      have hu : expFixed p x (n + 1) m = (2 ^ p - q1, q2) := rfl
      rw [h2c, hu]
      apply Complex.ext
      · simp only [pairVal, Complex.add_re]; push_cast; ring
      · simp only [pairVal, Complex.add_im]; push_cast; ring
    have hdiff : pairVal (expFixed p x (n + 1) m) - 2 ^ p * nest ((x : ℂ) / 2 ^ p * Complex.I) (n + 1) m
        = (x : ℂ) / 2 ^ p * Complex.I / m * (pairVal e - 2 ^ p * nest ((x : ℂ) / 2 ^ p * Complex.I) n (m + 1))
          + (⟨-((q1:ℝ) - ((x * e.2 : Int) : ℝ) / ((m * 2 ^ p : Nat) : ℝ)),
              (q2:ℝ) - ((x * e.1 : Int) : ℝ) / ((m * 2 ^ p : Nat) : ℝ)⟩ : ℂ) := by
      rw [hstep, nest]; ring
    rw [hdiff, nestBound]
    refine (norm_add_le _ _).trans ?_
    rw [add_comm (2:ℝ)]
    refine add_le_add ?_ ?_
    · rw [norm_mul]
      refine mul_le_mul ?_ ih' (norm_nonneg _) (by positivity)
      rw [norm_div, norm_mul, norm_div, Complex.norm_I, mul_one, norm_pow, Complex.norm_ofNat, Complex.norm_intCast,
        Complex.norm_natCast]
      gcongr
      rw [div_le_iff₀ h2p]; exact hx
    · refine (Complex.norm_le_abs_re_add_abs_im _).trans ?_
      simp only [abs_neg]
      linarith

theorem seven_pow_le (k : Nat) : (7:ℝ) ^ (14 + k) / ((14 + k).factorial : ℝ) ≤ 8 * (1 / 2) ^ k := by
  induction k with
  | zero => norm_num [Nat.factorial]
  | succ k ih =>
    rw [← add_assoc, pow_succ, Nat.factorial_succ]
    have hf : (0:ℝ) < ((14 + k).factorial : ℝ) := by exact_mod_cast Nat.factorial_pos _
    have h1 : (7:ℝ) ^ (14 + k) * 7 / ((14 + k + 1) * (14 + k).factorial : ℕ)
        = (7:ℝ) ^ (14 + k) / ((14 + k).factorial : ℝ) * (7 / (14 + k + 1)) := by
      push_cast; field_simp
    rw [h1, pow_succ, ← mul_assoc]
    refine mul_le_mul ih ?_ (by positivity) (by positivity)
    rw [div_le_div_iff₀ (by positivity) (by norm_num)]
    have : (0:ℝ) ≤ k := by positivity
    linarith

theorem nest_exp_close (p : Nat) (z : ℂ) (hz : ‖z‖ ≤ 7) :
    2 ^ p * ‖Complex.exp z - nest z (p + 20) 1‖ ≤ 1 := by
  rw [nest_one]
  have hb := Complex.exp_bound' (x := z) (n := p + 20 + 1) (by
    rw [div_le_div_iff₀ (by positivity) (by norm_num)]
    have : (0:ℝ) ≤ p := by positivity
    push_cast
    linarith)
  have h1 : ‖z‖ ^ (p + 20 + 1) / ((p + 20 + 1).factorial : ℝ) * 2 ≤ 8 * (1 / 2) ^ (p + 7) * 2 := by
    have h2 := seven_pow_le (p + 7)
    rw [show 14 + (p + 7) = p + 20 + 1 by omega] at h2
    have h3 : ‖z‖ ^ (p + 20 + 1) ≤ 7 ^ (p + 20 + 1) := pow_le_pow_left₀ (norm_nonneg _) hz _
    have h4 : ‖z‖ ^ (p + 20 + 1) / ((p + 20 + 1).factorial : ℝ) ≤ 7 ^ (p + 20 + 1) / ((p + 20 + 1).factorial : ℝ) := by
      gcongr
    linarith
  have h5 : (2:ℝ) ^ p * (8 * (1 / 2) ^ (p + 7) * 2) ≤ 1 := by
    have h6 : (2:ℝ) ^ p * (1 / 2) ^ p = 1 := by rw [← mul_pow]; norm_num
    calc (2:ℝ) ^ p * (8 * (1 / 2) ^ (p + 7) * 2) = (2 ^ p * (1 / 2) ^ p) * (16 * (1 / 2) ^ 7) := by ring
      _ ≤ 1 := by rw [h6]; norm_num
  exact (mul_le_mul_of_nonneg_left (hb.trans h1) (by positivity)).trans h5

theorem wrapTurn_range (t : Rat) : 0 ≤ wrapTurn t ∧ wrapTurn t < 1 := by
  have : wrapTurn t = Int.fract t := by rw [wrapTurn, Int.fract]; rfl
  rw [this]; exact ⟨Int.fract_nonneg t, Int.fract_lt_one t⟩

theorem cisC_int (x : ℝ) (n : Int) : cisC (x + n) = cisC x := by
  rw [cisC, cisC]
  have : (2 * (π:ℂ) * ((x + n : ℝ) : ℂ) * Complex.I) = 2 * π * x * Complex.I + n * (2 * π * Complex.I) := by
    push_cast; ring
  rw [this, Complex.exp_add, Complex.exp_int_mul_two_pi_mul_I, mul_one]

theorem cisC_wrapTurn (t : Rat) : cisC (wrapTurn t) = cisC t := by
  have h : ((wrapTurn t : Rat) : ℝ) = (t : ℝ) + ((-t.floor : Int) : ℝ) := by
    rw [wrapTurn]; push_cast; ring
  rw [h, cisC_int]

theorem norm_exp_sub_exp_le (a b : ℝ) :
    ‖Complex.exp (a * Complex.I) - Complex.exp (b * Complex.I)‖ ≤ |a - b| := by
  have h : Complex.exp (a * Complex.I) - Complex.exp (b * Complex.I)
      = Complex.exp (b * Complex.I) * (Complex.exp (Complex.I * ((a - b : ℝ) : ℂ)) - 1) := by
    rw [mul_sub, ← Complex.exp_add, mul_one]
    congr 2
    push_cast; ring
  rw [h, norm_mul, Complex.norm_exp_ofReal_mul_I, one_mul]
  exact Real.norm_exp_I_mul_ofReal_sub_one_le

theorem linear_le_two_pow (p : Nat) (hp : 16 ≤ p) : 40 * ((p:ℝ) + 1) + 1 ≤ 2 ^ p / 2 := by
  have h : 80 * (p + 1) + 2 ≤ 2 ^ p := by
    induction p, hp using Nat.le_induction with
    | base => norm_num
    | succ n hn ih => rw [pow_succ]; omega
  have h' : ((80 * (p + 1) + 2 : ℕ) : ℝ) ≤ ((2 ^ p : ℕ) : ℝ) := by exact_mod_cast h
  push_cast at h'
  linarith

theorem cisFixed_close (p : Nat) (hp : 16 ≤ p) (t : Rat) :
    ‖pairVal (cisFixed p (piFixed p) t) - 2 ^ p * cisC t‖ ≤ cisError p := by
  obtain ⟨w0, w1⟩ := wrapTurn_range t
  rw [← cisC_wrapTurn, cisFixed]
  set w := wrapTurn t
  have hw : (w : ℝ) = (w.num : ℝ) / (w.den : ℝ) := by exact_mod_cast (Rat.cast_def w (K := ℝ))
  have w0' : (0:ℝ) ≤ w := by exact_mod_cast w0
  have w1' : (w:ℝ) < 1 := by exact_mod_cast w1
  have hpi := piFixed_close p
  have h2p : (0:ℝ) < 2 ^ p := by positivity
  set x : Int := 2 * piFixed p * w.num / w.den with hxdef
  have hx1 := floorDiv_close (2 * piFixed p * w.num) w.den w.den_pos
  have hx2 : (((2 * piFixed p * w.num : Int)) : ℝ) / (w.den : ℝ) = 2 * piFixed p * w := by
    rw [hw]; push_cast; ring
  rw [hx2] at hx1
  have hp0 : (0:ℝ) ≤ p := by positivity
  have hx3 : |(x:ℝ) - 2 ^ p * (2 * π * w)| ≤ 40 * (p + 1) + 1 := by
    have : (x:ℝ) - 2 ^ p * (2 * π * w) = ((x:ℝ) - 2 * piFixed p * w) + 2 * w * ((piFixed p : ℝ) - 2 ^ p * π) := by ring
    rw [this]
    refine (abs_add_le _ _).trans ?_
    rw [abs_mul, abs_of_nonneg (by positivity : (0:ℝ) ≤ 2 * w)]
    have : 2 * (w:ℝ) * |(piFixed p : ℝ) - 2 ^ p * π| ≤ 2 * (20 * (p + 1)) :=
      mul_le_mul (by linarith) hpi (abs_nonneg _) (by norm_num)
    linarith
  have hlin := linear_le_two_pow p hp
  have hx7 : |(x:ℝ)| ≤ 7 * 2 ^ p := by
    have h1 : |(x:ℝ)| ≤ |(x:ℝ) - 2 ^ p * (2 * π * w)| + |2 ^ p * (2 * π * w)| := by
      have := abs_add_le ((x:ℝ) - 2 ^ p * (2 * π * w)) (2 ^ p * (2 * π * w))
      simpa using this
    have h2 : |(2:ℝ) ^ p * (2 * π * w)| ≤ 2 ^ p * 6.3 := by
      rw [abs_of_nonneg (by have := Real.pi_pos; positivity)]
      refine mul_le_mul_of_nonneg_left ?_ h2p.le
      have := Real.pi_lt_d2
      nlinarith [Real.pi_pos]
    linarith
  have hy : ‖(x : ℂ) / 2 ^ p * Complex.I‖ ≤ 7 := by
    rw [norm_mul, norm_div, Complex.norm_I, mul_one, norm_pow, Complex.norm_ofNat, Complex.norm_intCast,
      div_le_iff₀ h2p]
    exact hx7
  have e1 := expFixed_close p x hx7 (p + 20) 1 one_pos
  have e2 := nest_exp_close p _ hy
  have e3 : (2:ℝ) ^ p * ‖Complex.exp ((x : ℂ) / 2 ^ p * Complex.I) - cisC w‖ ≤ 40 * (p + 1) + 1 := by
    have h1 := norm_exp_sub_exp_le ((x:ℝ) / 2 ^ p) (2 * π * w)
    have h2 : Complex.exp ((x : ℂ) / 2 ^ p * Complex.I) - cisC w
        = Complex.exp (((x:ℝ) / 2 ^ p : ℝ) * Complex.I) - Complex.exp ((2 * π * w : ℝ) * Complex.I) := by
      rw [cisC]; push_cast; rfl
    rw [h2]
    refine (mul_le_mul_of_nonneg_left h1 h2p.le).trans (le_trans (le_of_eq ?_) hx3)
    rw [← abs_of_pos h2p, ← abs_mul, abs_of_pos h2p]
    congr 1
    field_simp
  have hsplit : pairVal (expFixed p x (p + 20) 1) - 2 ^ p * cisC w
      = (pairVal (expFixed p x (p + 20) 1) - 2 ^ p * nest ((x : ℂ) / 2 ^ p * Complex.I) (p + 20) 1)
        - 2 ^ p * (Complex.exp ((x : ℂ) / 2 ^ p * Complex.I) - nest ((x : ℂ) / 2 ^ p * Complex.I) (p + 20) 1)
        + 2 ^ p * (Complex.exp ((x : ℂ) / 2 ^ p * Complex.I) - cisC w) := by ring
  have hn : ∀ v : ℂ, ‖(2:ℂ) ^ p * v‖ = 2 ^ p * ‖v‖ := by
    intro v; rw [norm_mul, norm_pow, Complex.norm_ofNat]
  change ‖pairVal (expFixed p x (p + 20) 1) - 2 ^ p * cisC w‖ ≤ _
  rw [hsplit]
  refine (norm_add_le _ _).trans ?_
  refine (add_le_add_left (norm_sub_le _ _) _).trans ?_
  rw [hn, hn, cisError]
  have := nestBound_seven (p + 20)
  push_cast
  linarith

end Sys2Proof.Machine
end

