-- ==== Sys2Proof/Laws/Gap.lean ====
section
/-! SUPPORT. The magnitudes of two integer combinations of roots of unity are equal or not close (`normSq_gap`): the
difference of their squares is an algebraic integer, so its norm is a non-zero integer, and all its conjugates are
bounded. A rational ratio of them has a bounded denominator (`ratio_den_le`). -/

namespace Sys2Proof.Machine
open Real

/-- The complex number of an integer combination of roots of unity -/
noncomputable def intVal (ts : List (Int × Rat)) : ℂ := (ts.map fun t => (t.1 : ℂ) * cisC t.2).sum

theorem norm_cisC (x : ℝ) : ‖cisC x‖ = 1 := by
  rw [cisC, show (2 * (π:ℂ) * x * Complex.I) = ((2 * π * x : ℝ) : ℂ) * Complex.I by push_cast; ring,
    Complex.norm_exp_ofReal_mul_I]

theorem norm_intVal_le (ts : List (Int × Rat)) : ‖intVal ts‖ ≤ coefSum ts := by
  induction ts with
  | nil => simp [intVal, coefSum]
  | cons t ts ih =>
    have h : intVal (t :: ts) = (t.1 : ℂ) * cisC t.2 + intVal ts := by simp [intVal]
    rw [h, coefSum]
    refine (norm_add_le _ _).trans ?_
    rw [norm_mul, norm_cisC, mul_one, Complex.norm_intCast]
    push_cast
    rw [Nat.cast_natAbs, Int.cast_abs]
    linarith

/-! ## Different magnitudes are not close -/

theorem turnDen_dvd (ts : List (Int × Rat)) (t : Int × Rat) (h : t ∈ ts) : t.2.den ∣ turnDen ts := by
  induction ts with
  | nil => simp at h
  | cons u us ih =>
    rw [turnDen]
    rcases List.mem_cons.mp h with rfl | h
    · exact Nat.dvd_lcm_left _ _
    · exact (ih h).trans (Nat.dvd_lcm_right _ _)

theorem turnDen_pos (ts : List (Int × Rat)) : 0 < turnDen ts := by
  induction ts with
  | nil => exact one_pos
  | cons u us ih => exact Nat.lcm_pos u.2.den_pos ih

/-- The power of an `n`-th root of unity that an angle stands for -/
def turnExp (n : Nat) (t : Rat) : Nat := (t.num * (n / t.den : Nat) % (n : Int)).toNat

/-- The combination in a field that holds an `n`-th root of unity -/
def rootVal {K : Type*} [Field K] (n : Nat) (z : K) (ts : List (Int × Rat)) : K :=
  (ts.map fun t => (t.1 : K) * z ^ turnExp n t.2).sum

theorem pow_turnExp (n : Nat) (hn : 0 < n) (t : Rat) (h : t.den ∣ n) :
    cisC (1 / n) ^ turnExp n t = cisC t := by
  have hn0 : (n:ℝ) ≠ 0 := by positivity
  obtain ⟨q, hq⟩ := h
  have hd : 0 < t.den := t.den_pos
  have hdiv : n / t.den = q := by rw [hq]; exact Nat.mul_div_cancel_left _ hd
  have ht : (t:ℝ) = (t.num * q : ℝ) / n := by
    have : (t : ℝ) = (t.num : ℝ) / (t.den : ℝ) := by exact_mod_cast (Rat.cast_def t (K := ℝ))
    rw [this, hq]
    have hq0 : (q:ℝ) ≠ 0 := by
      rintro h0; rw [hq] at hn0; push_cast at hn0; rw [h0] at hn0; simp at hn0
    push_cast
    field_simp
  have he : ((turnExp n t : Nat) : Int) = t.num * q - n * (t.num * q / n) := by
    rw [turnExp, hdiv, Int.toNat_of_nonneg (Int.emod_nonneg _ (by omega)), Int.emod_def]
  have he' : ((turnExp n t : Nat) : ℝ) = t.num * q - n * ((t.num * q / n : Int) : ℝ) := by exact_mod_cast he
  have hp : cisC (1 / n) ^ turnExp n t = cisC ((turnExp n t : ℝ) / n) := by
    rw [cisC, cisC, ← Complex.exp_nat_mul]
    congr 1
    push_cast; ring
  rw [hp, he', ht]
  have : ((t.num * q - n * ((t.num * q / n : Int) : ℝ)) / n : ℝ) = (t.num * q : ℝ) / n + ((-(t.num * q / n) : Int) : ℝ) := by
    push_cast; field_simp; ring
  rw [this]
  rw [cisC_int]

theorem rootVal_cisC (n : Nat) (hn : 0 < n) (ts : List (Int × Rat)) (h : ∀ t ∈ ts, t.2.den ∣ n) :
    rootVal n (cisC (1 / n)) ts = intVal ts := by
  rw [rootVal, intVal]
  congr 1
  refine List.map_congr_left fun t ht => ?_
  rw [pow_turnExp n hn t.2 (h t ht)]

theorem norm_rootVal_le (n : Nat) (z : ℂ) (hz : ‖z‖ = 1) (ts : List (Int × Rat)) :
    ‖rootVal n z ts‖ ≤ coefSum ts := by
  induction ts with
  | nil => simp [rootVal, coefSum]
  | cons t ts ih =>
    have h : rootVal n z (t :: ts) = (t.1 : ℂ) * z ^ turnExp n t.2 + rootVal n z ts := by simp [rootVal]
    rw [h, coefSum]
    refine (norm_add_le _ _).trans ?_
    rw [norm_mul, norm_pow, hz, one_pow, mul_one, Complex.norm_intCast]
    push_cast
    rw [Nat.cast_natAbs, Int.cast_abs]
    linarith

theorem map_rootVal {K L : Type*} [Field K] [Field L] (f : K →+* L) (n : Nat) (z : K) (ts : List (Int × Rat)) :
    f (rootVal n z ts) = rootVal n (f z) ts := by
  simp [rootVal, map_list_sum, List.map_map, Function.comp_def]

theorem isIntegral_rootVal {K : Type*} [Field K] (n : Nat) (z : K) (hz : IsIntegral ℤ z) (ts : List (Int × Rat)) :
    IsIntegral ℤ (rootVal n z ts) := by
  induction ts with
  | nil => simpa [rootVal] using isIntegral_zero
  | cons t ts ih =>
    have h : rootVal n z (t :: ts) = (t.1 : K) * z ^ turnExp n t.2 + rootVal n z ts := by simp [rootVal]
    rw [h]
    have h1 : IsIntegral ℤ ((t.1 : ℤ) : K) := by simpa using (isIntegral_algebraMap (R := ℤ) (A := K) (x := t.1))
    exact (h1.mul (hz.pow _)).add ih

theorem conj_rootVal (n : Nat) (z : ℂ) (hz : ‖z‖ = 1) (ts : List (Int × Rat)) :
    (starRingEnd ℂ) (rootVal n z ts) = rootVal n z⁻¹ ts := by
  rw [map_rootVal, Complex.inv_eq_conj hz]

/-- The norm of an algebraic integer that is not 0 is at least 1 in absolute value. -/
theorem one_le_prod_embeddings {K : Type} [Field K] [Algebra ℚ K] [FiniteDimensional ℚ K] {b : K} (hi : IsIntegral ℤ b)
    (h0 : b ≠ 0) : 1 ≤ ∏ σ : K →ₐ[ℚ] ℂ, ‖σ b‖ := by
  have hN0 : Algebra.norm ℚ b ≠ 0 := Algebra.norm_ne_zero_iff.mpr h0
  obtain ⟨z, hz⟩ := IsIntegrallyClosed.isIntegral_iff.mp (Algebra.isIntegral_norm ℚ hi)
  have hz0 : z ≠ 0 := by rintro rfl; rw [map_zero] at hz; exact hN0 hz.symm
  rw [← norm_prod, ← Algebra.norm_eq_prod_embeddings ℚ ℂ b, ← hz]
  have : (algebraMap ℚ ℂ) ((algebraMap ℤ ℚ) z) = (z : ℂ) := by simp
  rw [this, Complex.norm_intCast]
  exact_mod_cast Int.one_le_abs hz0

theorem norm_embedding_root {K : Type} [Field K] [Algebra ℚ K] {n : Nat} (hn : 0 < n) {ζ : K} (hζ : ζ ^ n = 1)
    (σ : K →ₐ[ℚ] ℂ) : ‖σ ζ‖ = 1 :=
  Complex.norm_eq_one_of_pow_eq_one (by rw [← map_pow, hζ, map_one]) hn.ne'

/-- The square of the magnitude of a combination, in the field. -/
def rootSq {K : Type*} [Field K] (n : Nat) (z : K) (ts : List (Int × Rat)) : K := rootVal n z ts * rootVal n z⁻¹ ts

theorem embedding_rootSq {K : Type} [Field K] [Algebra ℚ K] {n : Nat} (hn : 0 < n) {ζ : K} (hζ : ζ ^ n = 1)
    (σ : K →ₐ[ℚ] ℂ) (ts : List (Int × Rat)) : σ (rootSq n ζ ts) = ((‖rootVal n (σ ζ) ts‖ ^ 2 : ℝ) : ℂ) := by
  have h : ∀ w, σ (rootVal n w ts) = rootVal n (σ w) ts := fun w => map_rootVal (σ : K →+* ℂ) n w ts
  rw [rootSq, map_mul, h, h, map_inv₀, ← conj_rootVal n _ (norm_embedding_root hn hζ σ), Complex.mul_conj,
    Complex.normSq_eq_norm_sq]

theorem norm_embedding_rootSq_le {K : Type} [Field K] [Algebra ℚ K] {n : Nat} (hn : 0 < n) {ζ : K} (hζ : ζ ^ n = 1)
    (σ : K →ₐ[ℚ] ℂ) (ts : List (Int × Rat)) : ‖σ (rootSq n ζ ts)‖ ≤ (coefSum ts : ℝ) ^ 2 := by
  rw [embedding_rootSq hn hζ, Complex.norm_real, Real.norm_eq_abs, abs_of_nonneg (by positivity)]
  exact pow_le_pow_left₀ (norm_nonneg _) (norm_rootVal_le n (σ ζ) (norm_embedding_root hn hζ σ) ts) 2

theorem isIntegral_rootSq {K : Type} [Field K] {n : Nat} {ζ : K} (hζ : IsIntegral ℤ ζ) (hζ' : IsIntegral ℤ ζ⁻¹)
    (ts : List (Int × Rat)) : IsIntegral ℤ (rootSq n ζ ts) :=
  (isIntegral_rootVal n ζ hζ ts).mul (isIntegral_rootVal n _ hζ' ts)

/-- An embedding of the `n`-th cyclotomic field that takes its root of unity to `cis(1/n)`. -/
theorem exists_embedding_cisC (K : Type) [Field K] [Algebra ℚ K] {n : Nat} (hn : 0 < n)
    [IsCyclotomicExtension {n} ℚ K] {ζ : K} (hζ : IsPrimitiveRoot ζ n) : ∃ φ : K →ₐ[ℚ] ℂ, φ ζ = cisC (1 / n) := by
  have : NeZero n := ⟨hn.ne'⟩
  have hirr : Irreducible (Polynomial.cyclotomic n ℚ) := Polynomial.cyclotomic.irreducible_rat hn
  have hprim : IsPrimitiveRoot (cisC (1 / n)) n := by
    have := Complex.isPrimitiveRoot_exp n hn.ne'
    have h : cisC (1 / n) = Complex.exp (2 * π * Complex.I / n) := by rw [cisC]; congr 1; push_cast; ring
    rwa [h]
  have hmem : cisC (1 / n) ∈ primitiveRoots n ℂ := (mem_primitiveRoots hn).mpr hprim
  refine ⟨(hζ.embeddingsEquivPrimitiveRoots ℂ hirr).symm ⟨_, hmem⟩, ?_⟩
  have := IsPrimitiveRoot.embeddingsEquivPrimitiveRoots_apply_coe hζ ℂ hirr
    ((hζ.embeddingsEquivPrimitiveRoots ℂ hirr).symm ⟨_, hmem⟩)
  rw [Equiv.apply_symm_apply] at this
  exact this.symm

/-- The squares of the magnitudes of two integer combinations of `n`-th roots of unity are equal or not close: the
norm of their difference is a non-zero integer, and every conjugate of it is bounded. -/
theorem normSq_gap_field (K : Type) [Field K] [Algebra ℚ K] (xs ys : List (Int × Rat)) (n : Nat) (hn : 0 < n)
    [hcyc : IsCyclotomicExtension {n} ℚ K] (hx : ∀ t ∈ xs, t.2.den ∣ n) (hy : ∀ t ∈ ys, t.2.den ∣ n) :
    ‖intVal ys‖ ^ 2 - ‖intVal xs‖ ^ 2 = 0 ∨
      1 ≤ |‖intVal ys‖ ^ 2 - ‖intVal xs‖ ^ 2| * ((coefSum xs ^ 2 + coefSum ys ^ 2 : ℕ) : ℝ) ^ n := by
  have : NeZero n := ⟨hn.ne'⟩
  have : FiniteDimensional ℚ K := IsCyclotomicExtension.finiteDimensional {n} ℚ K
  set B : ℕ := coefSum xs ^ 2 + coefSum ys ^ 2 with hB
  let ζ : K := IsCyclotomicExtension.zeta n ℚ K
  have hζ : IsPrimitiveRoot ζ n := IsCyclotomicExtension.zeta_spec n ℚ K
  obtain ⟨φ, hφ⟩ := exists_embedding_cisC K hn hζ
  let b : K := rootSq n ζ ys - rootSq n ζ xs
  have hbi : IsIntegral ℤ b :=
    (isIntegral_rootSq (hζ.isIntegral hn) (hζ.inv.isIntegral hn) ys).sub
      (isIntegral_rootSq (hζ.isIntegral hn) (hζ.inv.isIntegral hn) xs)
  have hσB : ∀ σ : K →ₐ[ℚ] ℂ, ‖σ b‖ ≤ B := by
    intro σ
    rw [map_sub]
    refine (norm_sub_le _ _).trans ?_
    have h1 := norm_embedding_rootSq_le hn hζ.pow_eq_one σ xs
    have h2 := norm_embedding_rootSq_le hn hζ.pow_eq_one σ ys
    rw [hB]; push_cast; linarith
  have hφb : φ b = ((‖intVal ys‖ ^ 2 - ‖intVal xs‖ ^ 2 : ℝ) : ℂ) := by
    rw [map_sub, embedding_rootSq hn hζ.pow_eq_one, embedding_rootSq hn hζ.pow_eq_one, hφ, rootVal_cisC n hn xs hx,
      rootVal_cisC n hn ys hy]
    push_cast; rfl
  by_cases hb0 : b = 0
  · left
    rw [hb0, map_zero] at hφb
    exact_mod_cast hφb.symm
  · right
    have h1 := one_le_prod_embeddings hbi hb0
    have hB1 : (1:ℝ) ≤ B := by
      rcases Nat.eq_zero_or_pos B with h | h
      · exfalso
        have := hσB φ
        rw [h] at this
        exact hb0 ((map_eq_zero φ).mp (by simpa using this))
      · exact_mod_cast h
    classical
    rw [← Finset.mul_prod_erase Finset.univ _ (Finset.mem_univ φ), hφb, Complex.norm_real, Real.norm_eq_abs] at h1
    refine h1.trans (mul_le_mul_of_nonneg_left ?_ (abs_nonneg _))
    calc ∏ σ ∈ Finset.univ.erase φ, ‖σ b‖ ≤ ∏ σ ∈ Finset.univ.erase φ, (B:ℝ) :=
          Finset.prod_le_prod (fun _ _ => norm_nonneg _) fun σ _ => hσB σ
      _ = (B:ℝ) ^ (Finset.univ.erase φ).card := Finset.prod_const _
      _ ≤ (B:ℝ) ^ n := by
          refine pow_le_pow_right₀ hB1 ((Finset.card_erase_le).trans ?_)
          have := AlgHom.card ℚ K ℂ
          rw [Finset.card_univ, ← Nat.card_eq_fintype_card, Nat.card_eq_fintype_card, this,
            IsCyclotomicExtension.finrank K (Polynomial.cyclotomic.irreducible_rat hn)]
          exact Nat.totient_le n

theorem normSq_gap (xs ys : List (Int × Rat)) (n : Nat) (hn : 0 < n)
    (hx : ∀ t ∈ xs, t.2.den ∣ n) (hy : ∀ t ∈ ys, t.2.den ∣ n) :
    ‖intVal ys‖ ^ 2 - ‖intVal xs‖ ^ 2 = 0 ∨
      1 ≤ |‖intVal ys‖ ^ 2 - ‖intVal xs‖ ^ 2| * ((coefSum xs ^ 2 + coefSum ys ^ 2 : ℕ) : ℝ) ^ n := by
  have : NeZero n := ⟨hn.ne'⟩
  have : NeZero ((n : ℕ) : ℚ) := ⟨by exact_mod_cast hn.ne'⟩
  exact @normSq_gap_field (CyclotomicField n ℚ) _ (CyclotomicField.algebra n ℚ) xs ys n hn
    (CyclotomicField.isCyclotomicExtension n ℚ) hx hy

/-! ## A rational ratio has a bounded denominator -/

/-- Where the magnitudes of two integer combinations have a rational ratio `p/q`, `q` is at most the sum of the factors of the
second: `q²` divides the square of its magnitude among the algebraic integers. -/
theorem ratio_den_le_field (K : Type) [Field K] [Algebra ℚ K] (xs ys : List (Int × Rat)) (n : Nat) (hn : 0 < n)
    [hcyc : IsCyclotomicExtension {n} ℚ K] (hx : ∀ t ∈ xs, t.2.den ∣ n) (hy : ∀ t ∈ ys, t.2.den ∣ n) (p q : ℕ)
    (hpq : Nat.Coprime p q) (hq : 0 < q) (h0 : intVal ys ≠ 0) (h : q * ‖intVal xs‖ = p * ‖intVal ys‖) :
    q ≤ coefSum ys := by
  have : NeZero n := ⟨hn.ne'⟩
  have : FiniteDimensional ℚ K := IsCyclotomicExtension.finiteDimensional {n} ℚ K
  let ζ : K := IsCyclotomicExtension.zeta n ℚ K
  have hζ : IsPrimitiveRoot ζ n := IsCyclotomicExtension.zeta_spec n ℚ K
  obtain ⟨φ, hφ⟩ := exists_embedding_cisC K hn hζ
  have sq : ∀ ts : List (Int × Rat), (∀ t ∈ ts, t.2.den ∣ n) → φ (rootSq n ζ ts) = ((‖intVal ts‖ ^ 2 : ℝ) : ℂ) := by
    intro ts hts
    rw [embedding_rootSq hn hζ.pow_eq_one, hφ, rootVal_cisC n hn ts hts]
  set β := rootSq n ζ ys
  set α := rootSq n ζ xs
  have hβ0 : β ≠ 0 := by
    intro hb
    have := sq ys hy
    rw [show rootSq n ζ ys = 0 from hb, map_zero] at this
    exact h0 (norm_eq_zero.mp (by simpa using (show ‖intVal ys‖ ^ 2 = 0 by exact_mod_cast this.symm)))
  have hrel : (q : K) ^ 2 * α = (p : K) ^ 2 * β := by
    apply φ.toRingHom.injective
    show φ _ = φ _
    rw [map_mul, map_mul, map_pow, map_pow, map_natCast, map_natCast, sq xs hx, sq ys hy]
    have : (q * ‖intVal xs‖) ^ 2 = (p * ‖intVal ys‖) ^ 2 := by rw [h]
    rw [mul_pow, mul_pow] at this
    exact_mod_cast this
  obtain ⟨u, v, huv⟩ : ∃ u v : ℤ, u * p ^ 2 + v * q ^ 2 = 1 := by
    have : IsCoprime ((p : ℤ) ^ 2) ((q : ℤ) ^ 2) := (Nat.isCoprime_iff_coprime.mpr hpq).pow
    exact this
  set γ : K := u * α + v * β with hγ
  have hqγ : (q : K) ^ 2 * γ = β := by
    have : (u : K) * p ^ 2 + v * q ^ 2 = 1 := by exact_mod_cast congrArg (Int.cast (R := K)) huv
    calc (q : K) ^ 2 * γ = u * ((q : K) ^ 2 * α) + v * q ^ 2 * β := by rw [hγ]; ring
      _ = (u * p ^ 2 + v * q ^ 2) * β := by rw [hrel]; ring
      _ = β := by rw [this, one_mul]
  have hint : IsIntegral ℤ γ := by
    have hz : ∀ z : ℤ, IsIntegral ℤ (z : K) := fun z => by
      simpa using (isIntegral_algebraMap (R := ℤ) (A := K) (x := z))
    have hi := hζ.isIntegral hn
    have hi' := hζ.inv.isIntegral hn
    exact ((hz u).mul (isIntegral_rootSq hi hi' xs)).add ((hz v).mul (isIntegral_rootSq hi hi' ys))
  have hγ0 : γ ≠ 0 := by rintro h0; rw [h0, mul_zero] at hqγ; exact hβ0 hqγ.symm
  by_contra hlt
  have hq' : (0:ℝ) < q := by exact_mod_cast hq
  have hσ : ∀ σ : K →ₐ[ℚ] ℂ, ‖σ γ‖ < 1 := by
    intro σ
    have h1 := norm_embedding_rootSq_le hn hζ.pow_eq_one σ ys
    have h2 : σ β = (q : ℂ) ^ 2 * σ γ := by rw [← hqγ, map_mul, map_pow, map_natCast]
    rw [show rootSq n ζ ys = β from rfl, h2, norm_mul, norm_pow, Complex.norm_natCast] at h1
    have h3 : (coefSum ys : ℝ) < q := by exact_mod_cast not_le.mp hlt
    have h4 : (coefSum ys : ℝ) ^ 2 < (q : ℝ) ^ 2 := pow_lt_pow_left₀ h3 (Nat.cast_nonneg _) two_ne_zero
    by_contra hc
    have : (q : ℝ) ^ 2 * 1 ≤ (q : ℝ) ^ 2 * ‖σ γ‖ := mul_le_mul_of_nonneg_left (not_lt.mp hc) (by positivity)
    linarith
  have h1 := one_le_prod_embeddings hint hγ0
  have h2 : ∏ σ : K →ₐ[ℚ] ℂ, ‖σ γ‖ < 1 := by
    classical
    rw [← Finset.mul_prod_erase Finset.univ _ (Finset.mem_univ φ)]
    calc ‖φ γ‖ * ∏ σ ∈ Finset.univ.erase φ, ‖σ γ‖ ≤ ‖φ γ‖ * 1 :=
          mul_le_mul_of_nonneg_left (Finset.prod_le_one (fun _ _ => norm_nonneg _) fun σ _ => (hσ σ).le) (norm_nonneg _)
      _ < 1 := by rw [mul_one]; exact hσ φ
  linarith

theorem ratio_den_le (xs ys : List (Int × Rat)) (p q : ℕ) (hpq : Nat.Coprime p q) (hq : 0 < q) (h0 : intVal ys ≠ 0)
    (h : q * ‖intVal xs‖ = p * ‖intVal ys‖) : q ≤ coefSum ys := by
  set n := Nat.lcm (turnDen xs) (turnDen ys)
  have hn : 0 < n := Nat.lcm_pos (turnDen_pos xs) (turnDen_pos ys)
  have : NeZero n := ⟨hn.ne'⟩
  have : NeZero ((n : ℕ) : ℚ) := ⟨by exact_mod_cast hn.ne'⟩
  exact @ratio_den_le_field (CyclotomicField n ℚ) _ (CyclotomicField.algebra n ℚ) xs ys n hn
    (CyclotomicField.isCyclotomicExtension n ℚ) (fun t ht => (turnDen_dvd xs t ht).trans (Nat.dvd_lcm_left _ _))
    (fun t ht => (turnDen_dvd ys t ht).trans (Nat.dvd_lcm_right _ _)) p q hpq hq h0 h
end Sys2Proof.Machine
end

