-- ==== Sys2Proof/Laws/Exact.lean ====
section
/-! SUPPORT. The comparison of exact numbers is the one of the real numbers, for every two of them:
`cmpAbs_eq_compare`, `realLt_iff` (`00_scope.md` R11: "Real numbers are exact reals"). -/

namespace Sys2Proof.Machine
open Real

theorem pairVal_sumFixed_cons (p : Nat) (pi : Int) (t : Int × Rat) (ts : List (Int × Rat)) :
    pairVal (sumFixed p pi (t :: ts)) = t.1 * pairVal (cisFixed p pi t.2) + pairVal (sumFixed p pi ts) := by
  apply Complex.ext <;> simp [sumFixed, pairVal]

theorem sumFixed_close (p : Nat) (hp : 16 ≤ p) (ts : List (Int × Rat)) :
    ‖pairVal (sumFixed p (piFixed p) ts) - 2 ^ p * intVal ts‖ ≤ coefSum ts * cisError p := by
  induction ts with
  | nil =>
    have : pairVal ((0:Int), (0:Int)) = 0 := by apply Complex.ext <;> simp [pairVal]
    simp [sumFixed, intVal, coefSum, this]
  | cons t ts ih =>
    have h : intVal (t :: ts) = (t.1 : ℂ) * cisC t.2 + intVal ts := by simp [intVal]
    have h2 : pairVal (sumFixed p (piFixed p) (t :: ts)) - 2 ^ p * intVal (t :: ts)
        = t.1 * (pairVal (cisFixed p (piFixed p) t.2) - 2 ^ p * cisC t.2)
          + (pairVal (sumFixed p (piFixed p) ts) - 2 ^ p * intVal ts) := by
      rw [pairVal_sumFixed_cons, h]; ring
    rw [h2, coefSum]
    refine (norm_add_le _ _).trans ?_
    rw [norm_mul, Complex.norm_intCast]
    push_cast
    rw [Nat.cast_natAbs, Int.cast_abs, add_mul]
    exact add_le_add (mul_le_mul_of_nonneg_left (cisFixed_close p hp t.2) (abs_nonneg _)) ih

/-- The square of the magnitude of a fixed-point sum. -/
theorem sumFixed_normSq_close (p : Nat) (hp : 16 ≤ p) (ts : List (Int × Rat)) :
    |((sumFixed p (piFixed p) ts).1 * (sumFixed p (piFixed p) ts).1
        + (sumFixed p (piFixed p) ts).2 * (sumFixed p (piFixed p) ts).2 : ℝ) - (2 ^ p) ^ 2 * ‖intVal ts‖ ^ 2|
      ≤ (coefSum ts : ℝ) ^ 2 * (cisError p * (2 ^ (p + 1) + cisError p)) := by
  set e := sumFixed p (piFixed p) ts with he
  have h := sumFixed_close p hp ts
  rw [← he] at h
  have hsq : (e.1 * e.1 + e.2 * e.2 : ℝ) = ‖pairVal e‖ ^ 2 := by
    rw [← Complex.normSq_eq_norm_sq, Complex.normSq_apply]; rfl
  have hn : ‖(2:ℂ) ^ p * intVal ts‖ = 2 ^ p * ‖intVal ts‖ := by rw [norm_mul, norm_pow, Complex.norm_ofNat]
  have hS := norm_intVal_le ts
  set S : ℝ := (coefSum ts : ℝ)
  set E : ℝ := (cisError p : ℝ)
  have hE : (0:ℝ) ≤ E := by positivity
  have hS0 : (0:ℝ) ≤ S := by positivity
  have h2p : (0:ℝ) < 2 ^ p := by positivity
  have hd : |‖pairVal e‖ - 2 ^ p * ‖intVal ts‖| ≤ S * E := by
    rw [← hn]; exact (abs_norm_sub_norm_le _ _).trans h
  set u := ‖pairVal e‖
  set v := 2 ^ p * ‖intVal ts‖ with hv
  have hv0 : 0 ≤ v := by positivity
  have hv1 : v ≤ 2 ^ p * S := by rw [hv]; exact mul_le_mul_of_nonneg_left hS h2p.le
  have hu : u ≤ v + S * E := by have := (abs_le.mp hd).2; linarith
  have hu0 : 0 ≤ u := norm_nonneg _
  rw [hsq, show (2 ^ p) ^ 2 * ‖intVal ts‖ ^ 2 = v ^ 2 by rw [hv]; ring, show u ^ 2 - v ^ 2 = (u - v) * (u + v) by ring,
    abs_mul, abs_of_nonneg (by linarith : 0 ≤ u + v)]
  calc |u - v| * (u + v) ≤ (S * E) * (2 ^ (p + 1) * S + S * E) := by
        refine mul_le_mul hd ?_ (by linarith) (by positivity)
        rw [pow_succ]; linarith
    _ = S ^ 2 * (E * (2 ^ (p + 1) + E)) := by ring

/-- What one comparison at precision `p` says: a difference shown is a difference, and magnitudes it does not tell
apart are close. -/
theorem cmpAt_spec (p : Nat) (hp : 16 ≤ p) (xs ys : List (Int × Rat)) :
    (cmpAt p xs ys = some .lt ∧ ‖intVal xs‖ < ‖intVal ys‖) ∨
    (cmpAt p xs ys = some .gt ∧ ‖intVal ys‖ < ‖intVal xs‖) ∨
    (cmpAt p xs ys = none ∧ (2 ^ p) ^ 2 * |‖intVal ys‖ ^ 2 - ‖intVal xs‖ ^ 2|
      ≤ 2 * (((coefSum xs ^ 2 + coefSum ys ^ 2 : ℕ) : ℝ) * (cisError p * (2 ^ (p + 1) + cisError p)))) := by
  have hx := sumFixed_normSq_close p hp xs
  have hy := sumFixed_normSq_close p hp ys
  rw [cmpAt]
  set x := sumFixed p (piFixed p) xs
  set y := sumFixed p (piFixed p) ys
  set err : Nat := (coefSum xs ^ 2 + coefSum ys ^ 2) * (cisError p * (2 ^ (p + 1) + cisError p)) with herr
  set diff : Int := y.1 * y.1 + y.2 * y.2 - (x.1 * x.1 + x.2 * x.2) with hdiff
  have hE : (err : ℝ) = (coefSum xs : ℝ) ^ 2 * (cisError p * (2 ^ (p + 1) + cisError p))
      + (coefSum ys : ℝ) ^ 2 * (cisError p * (2 ^ (p + 1) + cisError p)) := by rw [herr]; push_cast; ring
  have hE' : (err : ℝ) = ((coefSum xs ^ 2 + coefSum ys ^ 2 : ℕ) : ℝ) * (cisError p * (2 ^ (p + 1) + cisError p)) := by
    rw [herr]; push_cast; ring
  have hD : (diff : ℝ) = (y.1 * y.1 + y.2 * y.2 : ℝ) - (x.1 * x.1 + x.2 * x.2 : ℝ) := by rw [hdiff]; push_cast; ring
  have hc : |(diff : ℝ) - (2 ^ p) ^ 2 * (‖intVal ys‖ ^ 2 - ‖intVal xs‖ ^ 2)| ≤ (err : ℝ) := by
    rw [hD, hE, abs_le]
    rw [abs_le] at hx hy
    constructor <;> linarith [hx.1, hx.2, hy.1, hy.2]
  have h2p : (0:ℝ) < (2 ^ p) ^ 2 := by positivity
  have hlt : ∀ a b : ℂ, 0 < (2 ^ p) ^ 2 * (‖b‖ ^ 2 - ‖a‖ ^ 2) → ‖a‖ < ‖b‖ := by
    intro a b h
    have := (pos_iff_pos_of_mul_pos h).mp h2p
    exact lt_of_pow_lt_pow_left₀ 2 (norm_nonneg _) (by linarith)
  rw [abs_le] at hc
  by_cases h1 : (err : Int) < diff
  · left
    refine ⟨if_pos h1, hlt _ _ ?_⟩
    have : ((err : Int) : ℝ) < diff := by exact_mod_cast h1
    push_cast at this
    linarith [hc.2]
  · right
    rw [if_neg h1]
    by_cases h2 : diff < -(err : Int)
    · left
      refine ⟨if_pos h2, hlt _ _ ?_⟩
      have : (diff : ℝ) < ((-(err : Int) : Int) : ℝ) := by exact_mod_cast h2
      push_cast at this
      have h3 : (2 ^ p) ^ 2 * (‖intVal xs‖ ^ 2 - ‖intVal ys‖ ^ 2) = -((2 ^ p) ^ 2 * (‖intVal ys‖ ^ 2 - ‖intVal xs‖ ^ 2)) := by ring
      rw [h3]
      linarith [hc.1]
    · right
      refine ⟨if_neg h2, ?_⟩
      have h3 : (diff : ℝ) ≤ ((err : Int) : ℝ) := by exact_mod_cast not_lt.mp h1
      have h4 : ((-(err : Int) : Int) : ℝ) ≤ diff := by exact_mod_cast not_lt.mp h2
      push_cast at h3 h4
      rw [← hE', ← abs_of_pos h2p, ← abs_mul, abs_le]
      constructor <;> linarith [hc.1, hc.2]

theorem finalPrecision_enough (k : Nat) :
    cisError (k + k.log2 + 20) * 2 ^ (k + 3) ≤ 2 ^ (k + k.log2 + 20) := by
  have h1 : k < 2 ^ (k.log2 + 1) := Nat.lt_log2_self
  have h2 : k.log2 < 2 ^ k.log2 := Nat.lt_two_pow_self
  have h3 : 1 ≤ 2 ^ k.log2 := Nat.one_le_two_pow
  rw [pow_succ] at h1
  have h4 : cisError (k + k.log2 + 20) ≤ 2 ^ (k.log2 + 17) := by
    rw [cisError, pow_add]
    norm_num
    omega
  calc cisError (k + k.log2 + 20) * 2 ^ (k + 3) ≤ 2 ^ (k.log2 + 17) * 2 ^ (k + 3) := Nat.mul_le_mul_right _ h4
    _ = 2 ^ (k + k.log2 + 20) := by rw [← pow_add]; congr 1; omega

/-- A difference that is within the error bound at a precision `P` this fine and is not small is none. -/
theorem gap_contradiction (P k n B E : ℕ) (β : ℝ) (hBk : B ^ (n + 1) < 2 ^ k) (hE0 : 0 < E)
    (he : E * 2 ^ (k + 3) ≤ 2 ^ P) (h0 : 1 ≤ β * (B:ℝ) ^ n)
    (h1 : (2 ^ P) ^ 2 * β ≤ 2 * ((B:ℝ) * (E * (2 ^ (P + 1) + E)))) : False := by
  have hEP : E ≤ 2 ^ (P + 1) := by
    have : E * 1 ≤ E * 2 ^ (k + 3) := Nat.mul_le_mul_left _ Nat.one_le_two_pow
    rw [pow_succ]; omega
  have hcalc : 2 * (B ^ (n + 1) * (E * (2 ^ (P + 1) + E))) < 2 ^ P * 2 ^ P := by
    calc 2 * (B ^ (n + 1) * (E * (2 ^ (P + 1) + E)))
        < 2 * (2 ^ k * (E * (2 ^ (P + 1) + E))) := by
          have : 0 < E * (2 ^ (P + 1) + E) := by positivity
          exact Nat.mul_lt_mul_of_pos_left (Nat.mul_lt_mul_of_pos_right hBk this) (by norm_num)
      _ ≤ 2 * (2 ^ k * (E * (2 ^ (P + 1) + 2 ^ (P + 1)))) := by gcongr
      _ = (E * 2 ^ (k + 3)) * 2 ^ P := by rw [pow_succ, pow_add]; ring
      _ ≤ 2 ^ P * 2 ^ P := Nat.mul_le_mul_right _ he
  have hcalc' : 2 * ((B:ℝ) ^ (n + 1) * (E * (2 ^ (P + 1) + E))) < 2 ^ P * 2 ^ P := by
    have : ((2 * (B ^ (n + 1) * (E * (2 ^ (P + 1) + E))) : ℕ) : ℝ) < ((2 ^ P * 2 ^ P : ℕ) : ℝ) := by
      exact_mod_cast hcalc
    push_cast at this
    exact this
  have h3 := mul_le_mul_of_nonneg_right h1 (by positivity : (0:ℝ) ≤ (B:ℝ) ^ n)
  have h4 := mul_le_mul_of_nonneg_left h0 (by positivity : (0:ℝ) ≤ (2 ^ P) ^ 2)
  have h5 : 2 * ((B:ℝ) * (E * (2 ^ (P + 1) + E))) * (B:ℝ) ^ n
      = 2 * ((B:ℝ) ^ (n + 1) * (E * (2 ^ (P + 1) + E))) := by ring
  have h6 : ((2:ℝ) ^ P) ^ 2 * β * (B:ℝ) ^ n = (2 ^ P) ^ 2 * (β * (B:ℝ) ^ n) := by ring
  have h7 : ((2:ℝ) ^ P) ^ 2 = 2 ^ P * 2 ^ P := by ring
  linarith

/-- At the final precision magnitudes that are not told apart are equal. -/
theorem cmpAt_final (xs ys : List (Int × Rat)) (h : cmpAt (finalPrecision xs ys) xs ys = none) :
    ‖intVal xs‖ = ‖intVal ys‖ := by
  obtain ⟨k, hk, hP⟩ : ∃ k, k = (Nat.lcm (turnDen xs) (turnDen ys) + 1) * ((coefSum xs ^ 2 + coefSum ys ^ 2).log2 + 1)
    ∧ finalPrecision xs ys = k + k.log2 + 20 := ⟨_, rfl, rfl⟩
  rw [hP] at h
  have hn0 : 0 < Nat.lcm (turnDen xs) (turnDen ys) := Nat.lcm_pos (turnDen_pos xs) (turnDen_pos ys)
  have hsq : ‖intVal ys‖ ^ 2 - ‖intVal xs‖ ^ 2 = 0 := by
    rcases normSq_gap xs ys _ hn0 (fun t ht => (turnDen_dvd xs t ht).trans (Nat.dvd_lcm_left _ _))
      (fun t ht => (turnDen_dvd ys t ht).trans (Nat.dvd_lcm_right _ _)) with h0 | h0
    · exact h0
    · exfalso
      rcases cmpAt_spec (k + k.log2 + 20) (by omega) xs ys with ⟨h1, -⟩ | ⟨h1, -⟩ | ⟨-, h1⟩
      · rw [h] at h1; cases h1
      · rw [h] at h1; cases h1
      refine gap_contradiction _ k _ _ _ _ ?_ ?_ (finalPrecision_enough k) h0 h1
      · rw [hk, mul_comm, pow_mul]
        exact Nat.pow_lt_pow_left Nat.lt_log2_self (by omega)
      · rw [cisError]; omega
  have : ‖intVal xs‖ ^ 2 = ‖intVal ys‖ ^ 2 := by linarith
  exact (pow_left_inj₀ (norm_nonneg _) (norm_nonneg _) two_ne_zero).mp this

theorem compare_of_lt {a b : ℝ} (h : a < b) : compare a b = .lt := compare_lt_iff_lt.mpr h
theorem compare_of_gt {a b : ℝ} (h : b < a) : compare a b = .gt := compare_gt_iff_gt.mpr h

theorem cmpInt_eq_compare (xs ys : List (Int × Rat)) : cmpInt xs ys = compare ‖intVal xs‖ ‖intVal ys‖ := by
  have hfp : 16 ≤ finalPrecision xs ys := by
    exact (Nat.le_add_left 16 4).trans (Nat.le_add_left 20 _)
  have hmp : 16 ≤ middlePrecision xs ys := (show 16 ≤ 64 by decide).trans (Nat.le_add_right 64 _)
  rw [cmpInt]
  rcases cmpAt_spec 64 (by norm_num) xs ys with ⟨h1, h2⟩ | ⟨h1, h2⟩ | ⟨h1, -⟩
  · rw [h1, compare_of_lt h2]
  · rw [h1, compare_of_gt h2]
  · rw [h1]
    rcases cmpAt_spec _ hmp xs ys with ⟨h1, h2⟩ | ⟨h1, h2⟩ | ⟨h1, -⟩
    · simp only [h1, compare_of_lt h2]
    · simp only [h1, compare_of_gt h2]
    · simp only [h1]
      rcases cmpAt_spec _ hfp xs ys with ⟨h1, h2⟩ | ⟨h1, h2⟩ | ⟨h1, -⟩
      · simp only [h1, compare_of_lt h2]
      · simp only [h1, compare_of_gt h2]
      · simp only [h1]
        rw [cmpAt_final xs ys h1]
        exact (compare_eq_iff_eq.mpr rfl).symm

/-! ### Joining terms keeps the value -/

theorem termsVal_cons (t : Term) (ts : List Term) : termsVal (t :: ts) = t.coef * cisC t.turn + termsVal ts := by
  simp [termsVal]

theorem termsVal_collectTerm (t : Term) (ts : List Term) :
    termsVal (collectTerm t ts) = t.coef * cisC t.turn + termsVal ts := by
  induction ts with
  | nil => rw [collectTerm, termsVal_cons]
  | cons u us ih =>
    rw [collectTerm]
    split
    · next h => rw [termsVal_cons, termsVal_cons]; dsimp only; rw [← h]; push_cast; ring
    · rw [termsVal_cons, termsVal_cons, ih]; ring

theorem termsVal_filter (ts : List Term) : termsVal (ts.filter fun u => u.coef ≠ 0) = termsVal ts := by
  induction ts with
  | nil => rfl
  | cons u us ih =>
    rw [List.filter_cons]
    split
    · rw [termsVal_cons, termsVal_cons, ih]
    · next h =>
      have h0 : u.coef = 0 := by simpa using h
      rw [termsVal_cons, ih, h0]; simp

theorem termsVal_collect (ts : List Term) : termsVal (collect ts) = termsVal ts := by
  induction ts with
  | nil => rfl
  | cons t ts ih =>
    rw [collect, termsVal_filter, termsVal_collectTerm, ih, termsVal_cons]
    dsimp only
    rw [cisC_wrapTurn]

theorem coefDen_dvd (ts : List Term) (t : Term) (h : t ∈ ts) : t.coef.den ∣ coefDen ts := by
  induction ts with
  | nil => simp at h
  | cons u us ih =>
    rw [coefDen]
    rcases List.mem_cons.mp h with rfl | h
    · exact Nat.dvd_lcm_left _ _
    · exact (ih h).trans (Nat.dvd_lcm_right _ _)

theorem coefDen_pos (ts : List Term) : 0 < coefDen ts := by
  induction ts with
  | nil => exact one_pos
  | cons u us ih => exact Nat.lcm_pos u.coef.den_pos ih

theorem num_mul_den (q : Rat) (d : Nat) (h : q.den ∣ d) : ((q * (d : Rat)).num : Rat) = q * d := by
  obtain ⟨e, rfl⟩ := h
  have h1 : q * ((q.den * e : Nat) : Rat) = ((q.num * e : Int) : Rat) := by
    push_cast
    rw [← mul_assoc, Rat.mul_den_eq_num]
  rw [h1, Rat.num_intCast]

theorem intVal_intTerms (d : Nat) (ts : List Term) (h : ∀ t ∈ ts, t.coef.den ∣ d) :
    intVal (intTerms d ts) = d * termsVal ts := by
  induction ts with
  | nil => simp [intTerms, intVal, termsVal]
  | cons t ts ih =>
    have h1 : intVal (intTerms d (t :: ts)) = (((t.coef * (d : Rat)).num : Int) : ℂ) * cisC t.turn + intVal (intTerms d ts) := by
      simp [intVal, intTerms]
    have h2 : (((t.coef * (d : Rat)).num : Int) : ℂ) = (t.coef : ℂ) * d := by
      have := num_mul_den t.coef d (h t (List.mem_cons_self ..))
      have h3 : ((((t.coef * (d : Rat)).num : Int) : Rat) : ℂ) = ((t.coef * d : Rat) : ℂ) := by rw [this]
      push_cast at h3
      exact h3
    rw [h1, h2, ih fun u hu => h u (List.mem_cons_of_mem _ hu), termsVal_cons]
    ring

/-- The magnitude of a sum of at most one term. -/
theorem norm_termsVal_of_shortAbs {ts : List Term} {a : Rat} (h : shortAbs ts = some a) : ‖termsVal ts‖ = (a : ℝ) := by
  match ts, h with
  | [], h =>
    cases h
    simp [termsVal]
  | [t], h =>
    rw [shortAbs] at h
    injection h with h
    rw [termsVal_cons, show termsVal [] = 0 from rfl, add_zero, norm_mul, norm_cisC, mul_one, ← h, Complex.norm_ratCast]
    split
    · next hn =>
      have : (t.coef : ℝ) < 0 := by exact_mod_cast hn
      rw [abs_of_neg this]; push_cast; rfl
    · next hn =>
      have : (0 : ℝ) ≤ t.coef := by exact_mod_cast not_lt.mp hn
      rw [abs_of_nonneg this]
  | _ :: _ :: _, h => cases h

theorem cmpRat_eq_compare (a b : Rat) : cmpRat a b = compare (a : ℝ) (b : ℝ) := by
  rw [cmpRat]
  rcases lt_trichotomy a b with h | h | h
  · rw [if_pos h, compare_of_lt (by exact_mod_cast h)]
  · rw [h, if_neg (lt_irrefl _), if_neg (lt_irrefl _), compare_eq_iff_eq.mpr rfl]
  · rw [if_neg (not_lt.mpr h.le), if_pos h, compare_of_gt (by exact_mod_cast h)]

/-- The comparison of integer combinations, with a common denominator of the factors, is the one of the magnitudes. -/
theorem cmpInt_intTerms (xs ys : List Term) :
    cmpInt (intTerms (coefDen xs * coefDen ys) xs) (intTerms (coefDen xs * coefDen ys) ys)
      = compare ‖termsVal xs‖ ‖termsVal ys‖ := by
  rw [cmpInt_eq_compare, intVal_intTerms _ _ fun t ht => (coefDen_dvd xs t ht).trans (dvd_mul_right _ _),
    intVal_intTerms _ _ fun t ht => (coefDen_dvd ys t ht).trans (dvd_mul_left _ _)]
  have hd : (0:ℝ) < ((coefDen xs * coefDen ys : ℕ) : ℝ) := by
    exact_mod_cast Nat.mul_pos (coefDen_pos xs) (coefDen_pos ys)
  rw [norm_mul, norm_mul, Complex.norm_natCast]
  rcases lt_trichotomy ‖termsVal xs‖ ‖termsVal ys‖ with h | h | h
  · rw [compare_of_lt h, compare_of_lt (mul_lt_mul_of_pos_left h hd)]
  · rw [h]
    rw [compare_eq_iff_eq.mpr rfl, compare_eq_iff_eq.mpr rfl]
  · rw [compare_of_gt h, compare_of_gt (mul_lt_mul_of_pos_left h hd)]

/-- A sum that is `q` times another, term by term. -/
theorem norm_termsVal_of_proportion {xs ys : List Term} {q : Rat} (h : proportion xs ys = some q) :
    ‖termsVal ys‖ = (q : ℝ) * ‖termsVal xs‖ := by
  have scaled : ∀ (c : Rat) (ts : List Term),
      termsVal (ts.map fun x => { coef := c * x.coef, turn := x.turn }) = c * termsVal ts := by
    intro c ts
    induction ts with
    | nil => simp [termsVal]
    | cons t ts ih => rw [List.map_cons, termsVal_cons, ih, termsVal_cons]; push_cast; ring
  match xs, ys, h with
  | [], _, h => cases h
  | _ :: _, [], h => cases h
  | t :: ts, u :: us, h =>
    rw [proportion] at h
    split at h
    · next he =>
      injection h with h
      rw [he, scaled, norm_mul, Complex.norm_ratCast, ← h]
      congr 1
      split
      · next hn =>
        rw [abs_of_neg (by exact_mod_cast hn)]; push_cast; rfl
      · next hn =>
        rw [abs_of_nonneg (by exact_mod_cast not_lt.mp hn)]
    · cases h

/-- The comparison of magnitudes is the one of the real numbers. -/
theorem cmpAbs_eq_compare (x y : Cplx) : cmpAbs x y = compare ‖cplxVal x‖ ‖cplxVal y‖ := by
  rw [cmpAbs, cplxVal, cplxVal, ← termsVal_collect x.terms, ← termsVal_collect y.terms]
  generalize collect x.terms = xs
  generalize collect y.terms = ys
  dsimp only
  split
  · next h => rw [h]; exact (compare_eq_iff_eq.mpr rfl).symm
  · split
    · next a b ha hb =>
      rw [cmpRat_eq_compare, norm_termsVal_of_shortAbs ha, norm_termsVal_of_shortAbs hb]
    · split
      · next q hq =>
        have hz : cmpInt (intTerms (coefDen xs) xs) [] = .eq ↔ ‖termsVal xs‖ = 0 := by
          rw [cmpInt_eq_compare, intVal_intTerms _ _ (coefDen_dvd xs), compare_eq_iff_eq, norm_mul, Complex.norm_natCast]
          have hd : ((coefDen xs : ℕ) : ℝ) ≠ 0 := by exact_mod_cast (coefDen_pos xs).ne'
          simp [intVal, hd]
        rw [norm_termsVal_of_proportion hq]
        split
        · next he =>
          rw [hz.mp he, mul_zero, compare_eq_iff_eq.mpr rfl]
        · next he =>
          have hp : 0 < ‖termsVal xs‖ := lt_of_le_of_ne (norm_nonneg _) fun hc => he (hz.mpr hc.symm)
          rw [cmpRat_eq_compare]
          push_cast
          rcases lt_trichotomy (1:ℝ) q with h | h | h
          · rw [compare_of_lt h, compare_of_lt (by nlinarith)]
          · rw [← h, compare_eq_iff_eq.mpr rfl, compare_eq_iff_eq.mpr (by ring)]
          · rw [compare_of_gt h, compare_of_gt (by nlinarith)]
      · exact cmpInt_intTerms xs ys

theorem cplxVal_zero : cplxVal cplxZero = 0 := by simp [cplxVal, cplxZero, termsVal]

theorem cmpAbs_lt_iff (x y : Cplx) : (cmpAbs x y == .lt) = true ↔ ‖cplxVal x‖ < ‖cplxVal y‖ := by
  rw [cmpAbs_eq_compare, beq_iff_eq, compare_lt_iff_lt]

theorem cplxIsZero_iff (z : Cplx) : cplxIsZero z = true ↔ cplxVal z = 0 := by
  rw [cplxIsZero, cmpAbs_eq_compare, beq_iff_eq, compare_eq_iff_eq, cplxVal_zero, norm_zero, norm_eq_zero]

/-- `realLt` is `<` on the reals, for every two numbers. -/
theorem realLt_iff (a b : XReal) : realLt a b = true ↔ realVal a < realVal b := by
  obtain ⟨na, x⟩ := a
  obtain ⟨nb, y⟩ := b
  have hx := norm_nonneg (cplxVal x)
  have hy := norm_nonneg (cplxVal y)
  cases na <;> cases nb <;> simp only [realLt, realVal, if_true, if_false, Bool.false_eq_true]
  · exact cmpAbs_lt_iff x y
  · constructor
    · rintro ⟨⟩
    · intro h; linarith
  · rw [Bool.not_eq_true', Bool.and_eq_false_iff, Bool.eq_false_iff, Bool.eq_false_iff, Ne, Ne, cplxIsZero_iff, cplxIsZero_iff]
    constructor
    · rintro (h | h)
      · have := norm_pos_iff.mpr h; linarith
      · have := norm_pos_iff.mpr h; linarith
    · intro h
      by_contra hc
      push Not at hc
      rw [hc.1, hc.2, norm_zero] at h
      linarith
  · rw [cmpAbs_lt_iff]
    constructor <;> intro h <;> linarith

end Sys2Proof.Machine
end

