-- ==== Sys2Proof/Laws/Number.lean ====
section
/-! SUPPORT. What the arithmetic of `Machine/Number.lean` does to the numbers that its values stand for: sums, products,
conjugates, `cis`, rationals (`cplxVal_…`), and rounding (`roundEven_isRound`). -/

namespace Sys2Proof.Machine
open Real

theorem termsVal_append (xs ys : List Term) : termsVal (xs ++ ys) = termsVal xs + termsVal ys := by
  simp [termsVal]

@[simp] theorem cplxVal_add (x y : Cplx) : cplxVal (cplxAdd x y) = cplxVal x + cplxVal y := termsVal_append _ _

@[simp] theorem cplxVal_cplxZero : cplxVal cplxZero = 0 := cplxVal_zero

@[simp] theorem cplxVal_sum (xs : List Cplx) : cplxVal (cplxSum xs) = (xs.map cplxVal).sum := by
  induction xs with
  | nil => simp [cplxSum]
  | cons x xs ih => simp [cplxSum, ih]

theorem cisC_add (a b : ℝ) : cisC (a + b) = cisC a * cisC b := by
  rw [cisC, cisC, cisC, ← Complex.exp_add]
  congr 1
  push_cast
  ring

@[simp] theorem cisC_zero : cisC 0 = 1 := by simp [cisC]

theorem cisC_neg (a : ℝ) : cisC (-a) = (starRingEnd ℂ) (cisC a) := by
  rw [cisC, cisC, ← Complex.exp_conj]
  congr 1
  simp [Complex.conj_ofReal, map_ofNat]

@[simp] theorem cplxVal_cis (t : Rat) : cplxVal (cis t) = cisC t := by
  simp [cplxVal, cis, termsVal, cisC_wrapTurn]

@[simp] theorem cplxVal_ofRat (q : Rat) : cplxVal (cplxOfRat q) = q := by
  rw [cplxOfRat]
  split
  · next h => simp [h]
  · simp [cplxVal, termsVal]

@[simp] theorem cplxVal_mul (x y : Cplx) : cplxVal (cplxMul x y) = cplxVal x * cplxVal y := by
  obtain ⟨xs⟩ := x
  obtain ⟨ys⟩ := y
  simp only [cplxVal, cplxMul]
  induction xs with
  | nil => simp [termsVal]
  | cons a as ih =>
    rw [List.flatMap_cons, termsVal_append, ih, termsVal_cons, add_mul]
    congr 1
    clear ih
    induction ys with
    | nil => simp [termsVal]
    | cons b bs ih =>
      rw [List.map_cons, termsVal_cons, ih, termsVal_cons]
      dsimp only
      rw [cisC_wrapTurn]
      push_cast
      rw [cisC_add]
      ring

@[simp] theorem cplxVal_conj (x : Cplx) : cplxVal (cplxConj x) = (starRingEnd ℂ) (cplxVal x) := by
  obtain ⟨xs⟩ := x
  simp only [cplxVal, cplxConj]
  induction xs with
  | nil => simp [termsVal]
  | cons a as ih =>
    rw [List.map_cons, termsVal_cons, ih, termsVal_cons, map_add, map_mul]
    dsimp only
    rw [cisC_wrapTurn]
    push_cast
    rw [cisC_neg]
    congr 2
    exact (Complex.conj_eq_iff_real.mpr ⟨(a.coef : ℝ), by push_cast; rfl⟩).symm

@[simp] theorem realVal_magnitude (z : Cplx) : realVal (magnitude z) = ‖cplxVal z‖ := rfl

@[simp] theorem realVal_ofRat (q : Rat) : realVal (realOfRat q) = q := by
  rw [realOfRat, realVal]
  simp only [cplxVal_ofRat, decide_eq_true_eq]
  have h : ‖(q : ℂ)‖ = |(q : ℝ)| := by
    rw [← Complex.ofReal_ratCast, Complex.norm_real, Real.norm_eq_abs]
  rw [h]
  split
  · next hq => rw [abs_of_neg (by exact_mod_cast hq)]; ring
  · next hq => rw [abs_of_nonneg (by exact_mod_cast not_lt.mp hq)]

/-- `det` is the strict comparison of the real numbers (R162). -/
theorem det_iff (t v : XReal) : det t v = true ↔ realVal t < realVal v := realLt_iff t v

/-- The threshold of R6 "may be any real": whatever real number `x` it is, one of the model's thresholds makes every
comparison that the correlations of a run need come out as `x` does. -/
theorem exists_threshold (x : ℝ) (peaks : List XReal) :
    ∃ t : XReal, realVal t ≤ x ∧ ∀ v ∈ peaks, det t v = true ↔ x < realVal v := by
  induction peaks with
  | nil =>
    obtain ⟨q, hq⟩ := exists_rat_lt x
    exact ⟨realOfRat q, by rw [realVal_ofRat]; exact hq.le, by simp⟩
  | cons p ps ih =>
    obtain ⟨t, ht, h⟩ := ih
    by_cases hp : realVal t < realVal p ∧ realVal p ≤ x
    · refine ⟨p, hp.2, fun v hv => ?_⟩
      rw [det_iff]
      refine ⟨fun hlt => ?_, fun hlt => hp.2.trans_lt hlt⟩
      rcases List.mem_cons.mp hv with rfl | hv
      · exact absurd hlt (lt_irrefl _)
      · exact (h v hv).mp ((det_iff t v).mpr (hp.1.trans hlt))
    · refine ⟨t, ht, fun v hv => ?_⟩
      rcases List.mem_cons.mp hv with rfl | hv
      · rw [det_iff]
        exact ⟨fun hlt => not_le.mp fun hle => hp ⟨hlt, hle⟩, fun hlt => ht.trans_lt hlt⟩
      · exact h v hv

theorem rat_floor_le (q : Rat) : ((q.floor : Int) : Rat) ≤ q := Int.floor_le q

theorem rat_lt_floor_add_one (q : Rat) : q < ((q.floor : Int) : Rat) + 1 := Int.lt_floor_add_one q

/-- `roundEven` is `round` (R11): the nearest integer, a tie going to the even one. -/
theorem roundEven_isRound (q : Rat) : IsRound (q : ℝ) (roundEven q) := by
  have h : |q - ((roundEven q : Int) : Rat)| ≤ 1 / 2 ∧ (|q - ((roundEven q : Int) : Rat)| = 1 / 2 → Even (roundEven q)) := by
    have h1 := rat_floor_le q
    have h2 := rat_lt_floor_add_one q
    rw [roundEven]
    split
    · next h =>
      have : |q - (q.floor : Rat)| < 1 / 2 := by rw [abs_lt]; constructor <;> linarith
      exact ⟨this.le, fun he => absurd he this.ne⟩
    split
    · next h =>
      have : |q - ((q.floor + 1 : Int) : Rat)| < 1 / 2 := by push_cast; rw [abs_lt]; constructor <;> linarith
      exact ⟨this.le, fun he => absurd he this.ne⟩
    · next h3 h4 =>
      have h5 : q - (q.floor : Rat) = 1 / 2 := le_antisymm (not_lt.mp h4) (not_lt.mp h3)
      split
      · next h =>
        refine ⟨?_, fun _ => Int.even_iff.mpr h⟩
        rw [h5, abs_of_pos (by norm_num)]
      · next h =>
        refine ⟨?_, fun _ => Int.even_iff.mpr (by omega)⟩
        have : q - ((q.floor + 1 : Int) : Rat) = -(1 / 2) := by push_cast; linarith
        rw [this, abs_neg, abs_of_pos (by norm_num)]
  have hc : |(q : ℝ) - ((roundEven q : Int) : ℝ)| = ((|q - ((roundEven q : Int) : Rat)| : Rat) : ℝ) := by push_cast; rfl
  have hhalf : ((1 / 2 : Rat) : ℝ) = 1 / 2 := by norm_num
  refine ⟨?_, fun he => h.2 ?_⟩
  · rw [hc, ← hhalf]; exact_mod_cast h.1
  · rw [hc, ← hhalf] at he; exact_mod_cast he

/-- No number rounds to two integers. -/
theorem IsRound.unique {x : ℝ} {m n : Int} (hm : IsRound x m) (hn : IsRound x n) : m = n := by
  have h1 := abs_le.mp hm.1
  have h2 := abs_le.mp hn.1
  have h3 : ((m - n : Int) : ℝ) ≤ ((1 : Int) : ℝ) := by push_cast; linarith
  have h4 : ((-1 : Int) : ℝ) ≤ ((m - n : Int) : ℝ) := by push_cast; linarith
  have h5 : m - n ≤ 1 := by exact_mod_cast h3
  have h6 : -1 ≤ m - n := by exact_mod_cast h4
  by_contra hne
  rcases (by omega : m - n = 1 ∨ m - n = -1) with h | h
  · have hmn : (m : ℝ) = n + 1 := by exact_mod_cast (by omega : m = n + 1)
    have e1 : x - m = -(1 / 2) := by linarith
    have e2 : x - n = 1 / 2 := by linarith
    have p1 := hm.2 (by rw [e1, abs_neg, abs_of_pos (by norm_num)])
    have p2 := hn.2 (by rw [e2, abs_of_pos (by norm_num)])
    rw [Int.even_iff] at p1 p2
    omega
  · have hmn : (n : ℝ) = m + 1 := by exact_mod_cast (by omega : n = m + 1)
    have e1 : x - m = 1 / 2 := by linarith
    have e2 : x - n = -(1 / 2) := by linarith
    have p1 := hm.2 (by rw [e1, abs_of_pos (by norm_num)])
    have p2 := hn.2 (by rw [e2, abs_neg, abs_of_pos (by norm_num)])
    rw [Int.even_iff] at p1 p2
    omega

end Sys2Proof.Machine
end

