-- ==== Sys2Proof/Laws/Ratio.lean ====
section
/-! SUPPORT. The ratio of two rates (`Machine/Ratio.lean`): every rational ratio is found and held exactly
(`rationalRatio_complete`, `rateRatio_exact`); an irrational one stands in the same order to every multiple of `2^-gridBits` as
the real ratio, and is within `2^-ratioBits` of it (`rateRatio_order`, `rateRatio_close`); `num` is exact for every ratio
(`numRounded_isRound`). -/

namespace Sys2Proof.Machine
open Real

theorem cplxVal_scale (n : Nat) (z : Cplx) : cplxVal (cplxScale n z) = n * cplxVal z := by
  obtain ⟨ts⟩ := z
  simp only [cplxVal, cplxScale]
  induction ts with
  | nil => simp [termsVal]
  | cons t ts ih => rw [List.map_cons, termsVal_cons, ih, termsVal_cons]; push_cast; ring

theorem ratioOrder_eq_compare (bw fs : Cplx) (n : Nat) :
    ratioOrder bw fs n = compare (n * ‖cplxVal bw‖) (2 ^ gridBits bw fs * ‖cplxVal fs‖) := by
  rw [ratioOrder, cmpAbs_eq_compare, cplxVal_scale, cplxVal_scale, norm_mul, norm_mul, Complex.norm_natCast,
    Complex.norm_natCast]
  push_cast; rfl

/-- A search by binary digits finds the integral part. -/
theorem floorSearch_spec {x : ℝ} {reaches : Nat → Bool} (h : ∀ n, reaches n = true ↔ (n : ℝ) ≤ x) (bits acc : Nat)
    (h1 : (acc : ℝ) ≤ x) (h2 : x < acc + 2 ^ bits) :
    (floorSearch reaches bits acc : ℝ) ≤ x ∧ x < floorSearch reaches bits acc + 1 := by
  induction bits generalizing acc with
  | zero => exact ⟨h1, by simpa [floorSearch] using h2⟩
  | succ b ih =>
    rw [floorSearch]
    have e : (2:ℝ) ^ (b + 1) = 2 ^ b + 2 ^ b := by ring
    split
    · next hr =>
      refine ih _ ((h _).mp hr) ?_
      push_cast; linarith
    · next hr =>
      refine ih _ h1 ?_
      have := mt (h _).mpr hr
      push_cast at this
      exact not_le.mp this

/-- A complex number that is not 0 has a magnitude of at least one over the number `ratioDigits` counts with. -/
theorem one_le_norm_mul (z : Cplx) (hz : cplxVal z ≠ 0) :
    let b := collect z.terms
    let bs := intTerms (coefDen b) b
    1 ≤ ‖cplxVal z‖ * ((coefDen b * (coefSum bs ^ 2) ^ turnDen bs : ℕ) : ℝ) := by
  intro b bs
  have hv : intVal bs = coefDen b * cplxVal z := by
    rw [intVal_intTerms _ _ (coefDen_dvd b), cplxVal, termsVal_collect]
  have hd : 0 < coefDen b := coefDen_pos b
  have hne : intVal bs ≠ 0 := by
    rw [hv]; exact mul_ne_zero (by exact_mod_cast hd.ne') hz
  have hpos : 0 < ‖intVal bs‖ := norm_pos_iff.mpr hne
  have hg := normSq_gap bs [] (turnDen bs) (turnDen_pos bs) (turnDen_dvd bs) (by simp)
  have h0 : ‖intVal []‖ = 0 := by simp [intVal]
  have hs : coefSum [] = 0 := rfl
  rw [h0, hs] at hg
  have h1 : 1 ≤ ‖intVal bs‖ ^ 2 * (((coefSum bs ^ 2 : ℕ) : ℝ)) ^ turnDen bs := by
    rcases hg with hg | hg
    · exfalso; nlinarith
    · rw [show (0:ℝ) ^ 2 - ‖intVal bs‖ ^ 2 = -(‖intVal bs‖ ^ 2) by ring, abs_neg, abs_of_nonneg (sq_nonneg _)] at hg
      simpa using hg
  have hS : (1:ℝ) ≤ ((coefSum bs ^ 2 : ℕ) : ℝ) ^ turnDen bs := by
    have hle := norm_intVal_le bs
    have : coefSum bs ≠ 0 := by
      intro hc; rw [hc] at hle; push_cast at hle; linarith
    exact one_le_pow₀ (by exact_mod_cast Nat.one_le_pow _ _ (Nat.pos_of_ne_zero this))
  have h2 : 1 ≤ ‖intVal bs‖ * ((coefSum bs ^ 2 : ℕ) : ℝ) ^ turnDen bs := by
    rcases le_or_gt 1 ‖intVal bs‖ with h | h
    · nlinarith
    · have : ‖intVal bs‖ ^ 2 ≤ ‖intVal bs‖ := by nlinarith
      exact h1.trans (mul_le_mul_of_nonneg_right this (by linarith))
  rw [hv, norm_mul, Complex.norm_natCast] at h2
  push_cast at h2 ⊢
  linarith

theorem norm_cplxVal_le (z : Cplx) :
    ‖cplxVal z‖ ≤ coefSum (intTerms (coefDen (collect z.terms)) (collect z.terms)) := by
  set f := collect z.terms with hf
  have hv : intVal (intTerms (coefDen f) f) = coefDen f * cplxVal z := by
    rw [intVal_intTerms _ _ (coefDen_dvd f), cplxVal, hf, termsVal_collect]
  have h := norm_intVal_le (intTerms (coefDen f) f)
  rw [hv, norm_mul, Complex.norm_natCast] at h
  have hd : (1:ℝ) ≤ coefDen f := by exact_mod_cast coefDen_pos f
  nlinarith [norm_nonneg (cplxVal z)]

/-- The ratio does not need more binary digits than `ratioDigits`. -/
theorem ratio_lt_digits (bw fs : Cplx) (hb : cplxVal bw ≠ 0) :
    2 ^ gridBits bw fs * ‖cplxVal fs‖ / ‖cplxVal bw‖ < 2 ^ ratioDigits bw fs := by
  have h1 := one_le_norm_mul bw hb
  have h2 := norm_cplxVal_le fs
  have hpos : 0 < ‖cplxVal bw‖ := norm_pos_iff.mpr hb
  rw [div_lt_iff₀ hpos, ratioDigits]
  generalize gridBits bw fs = bits
  dsimp only at h1 ⊢
  set S := coefSum (intTerms (coefDen (collect fs.terms)) (collect fs.terms))
  set D := coefDen (collect bw.terms)
  set B := coefSum (intTerms D (collect bw.terms))
  set T := turnDen (intTerms D (collect bw.terms))
  have h3 : 2 ^ bits * S * D * (B ^ 2) ^ T < 2 ^ ((2 ^ bits * S * D * (B ^ 2) ^ T).log2 + 1) :=
    Nat.lt_log2_self
  have h3' : (2:ℝ) ^ bits * S * D * ((B:ℝ) ^ 2) ^ T
      < 2 ^ ((2 ^ bits * S * D * (B ^ 2) ^ T).log2 + 1) := by exact_mod_cast h3
  push_cast at h1
  set P : ℝ := 2 ^ bits
  have hP : 0 < P := by positivity
  calc P * ‖cplxVal fs‖ ≤ P * S := mul_le_mul_of_nonneg_left h2 hP.le
    _ ≤ P * S * (‖cplxVal bw‖ * (D * ((B:ℝ) ^ 2) ^ T)) := le_mul_of_one_le_right (by positivity) h1
    _ = (P * S * D * ((B:ℝ) ^ 2) ^ T) * ‖cplxVal bw‖ := by ring
    _ < _ := mul_lt_mul_of_pos_right h3' hpos

theorem ratioReaches_iff {bw : Cplx} (fs : Cplx) (hb : cplxVal bw ≠ 0) (n : Nat) :
    ratioReaches bw fs n = true ↔ (n : ℝ) ≤ 2 ^ gridBits bw fs * (‖cplxVal fs‖ / ‖cplxVal bw‖) := by
  rw [ratioReaches, ratioOrder_eq_compare, bne_iff_ne, ne_eq, compare_gt_iff_gt, not_lt, ← mul_div_assoc,
    le_div_iff₀ (norm_pos_iff.mpr hb)]

/-- `ratioFloor` is the integral part. -/
theorem ratioFloor_spec (bw fs : Cplx) (hb : cplxVal bw ≠ 0) :
    (ratioFloor bw fs : ℝ) ≤ 2 ^ gridBits bw fs * (‖cplxVal fs‖ / ‖cplxVal bw‖) ∧
      2 ^ gridBits bw fs * (‖cplxVal fs‖ / ‖cplxVal bw‖) < ratioFloor bw fs + 1 := by
  rw [ratioFloor]
  split
  · next k hk =>
    have h := List.find?_some hk
    rw [Bool.and_eq_true, Bool.not_eq_true', ratioReaches_iff fs hb] at h
    have h2 := mt (ratioReaches_iff fs hb (k + 1)).mpr (by rw [h.2]; exact Bool.false_ne_true)
    push_cast at h2
    exact ⟨h.1, not_le.mp h2⟩
  · have hd := ratio_lt_digits bw fs hb
    rw [mul_div_assoc] at hd
    refine floorSearch_spec (ratioReaches_iff fs hb) (ratioDigits bw fs) 0 ?_ (by simpa using hd)
    have : 0 ≤ 2 ^ gridBits bw fs * (‖cplxVal fs‖ / ‖cplxVal bw‖) := by positivity
    simpa using this

/-! ## Rational ratios -/

theorem cplxVal_ne_zero_of_pos {x : XReal} (h : 0 < realVal x) : cplxVal x.abs ≠ 0 := by
  rintro h0
  simp [realVal, h0] at h

theorem realVal_eq_norm {x : XReal} (h : 0 < realVal x) : realVal x = ‖cplxVal x.abs‖ := by
  rw [realVal] at h ⊢
  split
  · next hn => rw [if_pos hn] at h; exact absurd h (by simp)
  · rfl

/-- The convergents of Mathlib's continued fractions are in the list, when the list may be long enough. -/
theorem mem_convergents (k : Nat) (x : Rat) (hk : x.den ≤ k) (n : Nat) : (x : ℝ).convergent n ∈ convergents k x := by
  induction k generalizing x n with
  | zero => exact absurd x.den_pos (by omega)
  | succ k ih =>
    have hfl : ⌊(x : ℝ)⌋ = x.floor := Rat.floor_cast x
    rw [convergents]
    by_cases hx : x = x.floor
    · rw [if_pos hx]
      have hxr : (x : ℝ) = ((x.floor : Int) : ℝ) := by exact_mod_cast congrArg (Rat.cast (K := ℝ)) hx
      rw [hxr, Real.convergent_of_int]
      exact List.mem_singleton.mpr rfl
    · rw [if_neg hx]
      cases n with
      | zero => rw [Real.convergent_zero, hfl]; exact List.mem_cons_self
      | succ n =>
        refine List.mem_cons_of_mem _ (List.mem_map.mpr ⟨_, ih (x - x.floor)⁻¹ ?_ n, ?_⟩)
        · have h1 := rat_floor_le x
          have h2 := rat_lt_floor_add_one x
          have h0 : 0 < x - x.floor := lt_of_le_of_ne (by linarith) fun h => hx (by linarith)
          have hd : (x - x.floor).den = x.den := by
            rw [show x - x.floor = x + ((-x.floor : Int) : Rat) by push_cast; ring]
            exact Rat.add_intCast_den x _
          have hnum : 0 < (x - x.floor).num := Rat.num_pos.mpr h0
          have hlt : (x - x.floor).num < (x - x.floor).den := Rat.num_lt_denom_iff.mpr (by linarith)
          rw [Rat.den_inv_of_ne_zero h0.ne']
          omega
        · rw [Real.convergent_succ, hfl]
          congr 3
          rw [Int.fract, hfl]; push_cast; rfl

/-- `isRatio` is exact. -/
theorem isRatio_iff (bw fs : Cplx) (q : Rat) :
    isRatio bw fs q = true ↔ 0 ≤ q ∧ ‖cplxVal fs‖ = q * ‖cplxVal bw‖ := by
  rw [isRatio, Bool.and_eq_true, decide_eq_true_iff, beq_iff_eq, cmpAbs_eq_compare, compare_eq_iff_eq, cplxVal_scale,
    cplxVal_scale, norm_mul, norm_mul, Complex.norm_natCast, Complex.norm_natCast]
  refine and_congr_right fun h0 => ?_
  have hd : (0:ℝ) < q.den := by exact_mod_cast q.den_pos
  have hn : ((q.num.toNat : ℕ) : ℝ) = q.num := by
    have : ((q.num.toNat : ℕ) : ℤ) = q.num := Int.toNat_of_nonneg (Rat.num_nonneg.mpr h0)
    exact_mod_cast congrArg (Int.cast (R := ℝ)) this
  have hq : (q : ℝ) = q.num / q.den := by exact_mod_cast Rat.cast_def q (K := ℝ)
  rw [hn, hq, div_mul_eq_mul_div, eq_div_iff hd.ne', mul_comm]

/-- The magnitude of a complex number and of the integer combination it is the fraction of. -/
theorem norm_intVal_collect (z : Cplx) :
    ‖intVal (intTerms (coefDen (collect z.terms)) (collect z.terms))‖ = coefDen (collect z.terms) * ‖cplxVal z‖ := by
  rw [intVal_intTerms _ _ (coefDen_dvd _), norm_mul, Complex.norm_natCast, termsVal_collect]; rfl

/-- A rational ratio has a denominator of at most `denBound`. -/
theorem den_le_denBound {bw fs : Cplx} {q : Rat} (hb : cplxVal bw ≠ 0) (h0 : 0 ≤ q)
    (h : ‖cplxVal fs‖ = q * ‖cplxVal bw‖) : q.den ≤ denBound bw fs := by
  have hB := norm_intVal_collect bw
  have hF := norm_intVal_collect fs
  rw [denBound]
  set D := coefDen (collect bw.terms) with hD
  set E := coefDen (collect fs.terms) with hE
  set B := intTerms D (collect bw.terms)
  set F := intTerms E (collect fs.terms)
  have hDpos : 0 < D := coefDen_pos _
  have hEpos : 0 < E := coefDen_pos _
  have hD0 : (D : ℚ) ≠ 0 := by exact_mod_cast hDpos.ne'
  have hE0 : (E : ℚ) ≠ 0 := by exact_mod_cast hEpos.ne'
  have hD0' : (D : ℝ) ≠ 0 := by exact_mod_cast hDpos.ne'
  set r : Rat := q * E / D with hr
  have hr0 : 0 ≤ r := by positivity
  have hrel : ‖intVal F‖ = r * ‖intVal B‖ := by
    rw [hF, hB, h, hr]; push_cast; field_simp
  have hrd : (0:ℝ) < r.den := by exact_mod_cast r.den_pos
  have hn : ((r.num.toNat : ℕ) : ℤ) = r.num := Int.toNat_of_nonneg (Rat.num_nonneg.mpr hr0)
  have hden : r.den ≤ coefSum B := by
    refine ratio_den_le F B r.num.toNat r.den ?_ r.den_pos ?_ ?_
    · have := r.reduced
      rwa [show r.num.natAbs = r.num.toNat by omega] at this
    · rw [← norm_pos_iff, hB]
      exact mul_pos (by exact_mod_cast hDpos) (norm_pos_iff.mpr hb)
    · have hq : (r : ℝ) = r.num / r.den := by exact_mod_cast Rat.cast_def r (K := ℝ)
      have hn' : ((r.num.toNat : ℕ) : ℝ) = r.num := by exact_mod_cast congrArg (Int.cast (R := ℝ)) hn
      rw [hrel, hq, hn']
      field_simp
  have hqr : q = (r.num * D : ℤ) / (r.den * E : ℤ) := by
    have hq : r = r.num / r.den := (Rat.num_div_den r).symm
    have hrd' : (r.den : ℚ) ≠ 0 := by exact_mod_cast r.den_pos.ne'
    have : q = r * D / E := by rw [hr]; field_simp
    rw [this]
    push_cast
    conv_lhs => rw [hq]
    field_simp
  have hdvd : (q.den : ℤ) ∣ (r.den * E : ℤ) := by
    conv_lhs => rw [hqr]
    rw [← Rat.divInt_eq_div]
    exact Rat.den_dvd _ _
  have hdvd' : q.den ∣ r.den * E := by exact_mod_cast hdvd
  exact (Nat.le_of_dvd (Nat.mul_pos r.den_pos hEpos) hdvd').trans (Nat.mul_le_mul_right _ hden)

/-- A rational ratio is the fraction that the digits of the ratio give. -/
theorem mem_convergents_of_ratio {bw fs : Cplx} {q : Rat} (hb : cplxVal bw ≠ 0) (h0 : 0 ≤ q)
    (h : ‖cplxVal fs‖ = q * ‖cplxVal bw‖) :
    q ∈ convergents (2 ^ gridBits bw fs) (ratioFloor bw fs / (2 ^ gridBits bw fs : ℕ)) ∧
      q - ratioFloor bw fs / (2 ^ gridBits bw fs : ℕ) < 1 / (2 ^ gridBits bw fs : ℕ) ∧
      (ratioFloor bw fs / (2 ^ gridBits bw fs : ℕ) : Rat) - q < 1 / (2 ^ gridBits bw fs : ℕ) := by
  obtain ⟨h1, h2⟩ := ratioFloor_spec bw fs hb
  have hden := den_le_denBound hb h0 h
  have hq : ‖cplxVal fs‖ / ‖cplxVal bw‖ = q := by rw [h, mul_div_assoc, div_self (norm_ne_zero_iff.mpr hb), mul_one]
  rw [hq] at h1 h2
  have hG : 0 < 2 ^ gridBits bw fs := by positivity
  have hlog : denBound bw fs < 2 ^ ((denBound bw fs).log2 + 1) := Nat.lt_log2_self
  have hbits : 2 * (denBound bw fs + 1) ^ 2 ≤ 2 ^ gridBits bw fs := by
    calc 2 * (denBound bw fs + 1) ^ 2 ≤ 2 ^ 1 * (2 ^ ((denBound bw fs).log2 + 1)) ^ 2 :=
          Nat.mul_le_mul_left _ (Nat.pow_le_pow_left hlog 2)
      _ = 2 ^ (1 + ((denBound bw fs).log2 + 1) * 2) := by rw [← pow_mul, ← pow_add]
      _ ≤ 2 ^ gridBits bw fs := Nat.pow_le_pow_right two_pos (by rw [gridBits, Config.ratioBits]; omega)
  set G : ℕ := 2 ^ gridBits bw fs with hGdef
  have hGe : (2:ℝ) ^ gridBits bw fs = G := by rw [hGdef]; push_cast; rfl
  rw [hGe] at h1 h2
  have hG' : (0:ℝ) < G := by exact_mod_cast hG
  set n := ratioFloor bw fs
  have hlo : (n : ℝ) / G ≤ q := by rw [div_le_iff₀ hG']; linarith
  have hhi : (q : ℝ) < n / G + 1 / G := by rw [← add_div, lt_div_iff₀ hG']; linarith
  refine ⟨?_, ?_, ?_⟩
  · have hclose : |((((n : ℚ) / G : ℚ)) : ℝ) - q| < 1 / (2 * (q.den : ℝ) ^ 2) := by
      push_cast
      rw [abs_sub_comm, abs_of_nonneg (by linarith)]
      refine lt_of_lt_of_le (by linarith : (q : ℝ) - n / G < 1 / G) ?_
      refine one_div_le_one_div_of_le (by have : (0:ℝ) < q.den := by exact_mod_cast q.den_pos
                                          positivity) ?_
      have : 2 * q.den ^ 2 ≤ G := (Nat.mul_le_mul_left _ (Nat.pow_le_pow_left (by omega) 2)).trans hbits
      exact_mod_cast this
    obtain ⟨k, hk⟩ := Real.exists_rat_eq_convergent hclose
    rw [hk]
    refine mem_convergents _ _ ?_ k
    have h3 := Rat.den_dvd (n : ℤ) (G : ℤ)
    rw [Rat.divInt_eq_div, Int.cast_natCast, Int.cast_natCast] at h3
    exact Nat.le_of_dvd hG (Int.natCast_dvd_natCast.mp h3)
  · refine (Rat.cast_lt (K := ℝ)).mp ?_
    push_cast; linarith
  · refine (Rat.cast_lt (K := ℝ)).mp ?_
    push_cast
    exact lt_of_le_of_lt (by linarith) (by positivity : (0:ℝ) < 1 / G)

/-- What `rationalRatio` finds is the ratio. -/
theorem rationalRatio_sound {bw fs : Cplx} {q : Rat} (hb : cplxVal bw ≠ 0) (h : rationalRatio bw fs = some q) :
    0 ≤ q ∧ ‖cplxVal fs‖ = q * ‖cplxVal bw‖ := by
  rw [rationalRatio] at h
  split at h
  · next b f h1 h2 =>
    cases h
    have e1 := norm_termsVal_of_shortAbs h1
    have e2 := norm_termsVal_of_shortAbs h2
    rw [termsVal_collect] at e1 e2
    have hbn : (b : ℝ) ≠ 0 := by rw [← e1]; exact norm_ne_zero_iff.mpr hb
    have hb0 : (0:ℝ) ≤ b := e1 ▸ norm_nonneg _
    have hf0 : (0:ℝ) ≤ f := e2 ▸ norm_nonneg _
    refine ⟨div_nonneg (by exact_mod_cast hf0) (by exact_mod_cast hb0), ?_⟩
    rw [cplxVal, cplxVal, e1, e2]
    push_cast
    field_simp
  · have := List.find?_some h
    simp only [Bool.and_eq_true] at this
    exact (isRatio_iff bw fs q).mp this.2

/-- Every rational ratio is found, however the two numbers are written. -/
theorem rationalRatio_complete {bw fs : Cplx} {q : Rat} (hb : cplxVal bw ≠ 0) (h0 : 0 ≤ q)
    (h : ‖cplxVal fs‖ = q * ‖cplxVal bw‖) : rationalRatio bw fs = some q := by
  have unique : ∀ {p : Rat}, rationalRatio bw fs = some p → p = q := by
    intro p hp
    have := (rationalRatio_sound hb hp).2
    rw [h] at this
    exact_mod_cast (mul_right_cancel₀ (norm_ne_zero_iff.mpr hb) this).symm
  suffices ∃ p, rationalRatio bw fs = some p by
    obtain ⟨p, hp⟩ := this
    rw [hp, unique hp]
  rw [rationalRatio]
  split
  · exact ⟨_, rfl⟩
  · obtain ⟨hm, h1, h2⟩ := mem_convergents_of_ratio hb h0 h
    refine Option.isSome_iff_exists.mp (List.find?_isSome.mpr ⟨q, hm, ?_⟩)
    simp only [Bool.and_eq_true, decide_eq_true_iff]
    exact ⟨⟨⟨den_le_denBound hb h0 h, h1⟩, h2⟩, (isRatio_iff bw fs q).mpr ⟨h0, h⟩⟩

/-- `exactRates` decides whether the ratio of the rates is rational. -/
theorem exactRates_iff {bw fs : XReal} (hb : 0 < realVal bw) (hf : 0 < realVal fs) :
    exactRates bw fs = true ↔ ExactRates bw fs := by
  have hne := cplxVal_ne_zero_of_pos hb
  rw [exactRates, Option.isSome_iff_exists, ExactRates, realVal_eq_norm hb, realVal_eq_norm hf]
  constructor
  · rintro ⟨q, hq⟩; exact ⟨q, (rationalRatio_sound hne hq).2⟩
  · rintro ⟨q, hq⟩
    refine ⟨q, rationalRatio_complete hne ?_ hq⟩
    by_contra hlt
    have h1 : (q : ℝ) < 0 := by exact_mod_cast not_le.mp hlt
    have h2 := mul_neg_of_neg_of_pos h1 (norm_pos_iff.mpr hne)
    rw [← hq] at h2
    exact absurd (norm_nonneg _) (not_le.mpr h2)

/-- A rational ratio is held exactly. -/
theorem rateRatio_exact {bw fs : XReal} (hb : 0 < realVal bw) (hf : 0 < realVal fs) (h : ExactRates bw fs) :
    (rateRatio bw fs : ℝ) = realVal fs / realVal bw := by
  obtain ⟨q, hq⟩ := Option.isSome_iff_exists.mp ((exactRates_iff hb hf).mpr h)
  rw [rateRatio, hq, realVal_eq_norm hb, realVal_eq_norm hf]
  have hne := cplxVal_ne_zero_of_pos hb
  rw [(rationalRatio_sound hne hq).2, mul_div_assoc, div_self (norm_ne_zero_iff.mpr hne), mul_one]

/-! ## The ratio held -/

/-- The ratio of two positive real numbers: held exactly, or as the middle of an interval between two multiples of
`2^-gridBits` in which it lies. -/
theorem rateRatio_spec {bw fs : XReal} (hb : 0 < realVal bw) (hf : 0 < realVal fs) :
    (rateRatio bw fs : ℝ) = realVal fs / realVal bw ∨
      ∃ n : Nat, rateRatio bw fs = (2 * n + 1) / 2 ^ (gridBits bw.abs fs.abs + 1) ∧
        (n : ℝ) < 2 ^ gridBits bw.abs fs.abs * (realVal fs / realVal bw) ∧
        2 ^ gridBits bw.abs fs.abs * (realVal fs / realVal bw) < n + 1 := by
  by_cases he : ExactRates bw fs
  · exact .inl (rateRatio_exact hb hf he)
  · right
    have hne := cplxVal_ne_zero_of_pos hb
    obtain ⟨h1, h2⟩ := ratioFloor_spec bw.abs fs.abs hne
    rw [← realVal_eq_norm hb, ← realVal_eq_norm hf] at h1 h2
    have hnone : rationalRatio bw.abs fs.abs = none := by
      have := mt (exactRates_iff hb hf).mp he
      rw [exactRates] at this
      exact Option.isSome_eq_false_iff.mp (by simpa using this) |> Option.isNone_iff_eq_none.mp
    refine ⟨ratioFloor bw.abs fs.abs, by rw [rateRatio, hnone], lt_of_le_of_ne h1 fun hc => he ?_, h2⟩
    refine ⟨ratioFloor bw.abs fs.abs / 2 ^ gridBits bw.abs fs.abs, ?_⟩
    push_cast
    rw [hc]
    field_simp

/-- The ratio held stands in the order of the real ratio to every multiple of `2^-gridBits`. -/
theorem rateRatio_order {bw fs : XReal} (hb : 0 < realVal bw) (hf : 0 < realVal fs) (k : Int) :
    ((k : ℝ) < 2 ^ gridBits bw.abs fs.abs * (rateRatio bw fs : ℝ) ↔
      (k : ℝ) < 2 ^ gridBits bw.abs fs.abs * (realVal fs / realVal bw)) ∧
    (2 ^ gridBits bw.abs fs.abs * (rateRatio bw fs : ℝ) < k ↔
      2 ^ gridBits bw.abs fs.abs * (realVal fs / realVal bw) < (k : ℝ)) := by
  rcases rateRatio_spec hb hf with h | ⟨n, h1, h2, h3⟩
  · rw [h]; exact ⟨Iff.rfl, Iff.rfl⟩
  · have hq : (2:ℝ) ^ gridBits bw.abs fs.abs * rateRatio bw fs = n + 1 / 2 := by
      rw [h1]; push_cast; rw [pow_succ]; field_simp
    rw [hq]
    have le_of_lt_succ : ∀ {a b : Int}, (a : ℝ) < (b : ℝ) + 1 → (a : ℝ) ≤ b := fun {a b} h => by
      have : a < b + 1 := by exact_mod_cast h
      exact_mod_cast Int.lt_add_one_iff.mp this
    constructor <;> constructor <;> intro h
    · have := le_of_lt_succ (a := k) (b := (n : Int)) (by push_cast; linarith)
      push_cast at this; linarith
    · have := le_of_lt_succ (a := k) (b := (n : Int)) (by push_cast; linarith)
      push_cast at this; linarith
    · have := le_of_lt_succ (a := (n : Int)) (b := k - 1) (by push_cast; linarith)
      push_cast at this; linarith
    · have := le_of_lt_succ (a := (n : Int)) (b := k - 1) (by push_cast; linarith)
      push_cast at this; linarith

/-- The ratio held is within `2^-(ratioBits + 1)` of the real ratio. -/
theorem rateRatio_close {bw fs : XReal} (hb : 0 < realVal bw) (hf : 0 < realVal fs) :
    2 ^ Config.ratioBits * |(rateRatio bw fs : ℝ) - realVal fs / realVal bw| ≤ 1 / 2 := by
  rcases rateRatio_spec hb hf with h | ⟨n, h1, h2, h3⟩
  · rw [h, sub_self, abs_zero, mul_zero]; norm_num
  · have hle : (2:ℝ) ^ Config.ratioBits ≤ 2 ^ gridBits bw.abs fs.abs :=
      pow_le_pow_right₀ one_le_two (by rw [gridBits]; omega)
    have hq : (2:ℝ) ^ gridBits bw.abs fs.abs * rateRatio bw fs = n + 1 / 2 := by
      rw [h1]; push_cast; rw [pow_succ]; field_simp
    refine (mul_le_mul_of_nonneg_right hle (abs_nonneg _)).trans ?_
    rw [← abs_of_pos (show (0:ℝ) < 2 ^ gridBits bw.abs fs.abs by positivity), ← abs_mul, mul_sub, hq, abs_le]
    constructor <;> linarith

/-- Rates whose window length `128 * fs / BW` is an integer are exact. -/
theorem exactRates_of_int {bw fs : XReal} {N : Nat} (hb : 0 < realVal bw) (h : 128 * realVal fs / realVal bw = N) :
    ExactRates bw fs := by
  refine ⟨N / 128, ?_⟩
  push_cast
  rw [← h]
  field_simp

/-- Rational rates are exact. -/
theorem exactRates_ofRat (b f : Rat) (hb : 0 < b) : ExactRates (realOfRat b) (realOfRat f) := by
  refine ⟨f / b, ?_⟩
  have : (b : ℝ) ≠ 0 := by exact_mod_cast hb.ne'
  rw [realVal_ofRat, realVal_ofRat]; push_cast; field_simp

/-- `num` is the rounding of R7, also where the ratio is not held exactly. -/
theorem numRounded_isRound {bw fs : XReal} (hb : 0 < realVal bw) (hf : 0 < realVal fs) :
    IsRound (128 * realVal fs / realVal bw) (numRounded bw fs) := by
  have h := roundEven_isRound (symbolTime 1 * rateRatio bw fs)
  rw [numRounded]
  set z := roundEven (symbolTime 1 * rateRatio bw fs) with hz
  have e : ((symbolTime 1 * rateRatio bw fs : Rat) : ℝ) = 128 * rateRatio bw fs := by rw [symbolTime]; push_cast; ring
  rw [e] at h
  obtain ⟨m, hm⟩ : ∃ m, gridBits bw.abs fs.abs = 8 + m := ⟨_, (Nat.add_sub_cancel' (by rw [gridBits, Config.ratioBits]; omega)).symm⟩
  have o1 := rateRatio_order hb hf ((2 * z + 1) * 2 ^ m)
  have o2 := rateRatio_order hb hf ((2 * z - 1) * 2 ^ m)
  have e2 : (2:ℝ) ^ gridBits bw.abs fs.abs = 256 * 2 ^ m := by rw [hm, pow_add]; norm_num
  rw [e2] at o1 o2
  rw [mul_div_assoc]
  set q : ℝ := (rateRatio bw fs : ℝ)
  set x := realVal fs / realVal bw
  have hp : (0:ℝ) < 2 ^ m := by positivity
  have lo : ∀ (c : Int) (y : ℝ), (((c * 2 ^ m : Int)) : ℝ) < 256 * 2 ^ m * y ↔ (c : ℝ) < 256 * y := by
    intro c y
    rw [Int.cast_mul, Int.cast_pow, Int.cast_ofNat, show (256:ℝ) * 2 ^ m * y = 256 * y * 2 ^ m by ring, mul_lt_mul_iff_left₀ hp]
  have hi : ∀ (c : Int) (y : ℝ), (256 * 2 ^ m * y < (((c * 2 ^ m : Int)) : ℝ)) ↔ 256 * y < (c : ℝ) := by
    intro c y
    rw [Int.cast_mul, Int.cast_pow, Int.cast_ofNat, show (256:ℝ) * 2 ^ m * y = 256 * y * 2 ^ m by ring, mul_lt_mul_iff_left₀ hp]
  rw [lo, lo, hi, hi] at o1 o2
  push_cast at o1 o2
  obtain ⟨h1, h2⟩ := h
  rw [abs_le] at h1
  have b1 : ¬ (2 * (z : ℝ) + 1 < 256 * x) := o1.1.not.mp (by linarith)
  have b2 : ¬ (256 * x < 2 * (z : ℝ) - 1) := o2.2.not.mp (by linarith)
  refine ⟨by rw [abs_le]; constructor <;> linarith, fun he => h2 ?_⟩
  rcases eq_or_eq_neg_of_abs_eq he with he | he
  · have c := o1.2.not.mpr (by linarith)
    rw [show 128 * q - z = 1 / 2 by linarith, abs_of_pos (by norm_num)]
  · have c := o2.1.not.mpr (by linarith)
    rw [show 128 * q - z = -(1 / 2) by linarith, abs_neg, abs_of_pos (by norm_num)]

/-- `theta` of a ratio in the unit of time `1 / BW`. -/
theorem theta_val (q : Rat) (i : Nat) : ((theta 1 q i : Rat) : ℝ) = -(i * (q : ℝ)⁻¹) / 2 + (i * (q : ℝ)⁻¹) ^ 2 / 256 := by
  rw [theta, symbolTime]; push_cast; ring

/-- The phase of R120 depends on the ratio of the rates alone. -/
theorem phase_eq_ratio {b f : ℝ} (hb : 0 < b) (hf : 0 < f) (i : Nat) :
    phase b f i = -(i * (f / b)⁻¹) / 2 + (i * (f / b)⁻¹) ^ 2 / 256 := by
  rw [phase]
  field_simp
  ring

/-- `theta` is the phase of R120 where the ratio is held exactly. -/
theorem theta_eq_phase {bw fs : XReal} (hb : 0 < realVal bw) (hf : 0 < realVal fs) (h : ExactRates bw fs) (i : Nat) :
    ((theta 1 (rateRatio bw fs) i : Rat) : ℝ) = phase (realVal bw) (realVal fs) i := by
  rw [theta_val, phase_eq_ratio hb hf, rateRatio_exact hb hf h]

theorem norm_cisC_sub_le (a b : ℝ) : ‖cisC a - cisC b‖ ≤ 2 * π * |a - b| := by
  have e : cisC a = cisC (a - b) * cisC b := by rw [← cisC_add, sub_add_cancel]
  rw [e, show cisC (a - b) * cisC b - cisC b = (cisC (a - b) - 1) * cisC b by ring, norm_mul, norm_cisC, mul_one]
  have h := Real.norm_exp_I_mul_ofReal_sub_one_le (x := 2 * π * (a - b))
  rw [Real.norm_eq_abs, abs_mul, abs_of_pos (by positivity : 0 < 2 * π)] at h
  have e' : cisC (a - b) = Complex.exp (Complex.I * ((2 * π * (a - b) : ℝ) : ℂ)) := by
    rw [cisC]; congr 1; push_cast; ring
  rwa [e']

/-- `theta` is close to the phase of R120 for every table index. -/
theorem theta_close {bw fs : XReal} (hb : 0 < realVal bw) (hf : 0 < realVal fs) {i : Nat} (hi : i < numOf bw fs) :
    |((theta 1 (rateRatio bw fs) i : Rat) : ℝ) - phase (realVal bw) (realVal fs) i| ≤ 1 / 2 ^ 112 := by
  have hr := (numRounded_isRound hb hf).1
  have hc := rateRatio_close hb hf
  rw [theta_val, phase_eq_ratio hb hf]
  have hn : ((i + 1 : Nat) : Int) ≤ numRounded bw fs := by rw [numOf] at hi; omega
  have hn' : ((i : ℝ)) + 1 ≤ numRounded bw fs := by exact_mod_cast hn
  rw [mul_div_assoc, abs_le] at hr
  have e2 : (2:ℝ) ^ Config.ratioBits = 2 ^ 128 := by norm_num [Config.ratioBits]
  rw [e2] at hc
  set x := realVal fs / realVal bw
  set q : ℝ := (rateRatio bw fs : ℝ)
  have hi0 : (0:ℝ) ≤ i := Nat.cast_nonneg i
  have hix : (i : ℝ) ≤ 128 * x := by linarith
  have hx : 1 / 256 ≤ x := by linarith
  have hd : |q - x| ≤ 1 / 2 ^ 129 := by
    rw [le_div_iff₀ (by positivity)]
    calc |q - x| * 2 ^ 129 = 2 * (2 ^ 128 * |q - x|) := by ring
      _ ≤ 1 := by linarith
  have hs : (1:ℝ) / 2 ^ 129 ≤ 1 / 512 := by norm_num
  have hd' := abs_le.mp hd
  have hq : x / 2 ≤ q := by linarith
  have hx0 : 0 < x := by linarith
  have hq0 : 0 < q := by linarith
  set u := q⁻¹ with hu
  set v := x⁻¹ with hv
  have hv0 : 0 < v := inv_pos.mpr hx0
  have hu0 : 0 < u := inv_pos.mpr hq0
  have hxv : x * v = 1 := mul_inv_cancel₀ hx0.ne'
  have hqu : q * u = 1 := mul_inv_cancel₀ hq0.ne'
  have hiv : i * v ≤ 128 := by
    calc i * v ≤ 128 * x * v := mul_le_mul_of_nonneg_right hix hv0.le
      _ = 128 := by rw [mul_assoc, hxv, mul_one]
  have huv : u ≤ 2 * v := by
    have : x / 2 * (u * v) ≤ q * (u * v) := mul_le_mul_of_nonneg_right hq (by positivity)
    have e1 : x / 2 * (u * v) = u / 2 := by linear_combination (u / 2) * hxv
    have e3 : q * (u * v) = v := by linear_combination v * hqu
    linarith
  have hv256 : v ≤ 256 := by
    have : 1 / 256 * v ≤ x * v := mul_le_mul_of_nonneg_right hx hv0.le
    linarith
  have hsub : u - v = (x - q) * (u * v) := by linear_combination (-u) * hxv + v * hqu
  have habs : |u - v| ≤ 1 / 2 ^ 129 * (u * v) := by
    rw [hsub, abs_mul, abs_of_pos (mul_pos hu0 hv0), abs_sub_comm]
    exact mul_le_mul_of_nonneg_right hd (by positivity)
  have e : -(i * u) / 2 + (i * u) ^ 2 / 256 - (-(i * v) / 2 + (i * v) ^ 2 / 256)
      = (u - v) * (-(i / 2) + i * (i * (u + v)) / 256) := by ring
  rw [e, abs_mul]
  have hiu : i * (u + v) ≤ 384 := by
    have : (i : ℝ) * (u + v) ≤ i * (3 * v) := mul_le_mul_of_nonneg_left (by linarith) hi0
    linarith
  have hk : |-((i : ℝ) / 2) + i * (i * (u + v)) / 256| ≤ 2 * i := by
    have h1 : (i : ℝ) * (i * (u + v)) ≤ i * 384 := mul_le_mul_of_nonneg_left hiu hi0
    have h2 : 0 ≤ (i : ℝ) * (i * (u + v)) := by positivity
    rw [abs_le]; constructor <;> linarith
  calc |u - v| * |-((i : ℝ) / 2) + i * (i * (u + v)) / 256|
      ≤ (1 / 2 ^ 129 * (u * v)) * (2 * i) := mul_le_mul habs hk (abs_nonneg _) (by positivity)
    _ = 1 / 2 ^ 128 * (u * (i * v)) := by ring
    _ ≤ 1 / 2 ^ 128 * (512 * 128) := by
        refine mul_le_mul_of_nonneg_left (mul_le_mul (by linarith) hiv (by positivity) (by norm_num)) (by positivity)
    _ ≤ 1 / 2 ^ 112 := by norm_num

end Sys2Proof.Machine
end

