-- ==== Sys2Proof/Laws/Tables.lean ====
section
/-! SUPPORT. The tables (`Machine/Tables.lean`): their lengths, their entries as complex numbers, and what a look-up in
`DEMAP` gives. -/

namespace Sys2Proof.Machine
open Real

@[simp] theorem upTable_length (bw fs : XReal) (num : Nat) : (upTable bw fs num).length = num := by simp [upTable]

@[simp] theorem downTable_length (up : List Sample) : (downTable up).length = up.length := by simp [downTable]

theorem upTable_getD (bw fs : XReal) (num i : Nat) (h : i < num) (z : Sample) :
    (upTable bw fs num).getD i z = cis (theta 1 (rateRatio bw fs) i) := by
  rw [List.getD_eq_getElem _ _ (by simpa using h)]
  simp [upTable]

/-- The entries of the up-chirp table, for rates whose ratio is held exactly or not. -/
theorem upTable_val (bw fs : XReal) {num i : Nat} (h : i < num) :
    cplxVal ((upTable bw fs num).getD i cplxZero) = cisC ((theta 1 (rateRatio bw fs) i : Rat) : ℝ) := by
  rw [upTable_getD _ _ _ _ h, cplxVal_cis]

/-- The up-chirp table is that of R120. -/
theorem isUpTable_upTable {bw fs : XReal} (hb : 0 < realVal bw) (hf : 0 < realVal fs) {n : Nat}
    (h : numRounded bw fs = n) : IsUpTable bw fs (upTable bw fs n) := by
  rw [IsUpTable, upTable_length]
  refine ⟨h ▸ numRounded_isRound hb hf, fun i hi => ?_⟩
  rw [upTable_val bw fs hi]
  have hn : i < numOf bw fs := by rw [numOf, h]; simpa using hi
  refine ⟨norm_cisC _, ?_, fun he => by rw [theta_eq_phase hb hf he]⟩
  have hc := theta_close hb hf hn
  calc _ ≤ 2 * π * _ := norm_cisC_sub_le _ _
    _ ≤ 2 * 4 * (1 / 2 ^ 112) :=
      mul_le_mul (by linarith [Real.pi_le_four]) hc (abs_nonneg _) (by norm_num)
    _ ≤ 1 / 2 ^ 100 := by norm_num

theorem downTable_getD (up : List Sample) (i : Nat) (h : i < up.length) (z : Sample) :
    (downTable up).getD i z = cplxConj (up.getD i z) := by
  rw [List.getD_eq_getElem _ _ (by simpa using h), List.getD_eq_getElem _ _ h]
  simp [downTable]

theorem RxInv.up_length {r : Rxu} (h : RxInv r) : r.up.length = r.num := by rw [h.up_eq, upTable_length]

theorem RxInv.down_length {r : Rxu} (h : RxInv r) : r.down.length = r.num := by
  rw [h.down_eq, downTable_length, h.up_length]

theorem TxInv.up_length {t : Txu} (h : TxInv t) : t.up.length = t.num := by rw [h.up_eq, upTable_length]

theorem demapTable_getD (k : Nat) (h : k < 128) : ((demapTable.getD k 0).toNat : Int) = (-(k : Int)) % 128 := by
  rw [List.getD_eq_getElem _ _ (by simpa [demapTable, Config.alphabet] using h)]
  simp only [demapTable, List.getElem_map, List.getElem_range]
  split
  · next h0 => subst h0; rfl
  · next h0 =>
    rw [BitVec.toNat_ofNat]
    omega

/-- A look-up in `DEMAP` gives `(-idx) mod 128` (R192). -/
theorem demapLookup_demapTable (idx : Int) : ((demapLookup demapTable idx).toNat : Int) = (-idx) % 128 := by
  rw [demapLookup, demapTable_getD]
  · rw [demapSlot, Config.alphabet]
    omega
  · rw [demapSlot, Config.alphabet]
    omega

end Sys2Proof.Machine
end

