-- ==== Sys2Proof/Laws/Correlator.lean ====
section
/-! SUPPORT. What the Correlator computes, in the real and complex numbers: `convolveAt` is the convolution of R160
(`convolveAt_val`), `PEAK` of it is the first maximum of its magnitudes (`peakOf_correlation`), and the peak of a window with its
DET is one that RXU may find (`windowPeak_spec`, `windowDet_spec`; U2, U3). -/

namespace Sys2Proof.Machine
open Real

theorem sum_zipIdx_eq (w : List Sample) (f : Sample → Nat → ℂ) (m : Nat) :
    ((w.zipIdx m).map fun p => f p.1 p.2).sum = ∑ k ∈ Finset.range w.length, f (w.getD k cplxZero) (m + k) := by
  induction w generalizing m with
  | nil => simp
  | cons x xs ih =>
    rw [List.zipIdx_cons, List.map_cons, List.sum_cons, ih, List.length_cons, Finset.sum_range_succ']
    rw [add_comm]
    congr 1
    refine Finset.sum_congr rfl fun k _ => ?_
    rw [List.getD_cons_succ, show m + 1 + k = m + (k + 1) by omega]

/-- The convolution of the model is that of R160. -/
theorem convolveAt_val (r : Rxu) (hd : r.down.length = r.num) (w : List Sample) (n : Nat) :
    cplxVal (convolveAt r.down w n) = convVal r w n := by
  rw [convolveAt, cplxVal_sum, List.map_map, convVal]
  have h := sum_zipIdx_eq w
    (fun x k => cplxVal (if k ≤ n then cplxMul x (r.down.getD (n - k) cplxZero) else cplxZero)) 0
  refine (Eq.trans ?_ h).trans ?_
  · rfl
  · refine Finset.sum_congr rfl fun k _ => ?_
    rw [Nat.zero_add]
    by_cases h1 : k ≤ n
    · by_cases h2 : n - k < r.num
      · rw [if_pos h1, if_pos ⟨h1, h2⟩, cplxVal_mul]
      · have h3 : r.down.getD (n - k) cplxZero = cplxZero := by
          rw [List.getD_eq_default]; omega
        rw [if_pos h1, if_neg (fun hc => h2 hc.2), cplxVal_mul, h3, cplxVal_cplxZero, mul_zero]
    · rw [if_neg h1, if_neg (fun hc => h1 hc.1), cplxVal_cplxZero]

@[simp] theorem correlation_length (num : Nat) (down w : List Sample) :
    (correlation num down w).length = w.length + num - 1 := by simp [correlation]

theorem correlation_getElem (num : Nat) (down w : List Sample) (n : Nat) (h : n < (correlation num down w).length) :
    (correlation num down w)[n] = magnitude (convolveAt down w n) := by simp [correlation]

/-- What `peakFrom` gives, when `best` is the first maximum of the `idx` entries `pre` before `l`. -/
theorem peakFrom_spec (l pre : List XReal) (best : XReal) (b : Nat) (hb : pre[b]? = some best)
    (hmax : ∀ (n : Nat) (x : XReal), pre[n]? = some x → realVal x ≤ realVal best)
    (hfirst : ∀ (n : Nat) (x : XReal), n < b → pre[n]? = some x → realVal x < realVal best) :
    ∃ v a, peakFrom best b pre.length l = (v, a) ∧ (pre ++ l)[a]? = some v ∧
      (∀ (n : Nat) (x : XReal), (pre ++ l)[n]? = some x → realVal x ≤ realVal v) ∧
      (∀ (n : Nat) (x : XReal), n < a → (pre ++ l)[n]? = some x → realVal x < realVal v) := by
  induction l generalizing pre best b with
  | nil =>
    rw [List.append_nil]
    exact ⟨best, b, rfl, hb, hmax, hfirst⟩
  | cons y ys ih =>
    have hsplit : pre ++ y :: ys = (pre ++ [y]) ++ ys := by simp
    have hlast : (pre ++ [y])[pre.length]? = some y := by simp
    have hcases : ∀ (n : Nat) (x : XReal), (pre ++ [y])[n]? = some x → pre[n]? = some x ∨ (n = pre.length ∧ x = y) := by
      intro n x hx
      rcases lt_or_ge n pre.length with h | h
      · left; rwa [List.getElem?_append_left h] at hx
      · right
        have hn : n < (pre ++ [y]).length := (List.getElem?_eq_some_iff.mp hx).1
        have : n = pre.length := by simp at hn; omega
        subst this
        rw [hlast] at hx
        exact ⟨rfl, (Option.some.inj hx).symm⟩
    have hlen : pre.length + 1 = (pre ++ [y]).length := by simp
    rw [hsplit, peakFrom, hlen]
    by_cases hlt : realLt best y = true
    · rw [if_pos hlt]
      have hlt' := (realLt_iff best y).mp hlt
      refine ih (pre ++ [y]) y pre.length hlast ?_ ?_
      · intro n x hx
        rcases hcases n x hx with h | ⟨-, rfl⟩
        · exact (hmax n x h).trans hlt'.le
        · exact le_rfl
      · intro n x hn hx
        rcases hcases n x hx with h | ⟨rfl, -⟩
        · exact (hmax n x h).trans_lt hlt'
        · exact absurd hn (lt_irrefl _)
    · rw [if_neg hlt]
      have hle : realVal y ≤ realVal best := not_lt.mp fun h => hlt ((realLt_iff best y).mpr h)
      have hbl : b < pre.length := (List.getElem?_eq_some_iff.mp hb).1
      refine ih (pre ++ [y]) best b (by rw [List.getElem?_append_left hbl]; exact hb) ?_ ?_
      · intro n x hx
        rcases hcases n x hx with h | ⟨-, rfl⟩
        · exact hmax n x h
        · exact hle
      · intro n x hn hx
        rcases hcases n x hx with h | ⟨rfl, -⟩
        · exact hfirst n x hn h
        · omega

/-- `PEAK` gives the maximum and the lowest index that has it (R161). -/
theorem peakOf_spec (l : List XReal) (h : l ≠ []) :
    ∃ v a, peakOf l = some (v, a) ∧ l[a]? = some v ∧ (∀ (n : Nat) (x : XReal), l[n]? = some x → realVal x ≤ realVal v) ∧
      (∀ (n : Nat) (x : XReal), n < a → l[n]? = some x → realVal x < realVal v) := by
  cases l with
  | nil => exact absurd rfl h
  | cons x xs =>
    obtain ⟨v, a, h1, h2, h3, h4⟩ := peakFrom_spec xs [x] x 0 rfl
      (by
        intro n y hy
        cases n with
        | zero => cases hy; exact le_rfl
        | succ n => simp at hy)
      (by intro n y hn; omega)
    exact ⟨v, a, congrArg some h1, h2, h3, h4⟩

/-- The peak that the model finds in a correlation is the one of R160 and R161. -/
theorem peakOf_correlation (r : Rxu) (hd : r.down.length = r.num) (hn : 0 < r.num) (w : List Sample) (hw : w ≠ []) :
    ∃ v a, peakOf (correlation r.num r.down w) = some (v, a) ∧ IsPeak r w (realVal v) a := by
  have hlen := correlation_length r.num r.down w
  have hwl : 0 < w.length := List.length_pos_iff.mpr hw
  obtain ⟨v, a, h1, h2, h3, h4⟩ := peakOf_spec (correlation r.num r.down w) (by
    intro h; rw [h] at hlen; simp at hlen; omega)
  have hget : ∀ n, n < w.length + r.num - 1 →
      ∃ x, (correlation r.num r.down w)[n]? = some x ∧ realVal x = ‖convVal r w n‖ := by
    intro n hn
    refine ⟨_, List.getElem?_eq_getElem (by rw [hlen]; exact hn), ?_⟩
    rw [correlation_getElem, realVal_magnitude, convolveAt_val r hd]
  have ha : a < w.length + r.num - 1 := by rw [← hlen]; exact (List.getElem?_eq_some_iff.mp h2).1
  refine ⟨v, a, h1, ha, ?_, ?_, ?_⟩
  · obtain ⟨x, hx, hv⟩ := hget a ha
    rw [h2] at hx
    rw [Option.some.inj hx, hv]
  · intro n hn
    obtain ⟨x, hx, hv⟩ := hget n hn
    rw [← hv]; exact h3 n x hx
  · intro n hn
    obtain ⟨x, hx, hv⟩ := hget n (hn.trans ha)
    rw [← hv]; exact h4 n x hn hx

/-- A sequence has one peak. -/
theorem IsPeak.unique {r : Rxu} {w : List Sample} {v v' : ℝ} {a a' : Nat} (h : IsPeak r w v a) (h' : IsPeak r w v' a') :
    v = v' ∧ a = a' := by
  have e : a = a' := by
    rcases lt_trichotomy a a' with hlt | he | hgt
    · have h1 := h'.2.2.2 a hlt
      have h2 := h.2.2.1 a' h'.1
      rw [← h.2.1] at h1
      rw [← h'.2.1] at h2
      linarith
    · exact he
    · have h1 := h.2.2.2 a' hgt
      have h2 := h'.2.2.1 a h.1
      rw [← h'.2.1] at h1
      rw [← h.2.1] at h2
      linarith
  subst e
  exact ⟨h.2.1.trans h'.2.1.symm, rfl⟩

/-! ## The peak of a window with its DET -/

/-- The unit's rates and tables are as construction gives them; the steps change none of them. -/
structure TablesOk (r : Rxu) : Prop where
  /-- `BW > 0` -/
  bw_pos : 0 < realVal r.cfg.bw
  /-- `fs > 0` -/
  fs_pos : 0 < realVal r.cfg.fs
  /-- `num > 0` -/
  num_pos : 0 < r.num
  /-- `DOWN` has `num` entries -/
  down_length : r.down.length = r.num
  /-- `DEMAP` is the table of R25 -/
  demap_eq : r.demap = demapTable

theorem RxInv.tablesOk {r : Rxu} (h : RxInv r) : TablesOk r :=
  ⟨h.bw_pos, h.fs_pos, h.num_pos, h.down_length, h.demap_eq⟩

theorem termSum_nonneg (ts : List Term) : 0 ≤ termSum ts := by
  induction ts with
  | nil => exact le_rfl
  | cons t ts ih => rw [termSum]; split <;> linarith

theorem windowSum_nonneg (w : List Sample) : 0 ≤ windowSum w := by
  induction w with
  | nil => exact le_rfl
  | cons x xs ih => rw [windowSum]; have := termSum_nonneg x.terms; linarith

/-- `tolerance` is the error bound where the ratio of the rates is irrational, and 0 elsewhere. -/
theorem tolerance_cases {r : Rxu} (h : TablesOk r) (w : List Sample) :
    (ExactRates r.cfg.bw r.cfg.fs ∧ tolerance r.cfg.bw r.cfg.fs w = 0) ∨
      (¬ExactRates r.cfg.bw r.cfg.fs ∧ ((tolerance r.cfg.bw r.cfg.fs w : Rat) : ℝ) = errorBound w) := by
  rw [← exactRates_iff h.bw_pos h.fs_pos, tolerance]
  by_cases he : exactRates r.cfg.bw r.cfg.fs = true
  · exact .inl ⟨he, if_pos he⟩
  · refine .inr ⟨he, ?_⟩
    rw [if_neg he, errorBound, Config.toleranceBits]; push_cast; rfl

theorem tolerance_nonneg (bw fs : XReal) (w : List Sample) : 0 ≤ tolerance bw fs w := by
  rw [tolerance]
  split
  · exact le_rfl
  · have := windowSum_nonneg w; positivity

/-- `farBelow` compares the squares of the magnitudes. -/
theorem farBelow_iff {e : Rat} (he : 0 ≤ e) (x y : Cplx) :
    farBelow e x y = true ↔ ‖cplxVal x‖ ^ 2 + e < ‖cplxVal y‖ ^ 2 := by
  have hsq : ∀ z : ℂ, z * (starRingEnd ℂ) z = ((‖z‖ ^ 2 : ℝ) : ℂ) := fun z => by
    rw [Complex.mul_conj, Complex.normSq_eq_norm_sq]
  have he' : (0:ℝ) ≤ e := by exact_mod_cast he
  rw [farBelow, cmpAbs_lt_iff, cplxVal_add, cplxVal_mul, cplxVal_mul, cplxVal_conj, cplxVal_conj, cplxVal_ofRat, hsq, hsq,
    show ((e : ℚ) : ℂ) = ((e : ℝ) : ℂ) by push_cast; rfl, ← Complex.ofReal_add, Complex.norm_real, Complex.norm_real,
    Real.norm_of_nonneg (by positivity), Real.norm_of_nonneg (by positivity)]

/-- The peak that the model finds in a window is one that RXU may find. -/
theorem windowPeak_spec (r : Rxu) (h : TablesOk r) (w : List Sample) (hw : w ≠ []) :
    ∃ v a, windowPeak r w = some (v, a) ∧ MayPeak r w (realVal v) a := by
  obtain ⟨v, a, hp, hk⟩ := peakOf_correlation r h.down_length h.num_pos w hw
  rw [windowPeak, hp]
  dsimp only
  split
  · exact ⟨v, a, rfl, .inl hk⟩
  · next he =>
    obtain ⟨-, ht⟩ | ⟨hx, ht⟩ := tolerance_cases h w
    · exact absurd ht he
    set e := tolerance r.cfg.bw r.cfg.fs w
    set near := nearPeaks e (correlation r.num r.down w) v
    set k := Config.nearPeak r.cfg.bw r.cfg.fs w % near.length
    have hmem : near.getD k (v, a) ∈ near ∨ near.getD k (v, a) = (v, a) := by
      by_cases hlt : k < near.length
      · rw [List.getD_eq_getElem _ _ hlt]; exact .inl (List.getElem_mem hlt)
      · exact .inr (List.getD_eq_default _ _ (not_lt.mp hlt))
    refine ⟨(near.getD k (v, a)).1, (near.getD k (v, a)).2, rfl, ?_⟩
    generalize near.getD k (v, a) = p at hmem
    rcases hmem with hmem | rfl
    · obtain ⟨x, n⟩ := p
      obtain ⟨hz, hfar⟩ := List.mem_filter.mp hmem
      have hget : (correlation r.num r.down w)[n]? = some x := List.mem_zipIdx_iff_getElem?.mp hz
      obtain ⟨hn, hxn⟩ := List.getElem?_eq_some_iff.mp hget
      rw [correlation_getElem] at hxn
      rw [correlation_length] at hn
      have hval : realVal x = ‖convVal r w n‖ := by rw [← hxn, realVal_magnitude, convolveAt_val r h.down_length]
      refine .inr ⟨hx, hn, hval, fun m hm => ?_⟩
      have hfar' : ¬(‖cplxVal x.abs‖ ^ 2 + e < ‖cplxVal v.abs‖ ^ 2) := by
        rw [← farBelow_iff (tolerance_nonneg _ _ _)]
        simpa using hfar
      have hsq : ∀ z : XReal, realVal z ^ 2 = ‖cplxVal z.abs‖ ^ 2 := fun z => by rw [realVal]; split <;> ring
      have hle : ‖convVal r w m‖ ^ 2 ≤ realVal v ^ 2 := pow_le_pow_left₀ (norm_nonneg _) (hk.2.2.1 m hm) 2
      rw [← hsq, ← hsq, ht] at hfar'
      exact hle.trans (not_lt.mp hfar')
    · exact .inl hk

/-- The model's DET is one that RXU may have. -/
theorem windowDet_spec (r : Rxu) (h : TablesOk r) (w : List Sample) (v : XReal) :
    (windowDet r w v = true → MayDetect r w (realVal v)) ∧ (windowDet r w v = false → MayMiss r w (realVal v)) := by
  rw [windowDet]
  split
  · next hc =>
    obtain ⟨he, hn⟩ := hc
    obtain ⟨-, ht⟩ | ⟨hx, ht⟩ := tolerance_cases h w
    · exact absurd ht he
    have he0 := tolerance_nonneg r.cfg.bw r.cfg.fs w
    simp only [isNearThreshold, Bool.and_eq_true, Bool.not_eq_true', Bool.eq_false_iff, ne_eq, realLt_iff, realVal_ofRat,
      farBelow_iff he0, not_lt, Rat.cast_zero] at hn
    obtain ⟨⟨h1, h2⟩, h3⟩ := hn
    have hsq : ∀ z : XReal, realVal z ^ 2 = ‖cplxVal z.abs‖ ^ 2 := fun z => by rw [realVal]; split <;> ring
    rw [← hsq, ← hsq, ht] at h2 h3
    have hnear : NearThreshold r w (realVal v) := by
      refine ⟨hx, h1, ?_⟩
      rw [thresholdVal, abs_le]
      constructor <;> linarith
    exact ⟨fun _ => .inr hnear, fun _ => .inr hnear⟩
  · refine ⟨fun hd => .inl ((det_iff _ _).mp hd), fun hd => .inl (not_lt.mp fun hlt => ?_)⟩
    rw [(det_iff _ _).mpr hlt] at hd
    exact Bool.noConfusion hd

/-! ## Windows that leave no choice -/

theorem IsPeak.may {r : Rxu} {w : List Sample} {v : ℝ} {a : Nat} (h : IsPeak r w v a) : MayPeak r w v a := .inl h

/-- There is a first maximum. -/
theorem exists_isPeak (r : Rxu) (w : List Sample) (h : 0 < w.length + r.num - 1) : ∃ v a, IsPeak r w v a := by
  set f : ℕ → ℝ := fun n => ‖convVal r w n‖
  obtain ⟨m, hm, hmax⟩ := (Finset.range (w.length + r.num - 1)).exists_max_image f ⟨0, Finset.mem_range.mpr h⟩
  have hex : ∃ n, n < w.length + r.num - 1 ∧ f n = f m := ⟨m, Finset.mem_range.mp hm, rfl⟩
  classical
  obtain ⟨hlt, heq⟩ := Nat.find_spec hex
  have hle : ∀ n < w.length + r.num - 1, f n ≤ f (Nat.find hex) := fun n hn => by
    rw [heq]; exact hmax n (Finset.mem_range.mpr hn)
  refine ⟨f (Nat.find hex), Nat.find hex, hlt, rfl, hle, fun n hn => ?_⟩
  refine lt_of_le_of_ne (hle n (hn.trans hlt)) fun he => Nat.find_min hex hn ⟨hn.trans hlt, he.trans heq⟩

theorem MayPeak.index_lt {r : Rxu} {w : List Sample} {v : ℝ} {a : Nat} (h : MayPeak r w v a) :
    a < w.length + r.num - 1 := h.elim (fun h => h.1) fun h => h.2.1

/-- Where a window leaves no choice, the peak that RXU may find is the first maximum. -/
theorem MayPeak.eq_of_isPeak {r : Rxu} {w : List Sample} (hn : NoNearTie r w) {v v' : ℝ} {a a' : Nat}
    (h : MayPeak r w v a) (h' : IsPeak r w v' a') : v = v' ∧ a = a' := by
  rcases h with h | ⟨hx, ha, hv, hmax⟩
  · exact h.unique h'
  · rcases hn with he | hn
    · exact absurd he hx
    · by_cases e : a = a'
      · subst e; exact ⟨hv.trans h'.2.1.symm, rfl⟩
      · have h1 := (hn v' a' h').2 a ha e
        have h2 := hmax a' h'.1
        rw [← hv] at h1
        rw [← h'.2.1] at h2
        exact absurd h1 (not_lt.mpr h2)

/-- A window that leaves no choice has one peak. -/
theorem MayPeak.unique {r : Rxu} {w : List Sample} (hn : NoNearTie r w) {v v' : ℝ} {a a' : Nat} (h : MayPeak r w v a)
    (h' : MayPeak r w v' a') : v = v' ∧ a = a' := by
  obtain ⟨u, b, hp⟩ := exists_isPeak r w (by have := h.index_lt; omega)
  obtain ⟨rfl, rfl⟩ := h.eq_of_isPeak hn hp
  obtain ⟨rfl, rfl⟩ := h'.eq_of_isPeak hn hp
  exact ⟨rfl, rfl⟩

/-- Where a window leaves no choice, its peak is not near the threshold. -/
theorem MayPeak.not_nearThreshold {r : Rxu} {w : List Sample} (hn : NoNearTie r w) {v : ℝ} {a : Nat}
    (h : MayPeak r w v a) : ¬NearThreshold r w v := by
  obtain ⟨u, b, hp⟩ := exists_isPeak r w (by have := h.index_lt; omega)
  obtain ⟨rfl, rfl⟩ := h.eq_of_isPeak hn hp
  exact hn.elim (fun he hc => hc.1 he) fun hn => (hn _ _ hp).1

theorem MayPeak.mayDetect_iff {r : Rxu} {w : List Sample} (hn : NoNearTie r w) {v : ℝ} {a : Nat} (h : MayPeak r w v a) :
    MayDetect r w v ↔ thresholdVal r < v := or_iff_left (h.not_nearThreshold hn)

theorem MayPeak.mayMiss_iff {r : Rxu} {w : List Sample} (hn : NoNearTie r w) {v : ℝ} {a : Nat} (h : MayPeak r w v a) :
    MayMiss r w v ↔ v ≤ thresholdVal r := or_iff_left (h.not_nearThreshold hn)

/-- Where a window leaves no choice, a peak is a detection or not. -/
theorem MayPeak.not_both {r : Rxu} {w : List Sample} (hn : NoNearTie r w) {v : ℝ} {a : Nat} (h : MayPeak r w v a)
    (h1 : MayMiss r w v) : ¬MayDetect r w v := by
  rw [h.mayDetect_iff hn]
  exact not_lt.mpr ((h.mayMiss_iff hn).mp h1)

theorem IsPeak.neverDetects {r : Rxu} {w : List Sample} (hn : NoNearTie r w) {v : ℝ} {a : Nat} (h : IsPeak r w v a)
    (hv : v ≤ thresholdVal r) : NeverDetects r w := by
  intro v' a' h'
  obtain ⟨rfl, rfl⟩ := h'.eq_of_isPeak hn h
  exact h'.not_both hn (.inl hv)

theorem IsPeak.detectsAt {r : Rxu} {w : List Sample} (hn : NoNearTie r w) {v : ℝ} {a : Nat} (h : IsPeak r w v a)
    (hv : thresholdVal r < v) : DetectsAt r w a := by
  intro v' a' h'
  obtain ⟨rfl, rfl⟩ := h'.eq_of_isPeak hn h
  exact ⟨rfl, fun hm => h'.not_both hn hm (.inl hv)⟩

end Sys2Proof.Machine
end

