-- ==== Sys2Proof/Laws/Decode.lean ====
section
/-! SUPPORT. The decoder and the encoder on sequences (`narrowAll`, `widenAll`), and what `decodeCmd` can answer. -/

namespace Sys2Proof

@[simp] theorem narrow_toNat {w : Nat} (b : BitVec w) : narrow w b.toNat = .ok b := by
  rw [narrow, if_pos b.isLt]; simp

theorem narrow_eq_ok {w n : Nat} {b : BitVec w} (h : narrow w n = .ok b) : b.toNat = n := by
  rw [narrow] at h
  split at h
  · next hn => cases h; simp [Nat.mod_eq_of_lt hn]
  · cases h

theorem narrow_of_le {w n : Nat} (h : 2 ^ w ≤ n) : narrow w n = .error .operandRange := by
  rw [narrow, if_neg (by omega)]

/-- A sequence written as natural numbers is read back. -/
@[simp] theorem narrowAll_widenAll {w : Nat} (bs : List (BitVec w)) : narrowAll w (widenAll bs) = .ok bs := by
  induction bs with
  | nil => rfl
  | cons b bs ih =>
    rw [widenAll] at ih
    rw [widenAll, List.map_cons, narrowAll, narrow_toNat, ih]

/-- Only a sequence within its width is read. -/
theorem narrowAll_eq_ok {w : Nat} {ns : List Nat} {bs : List (BitVec w)} (h : narrowAll w ns = .ok bs) : widenAll bs = ns := by
  induction ns generalizing bs with
  | nil => cases h; rfl
  | cons n ns ih =>
    rw [narrowAll] at h
    split at h
    · cases h
    · next b hb =>
      split at h
      · cases h
      · next bs' hbs =>
        cases h
        have := ih hbs
        rw [widenAll] at this
        rw [widenAll, List.map_cons, this, narrow_eq_ok hb]

/-- A sequence with a member beyond its width is refused. -/
theorem narrowAll_of_le {w : Nat} {ns : List Nat} {n : Nat} (hm : n ∈ ns) (h : 2 ^ w ≤ n) :
    narrowAll w ns = .error .operandRange := by
  induction ns with
  | nil => cases hm
  | cons m ms ih =>
    rw [narrowAll]
    by_cases hmw : 2 ^ w ≤ m
    · rw [narrow_of_le hmw]
    · have : narrow w m = .ok (BitVec.ofNat w m) := by rw [narrow, if_pos (by omega)]
      rw [this]
      rcases List.mem_cons.mp hm with rfl | hm'
      · exact absurd h hmw
      · rw [ih hm']

theorem ofNonEmpty_eq_ok {α : Type} {make : List α → Instr} {l : List α} {i : Instr} (h : ofNonEmpty make l = .ok i) :
    nonEmpty l = true ∧ i = make l := by
  rw [ofNonEmpty] at h
  split at h
  · next hl => cases h; exact ⟨hl, rfl⟩
  · cases h

theorem ofNarrow_eq_ok {w : Nat} {make : BitVec w → Instr} {n : Nat} {i : Instr} (h : ofNarrow w make n = .ok i) :
    ∃ b : BitVec w, b.toNat = n ∧ i = make b := by
  rw [ofNarrow] at h
  split at h
  · cases h
  · next b hb => cases h; exact ⟨b, narrow_eq_ok hb, rfl⟩

theorem ofNarrowAll_eq_ok {w : Nat} {make : List (BitVec w) → Instr} {ns : List Nat} {i : Instr}
    (h : ofNarrowAll w make ns = .ok i) : ∃ bs : List (BitVec w), widenAll bs = ns ∧ i = make bs := by
  rw [ofNarrowAll] at h
  split at h
  · cases h
  · next bs hb => cases h; exact ⟨bs, narrowAll_eq_ok hb, rfl⟩

/-- What is decoded from a call is an operation of the table of R93 with its own command word. -/
theorem decodeCmd_eq_ok {c : Call} {i : Instr} (h : decodeCmd c = .ok i) :
    assigned c.cmd.toNat = true ∧ decodeArgs c.cmd.toNat c.args = .ok i := by
  rw [decodeCmd] at h
  split at h
  · cases h
  · split at h
    · next ha => exact ⟨ha, h⟩
    · cases h

/-- A command word never gives a step of the receiver or a symbol class: those are reached inside `RX_CHUNK` (R93). -/
theorem decodeCmd_isCommand {c : Call} {i : Instr} (h : decodeCmd c = .ok i) :
    Machine.isRxCall i = true ∨ Machine.isTxCall i = true ∨ Machine.isProbe i = true := by
  obtain ⟨-, hd⟩ := decodeCmd_eq_ok h
  clear h
  unfold decodeArgs at hd
  split at hd
  case h_3 => exact (ofNonEmpty_eq_ok hd).2 ▸ Or.inl rfl
  case h_5 => obtain ⟨_, -, rfl⟩ := ofNarrowAll_eq_ok hd; exact Or.inr (Or.inl rfl)
  case h_9 => obtain ⟨_, -, rfl⟩ := ofNarrow_eq_ok hd; exact Or.inr (Or.inr rfl)
  case h_10 => obtain ⟨_, -, rfl⟩ := ofNarrowAll_eq_ok hd; exact Or.inr (Or.inr rfl)
  case h_11 => exact (ofNonEmpty_eq_ok hd).2 ▸ Or.inr (Or.inr rfl)
  case h_12 => exact (ofNonEmpty_eq_ok hd).2 ▸ Or.inr (Or.inr rfl)
  case h_13 => exact (ofNonEmpty_eq_ok hd).2 ▸ Or.inr (Or.inr rfl)
  case h_15 => obtain ⟨_, -, rfl⟩ := ofNarrow_eq_ok hd; exact Or.inr (Or.inr rfl)
  case h_16 => obtain ⟨_, -, rfl⟩ := ofNarrow_eq_ok hd; exact Or.inr (Or.inr rfl)
  case h_17 => obtain ⟨_, -, rfl⟩ := ofNarrowAll_eq_ok hd; exact Or.inr (Or.inr rfl)
  case h_18 => obtain ⟨_, -, rfl⟩ := ofNarrowAll_eq_ok hd; exact Or.inr (Or.inr rfl)
  case h_19 => cases hd
  all_goals
    cases hd
    first
    | exact Or.inl rfl
    | exact Or.inr (Or.inl rfl)
    | exact Or.inr (Or.inr rfl)

end Sys2Proof
end

