-- ==== Sys2Proof/Laws/Demodulator.lean ====
section
/-! SUPPORT. What the Demodulator computes: `DECHIRP` gives a symbol of the relation `Dechirps` (`dechirp_spec`), the
classes of a symbol,
and the bytes of symbol pairs by their places (`pairBytes_getElem?`). -/

namespace Sys2Proof.Machine
open Real

theorem demapIndex_isRound (num a : Nat) : IsRound (((a : ℝ) - num) * 128 / num) (demapIndex num a) := by
  have h := roundEven_isRound ((((a : Int) - num) * 128 : Int) / (num : Rat))
  have e : (((((a : Int) - num) * 128 : Int) / (num : Rat) : Rat) : ℝ) = ((a : ℝ) - num) * 128 / num := by push_cast; rfl
  rwa [e] at h

/-- `DECHIRP` gives a symbol of R190. -/
theorem dechirp_spec (r : Rxu) (h : TablesOk r) (w : List Sample) (hw : w ≠ []) :
    ∃ y, dechirp r w = some y ∧ Dechirps r w y := by
  obtain ⟨v, a, hp, hk⟩ := windowPeak_spec r h w hw
  obtain ⟨ht, hf⟩ := windowDet_spec r h w v
  rw [dechirp, hp]
  by_cases hd : windowDet r w v = true
  · refine ⟨_, if_pos hd, realVal v, a, hk, Or.inr ⟨ht hd, demapIndex r.num a, demapIndex_isRound _ _, ?_⟩⟩
    rw [h.demap_eq, demapLookup_demapTable]
  · exact ⟨_, if_neg hd, realVal v, a, hk, Or.inl ⟨hf (Bool.eq_false_iff.mpr hd), rfl⟩⟩

/-- A window that leaves no choice has one symbol. -/
theorem Dechirps.unique {r : Rxu} {w : List Sample} {y y' : Symbol} (hn : NoNearTie r w) (h : Dechirps r w y)
    (h' : Dechirps r w y') : y = y' := by
  obtain ⟨v, a, hk, hc⟩ := h
  obtain ⟨v', a', hk', hc'⟩ := h'
  obtain ⟨rfl, rfl⟩ := hk.unique hn hk'
  rcases hc with ⟨h1, rfl⟩ | ⟨h1, i, hi, hy⟩ <;> rcases hc' with ⟨h2, rfl⟩ | ⟨h2, i', hi', hy'⟩
  · rfl
  · exact absurd h2 (hk.not_both hn h1)
  · exact absurd h1 (hk.not_both hn h2)
  · rw [hi.unique hi', ← hy'] at hy
    exact BitVec.eq_of_toNat_eq (by exact_mod_cast hy)

theorem classify_abort : classify Config.symAbort = .abort := by decide

theorem classify_term : classify Config.symTerm = .term := by decide

theorem classify_data (y : Symbol) (h1 : y ≠ Config.symTerm) (h2 : y ≠ Config.symAbort) : classify y = .data y := by
  rw [classify, if_neg h2, if_neg h1]

@[simp] theorem pairBytes_length (h : Bool) (d k : Nat) : ∀ syms : List Symbol,
    (pairBytes h d k syms).length = syms.length / 2
  | [] => rfl
  | [_] => by simp [pairBytes]
  | a :: b :: rest => by
    rw [pairBytes, List.length_cons, pairBytes_length h d (k + 1) rest, List.length_cons, List.length_cons]; omega

/-- The byte of place `n` comes from the symbols `2n` and `2n + 1` (R85, R194). -/
theorem pairBytes_getElem? (h : Bool) (d k : Nat) : ∀ (syms : List Symbol) (n : Nat), 2 * n + 1 < syms.length →
    (pairBytes h d k syms)[n]? = some (if h then pairFec (syms.getD (2 * n) 0) (syms.getD (2 * n + 1) 0)
      else pairRaw (Config.freeByte d (k + n)) (syms.getD (2 * n) 0) (syms.getD (2 * n + 1) 0))
  | [], n, hn => by simp at hn
  | [_], n, hn => by simp at hn
  | a :: b :: rest, 0, _ => by rw [pairBytes]; simp
  | a :: b :: rest, n + 1, hn => by
    have hl : 2 * n + 1 < rest.length := by
      rw [List.length_cons, List.length_cons] at hn; omega
    rw [pairBytes, List.getElem?_cons_succ, pairBytes_getElem? h d (k + 1) rest n hl]
    have e1 : 2 * (n + 1) = 2 * n + 1 + 1 := by ring
    rw [e1, List.getD_cons_succ, List.getD_cons_succ, List.getD_cons_succ, List.getD_cons_succ,
      show k + 1 + n = k + (n + 1) by omega]

theorem pairFec_toNat (a b : Symbol) : (pairFec a b).toNat = (hammingDecode a).toNat * 16 + (hammingDecode b).toNat := by
  rw [pairFec, BitVec.toNat_append, Nat.shiftLeft_eq, ← Nat.shiftLeft_eq, ← Nat.shiftLeft_add_eq_or_of_lt (hammingDecode b).isLt,
    Nat.shiftLeft_eq]

theorem pairRaw_toNat (d : Byte) (a b : Symbol) (ha : a.toNat ≤ 15) (hb : b.toNat ≤ 15) :
    (pairRaw d a b).toNat = a.toNat * 16 + b.toNat := by
  have h1 : isNibble a = true := by simpa [isNibble, BitVec.le_def] using ha
  have h2 : isNibble b = true := by simpa [isNibble, BitVec.le_def] using hb
  have e1 : (a.extractLsb' 0 4).toNat = a.toNat := by rw [BitVec.extractLsb'_toNat]; simp; omega
  have e2 : (b.extractLsb' 0 4).toNat = b.toNat := by rw [BitVec.extractLsb'_toNat]; simp; omega
  rw [pairRaw, h1, h2, Bool.and_self, if_pos rfl, BitVec.toNat_append, ← Nat.shiftLeft_add_eq_or_of_lt (b.extractLsb' 0 4).isLt,
    Nat.shiftLeft_eq, e1, e2]

/-- The bytes that `MSG_OF` forms are a message of its symbols (R194 to R198), whatever the draws. -/
theorem isMessage_messageBytes (d : Nat) (h : Bool) (y : List Symbol) : IsMessage h y (messageBytes d h y) := by
  refine ⟨pairBytes h d 0 y, pairBytes_length _ _ _ _, fun k hk => ?_, rfl⟩
  rw [pairBytes_length] at hk
  have hg : (pairBytes h d 0 y).getD k 0 = _ :=
    (congrArg (fun o => Option.getD o 0) (pairBytes_getElem? h d 0 y k (by omega)))
  rw [PairByte]
  cases h with
  | true => rw [if_pos rfl]; exact (congrArg BitVec.toNat hg).trans (pairFec_toNat _ _)
  | false => intro h1 h2; exact (congrArg BitVec.toNat hg).trans (pairRaw_toNat _ _ _ h1 h2)

end Sys2Proof.Machine
end

