-- ==== Sys2Proof/Laws/Modulator.lean ====
section
/-! SUPPORT. What the Modulator's parts are, place by place: the shifted table (`chirpOf_getElem?`), the symbols of a payload
(`symsOf_getElem?`), and the parts of a frame. -/

namespace Sys2Proof.Machine

theorem symbolOffset_lt (num : Nat) (y : Symbol) (h : 0 < num) : symbolOffset num y < num := by
  rw [symbolOffset, Config.alphabet]
  have := y.isLt
  rw [Nat.div_lt_iff_lt_mul (by omega)]
  exact Nat.mul_lt_mul_of_pos_left (by omega) h

theorem chirpOf_length {up : List Sample} {num : Nat} (hl : up.length = num) (h : 0 < num) (y : Symbol) :
    (chirpOf up num y).length = num := by
  have := symbolOffset_lt num y h
  simp only [chirpOf, bufHead, bufDrop, doubled, List.length_take, List.length_drop, List.length_append]
  omega

/-- Sample `k` of the shifted table (R140). -/
theorem chirpOf_getElem? {up : List Sample} {num : Nat} (hl : up.length = num) (y : Symbol) (k : Nat) (hk : k < num) :
    (chirpOf up num y)[k]? = some (up.getD ((symbolOffset num y + k) % num) cplxZero) := by
  have h0 : 0 < num := by omega
  have := symbolOffset_lt num y h0
  rw [chirpOf, bufHead, bufDrop, doubled, List.getElem?_take_of_lt hk, List.getElem?_drop]
  rcases lt_or_ge (symbolOffset num y + k) num with h | h
  · rw [List.getElem?_append_left (by omega), Nat.mod_eq_of_lt h, List.getD_eq_getElem _ _ (by omega),
      List.getElem?_eq_getElem]
  · have e : (symbolOffset num y + k) % num = symbolOffset num y + k - num := by
      rw [Nat.mod_eq_sub_mod h, Nat.mod_eq_of_lt (by omega)]
    subst hl
    rw [List.getElem?_append_right (by omega), e, List.getD_eq_getElem _ _ (by omega), List.getElem?_eq_getElem]

/-- Symbol 0 gives the unshifted table (R140). -/
theorem chirpOf_zero {up : List Sample} {num : Nat} (hl : up.length = num) : chirpOf up num 0 = up := by
  simp [chirpOf, symbolOffset, bufHead, bufDrop, doubled, ← hl]

@[simp] theorem symsOf_nil (h : Bool) : symsOf h [] = [] := rfl

@[simp] theorem symsOf_cons (h : Bool) (b : Byte) (p : List Byte) :
    symsOf h (b :: p) = symbolOfNibble h (highNibble b) :: symbolOfNibble h (lowNibble b) :: symsOf h p := rfl

@[simp] theorem symsOf_length (h : Bool) (p : List Byte) : (symsOf h p).length = 2 * p.length := by
  induction p with
  | nil => rfl
  | cons b p ih => rw [symsOf_cons, List.length_cons, List.length_cons, ih, List.length_cons]; omega

/-- The two symbols of the byte of place `k` (R82, R141). -/
theorem symsOf_getElem? (h : Bool) (p : List Byte) (k : Nat) (hk : k < p.length) :
    (symsOf h p)[2 * k]? = some (symbolOfNibble h (highNibble (p.getD k 0))) ∧
    (symsOf h p)[2 * k + 1]? = some (symbolOfNibble h (lowNibble (p.getD k 0))) := by
  induction p generalizing k with
  | nil => simp at hk
  | cons b p ih =>
    cases k with
    | zero => exact ⟨rfl, rfl⟩
    | succ k =>
      have := ih k (by simpa using hk)
      rw [symsOf_cons, show 2 * (k + 1) = 2 * k + 1 + 1 by ring, List.getElem?_cons_succ, List.getElem?_cons_succ,
        List.getElem?_cons_succ, List.getElem?_cons_succ, List.getD_cons_succ]
      exact this

/-- Place `j * n + k` of parts of length `n` joined together is place `k` of part `j`. -/
theorem flatMap_getElem? {α β : Type} (f : α → List β) (n : Nat) (l : List α) (hf : ∀ x ∈ l, (f x).length = n) (j k : Nat)
    (hk : k < n) : (l.flatMap f)[j * n + k]? = (l[j]?).bind fun x => (f x)[k]? := by
  induction l generalizing j with
  | nil => simp
  | cons x xs ih =>
    have hx := hf x (List.mem_cons_self ..)
    rw [List.flatMap_cons]
    cases j with
    | zero => rw [Nat.zero_mul, Nat.zero_add, List.getElem?_append_left (by omega)]; rfl
    | succ j =>
      have hm : (j + 1) * n + k = n + (j * n + k) := by ring
      rw [hm, List.getElem?_append_right (by omega), List.getElem?_cons_succ, hx, Nat.add_sub_cancel_left,
        ih (fun y hy => hf y (List.mem_cons_of_mem _ hy))]

theorem flatMap_length {α β : Type} (f : α → List β) (n : Nat) (l : List α) (hf : ∀ x ∈ l, (f x).length = n) :
    (l.flatMap f).length = l.length * n := by
  induction l with
  | nil => simp
  | cons x xs ih =>
    rw [List.flatMap_cons, List.length_append, hf x (List.mem_cons_self ..), ih fun y hy => hf y (List.mem_cons_of_mem _ hy),
      List.length_cons]
    ring

/-- A frame is made of five parts: four copies of the table, the symbols, the terminator and the guard (R86, R142). -/
theorem buildFrame_eq (up : List Sample) (num : Nat) (h : Bool) (p : List Byte) :
    buildFrame up num h p = (List.replicate 4 0).flatMap (fun _ : Nat => up)
      ++ ((symsOf h p).flatMap (chirpOf up num) ++ (chirpOf up num Config.symTerm ++ List.replicate 8192 cplxZero)) := by
  simp only [buildFrame, List.append_assoc, Config.preambleReps, Config.guardLen]
  rfl

end Sys2Proof.Machine
end

