-- ==== Sys2Proof/Laws/State.lean ====
section
/-! SUPPORT. The fields of the state after each update: one lemma for each field, so that no later proof unfolds a record
update. -/

namespace Sys2Proof.Machine

/-! ## `RETURN_TO_LISTENING` (R176) -/
@[simp] theorem returnToListening_cfg (r : Rxu) : (returnToListening r).cfg = r.cfg := rfl
@[simp] theorem returnToListening_num (r : Rxu) : (returnToListening r).num = r.num := rfl
@[simp] theorem returnToListening_expectedBias (r : Rxu) : (returnToListening r).expectedBias = r.expectedBias := rfl
@[simp] theorem returnToListening_up (r : Rxu) : (returnToListening r).up = r.up := rfl
@[simp] theorem returnToListening_down (r : Rxu) : (returnToListening r).down = r.down := rfl
@[simp] theorem returnToListening_demap (r : Rxu) : (returnToListening r).demap = r.demap := rfl
@[simp] theorem returnToListening_rxState (r : Rxu) : (returnToListening r).rxState = listening := rfl
@[simp] theorem returnToListening_matchCnt (r : Rxu) : (returnToListening r).matchCnt = 0 := rfl
@[simp] theorem returnToListening_sampleBuf (r : Rxu) : (returnToListening r).sampleBuf = [] := rfl
@[simp] theorem returnToListening_symBuf (r : Rxu) : (returnToListening r).symBuf = [] := rfl

@[simp] theorem returnToListening_eq_cleared (r : Rxu) : returnToListening r = cleared r := rfl
@[simp] theorem cleared_cfg (r : Rxu) : (cleared r).cfg = r.cfg := rfl
@[simp] theorem cleared_num (r : Rxu) : (cleared r).num = r.num := rfl
@[simp] theorem cleared_expectedBias (r : Rxu) : (cleared r).expectedBias = r.expectedBias := rfl
@[simp] theorem cleared_up (r : Rxu) : (cleared r).up = r.up := rfl
@[simp] theorem cleared_down (r : Rxu) : (cleared r).down = r.down := rfl
@[simp] theorem cleared_demap (r : Rxu) : (cleared r).demap = r.demap := rfl
@[simp] theorem cleared_rxState (r : Rxu) : (cleared r).rxState = 0 := rfl
@[simp] theorem cleared_matchCnt (r : Rxu) : (cleared r).matchCnt = 0 := rfl
@[simp] theorem cleared_sampleBuf (r : Rxu) : (cleared r).sampleBuf = [] := rfl
@[simp] theorem cleared_symBuf (r : Rxu) : (cleared r).symBuf = [] := rfl

@[simp] theorem cleared_withBuf (r : Rxu) (b : List Sample) : cleared { r with sampleBuf := b } = cleared r := rfl

/-! ## The constructors (R210, R211) -/

section
variable (bw fs : XReal) (h : Bool) (thr : XReal)

@[simp] theorem constructRxu_cfg : (constructRxu bw fs h thr).cfg =
    { bw := bw, fs := fs, hamming := h, threshold := thr } := rfl
@[simp] theorem constructRxu_num : (constructRxu bw fs h thr).num = numOf bw fs := rfl
@[simp] theorem constructRxu_expectedBias : (constructRxu bw fs h thr).expectedBias = numOf bw fs := rfl
@[simp] theorem constructRxu_up : (constructRxu bw fs h thr).up = upTable bw fs (numOf bw fs) := rfl
@[simp] theorem constructRxu_down : (constructRxu bw fs h thr).down = downTable (upTable bw fs (numOf bw fs)) := rfl
@[simp] theorem constructRxu_demap : (constructRxu bw fs h thr).demap = demapTable := rfl
@[simp] theorem constructRxu_rxState : (constructRxu bw fs h thr).rxState = listening := rfl
@[simp] theorem constructRxu_matchCnt : (constructRxu bw fs h thr).matchCnt = 0 := rfl
@[simp] theorem constructRxu_sampleBuf : (constructRxu bw fs h thr).sampleBuf = [] := rfl
@[simp] theorem constructRxu_symBuf : (constructRxu bw fs h thr).symBuf = [] := rfl
@[simp] theorem constructTxu_cfg : (constructTxu bw fs h).cfg = { bw := bw, fs := fs, hamming := h } := rfl
@[simp] theorem constructTxu_num : (constructTxu bw fs h).num = numOf bw fs := rfl
@[simp] theorem constructTxu_up : (constructTxu bw fs h).up = upTable bw fs (numOf bw fs) := rfl
@[simp] theorem constructTxu_txBuf : (constructTxu bw fs h).txBuf = [] := rfl

end

/-! ## Placing a call -/

section
variable (s : State) (c : Call)

@[simp] theorem placeCall_rx : (placeCall s c).rx = s.rx := rfl
@[simp] theorem placeCall_tx : (placeCall s c).tx = s.tx := rfl
@[simp] theorem placeCall_calls : (placeCall s c).calls = c :: s.calls := rfl
@[simp] theorem placeCall_draws : (placeCall s c).draws = s.draws := rfl

end

/-! ## One iteration of SYNCING's loop (R172) -/

section
variable (r : Rxu) (v : Bool) (a : Nat)

@[simp] theorem syncWindow_cfg : (syncWindow r v a).cfg = r.cfg := by rw [syncWindow]; split <;> rfl
@[simp] theorem syncWindow_num : (syncWindow r v a).num = r.num := by rw [syncWindow]; split <;> rfl
@[simp] theorem syncWindow_expectedBias : (syncWindow r v a).expectedBias = r.expectedBias := by rw [syncWindow]; split <;> rfl
@[simp] theorem syncWindow_up : (syncWindow r v a).up = r.up := by rw [syncWindow]; split <;> rfl
@[simp] theorem syncWindow_down : (syncWindow r v a).down = r.down := by rw [syncWindow]; split <;> rfl
@[simp] theorem syncWindow_demap : (syncWindow r v a).demap = r.demap := by rw [syncWindow]; split <;> rfl
@[simp] theorem syncWindow_rxState : (syncWindow r v a).rxState = r.rxState := by rw [syncWindow]; split <;> rfl
@[simp] theorem syncWindow_symBuf : (syncWindow r v a).symBuf = r.symBuf := by rw [syncWindow]; split <;> rfl

end

end Sys2Proof.Machine
end

