-- ==== Sys2Proof/Laws/Ops.lean ====
section
/-! SUPPORT. What the shared operations of `Machine/Ops.lean`, `Machine/Sync.lean` (`finishStep`) and `Machine/Fetch.lean` can
do, said once: if an operation answers a next state, then which one. -/

namespace Sys2Proof.Machine

/-! ## Answers -/

theorem answer_eq_next {s t : State} {res : Result} (h : answer s res = .next t) : t = { s with result := res } := by
  cases h; rfl

theorem answerRx_eq_next {s t : State} {r : Rxu} {res : Result} (h : answerRx s r res = .next t) :
    t = { s with rx := some r, result := res } := by cases h; rfl

theorem answerTx_eq_next {s t : State} {u : Txu} {res : Result} (h : answerTx s u res = .next t) :
    t = { s with tx := some u, result := res } := by cases h; rfl

/-! ## Access to the units (R253) -/

theorem withRx_some {s : State} {r : Rxu} (h : s.rx = some r) (k : Rxu → Out) : withRx s k = k r := by rw [withRx, h]

theorem withRx_none {s : State} (h : s.rx = none) (k : Rxu → Out) : withRx s k = .refused .rxNotConstructed := by
  rw [withRx, h]

theorem withTx_some {s : State} {u : Txu} (h : s.tx = some u) (k : Txu → Out) : withTx s k = k u := by rw [withTx, h]

theorem withTx_none {s : State} (h : s.tx = none) (k : Txu → Out) : withTx s k = .refused .txNotConstructed := by
  rw [withTx, h]

/-- An operation of RXU that answers a next state found a constructed unit. -/
theorem withRx_eq_next {s t : State} {k : Rxu → Out} (h : withRx s k = .next t) : ∃ r, s.rx = some r ∧ k r = .next t := by
  cases hr : s.rx with
  | none => rw [withRx_none hr] at h; cases h
  | some r => rw [withRx_some hr] at h; exact ⟨r, rfl, h⟩

/-- An operation of TXU that answers a next state found a constructed unit. -/
theorem withTx_eq_next {s t : State} {k : Txu → Out} (h : withTx s k = .next t) : ∃ u, s.tx = some u ∧ k u = .next t := by
  cases hu : s.tx with
  | none => rw [withTx_none hu] at h; cases h
  | some u => rw [withTx_some hu] at h; exact ⟨u, rfl, h⟩

/-! ## The end of a step of the receiver -/

/-- A step of the receiver that answers a next state returned, or will never return (R180). -/
theorem finishStep_eq_next {s t : State} {res : Option Message → Result} {e : StepEnd}
    (h : finishStep s res e = .next t) :
    (∃ r m d, e = .returns r m d ∧ t = { s with rx := some r, result := res m, draws := d }) ∨
      (∃ r, e = .loops r ∧ t = { s with rx := some r, result := .notReturned }) := by
  cases e with
  | returns r m d => cases h; exact Or.inl ⟨r, m, d, rfl, rfl⟩
  | loops r => cases h; exact Or.inr ⟨r, rfl, rfl⟩
  | noPeak => cases h

@[simp] theorem finishStep_returns (s : State) (res : Option Message → Result) (r : Rxu) (m : Option Message) (d : Nat) :
    finishStep s res (.returns r m d) = .next { s with rx := some r, result := res m, draws := d } := rfl

@[simp] theorem finishStep_loops (s : State) (res : Option Message → Result) (r : Rxu) :
    finishStep s res (.loops r) = .next { s with rx := some r, result := .notReturned } := rfl

/-! ## The next call -/

/-- The next call, when there is one: the host is not inside a call that never returns. -/
theorem nextCall_eq_some {s s' : State} {c : Call} (h : nextCall s = some (c, s')) :
    s.result ≠ .notReturned ∧ ∃ cs, s.calls = c :: cs ∧ s' = { s with calls := cs } := by
  rw [nextCall] at h
  split at h
  · cases h
  · next hn =>
    split at h
    · cases h
    · next c' cs hc => cases h; exact ⟨hn, cs, hc, rfl⟩

theorem nextCall_of_cons {s : State} {c : Call} {cs : List Call} (hc : s.calls = c :: cs) (hn : s.result ≠ .notReturned) :
    nextCall s = some (c, { s with calls := cs }) := by rw [nextCall, if_neg hn, hc]

theorem nextCall_of_nil {s : State} (hc : s.calls = []) : nextCall s = none := by
  rw [nextCall, hc]; split <;> rfl

theorem nextCall_of_notReturned {s : State} (h : s.result = .notReturned) : nextCall s = none := by rw [nextCall, if_pos h]

/-- A step that answers a next state either ran one operation that the decoder read from the next call, or there was no
call and nothing changed. -/
theorem step_eq_next {s t : State} (h : step s = .next t) :
    (nextCall s = none ∧ t = s) ∨
      ∃ c cs i, s.calls = c :: cs ∧ s.result ≠ .notReturned ∧ decodeCmd c = .ok i ∧ exec i { s with calls := cs } = .next t := by
  rw [step] at h
  split at h
  · next hn => cases h; exact Or.inl ⟨hn, rfl⟩
  · next c s' hn =>
    obtain ⟨h1, cs, h2, rfl⟩ := nextCall_eq_some hn
    split at h
    · cases h
    · next i hi => exact Or.inr ⟨c, cs, i, h2, h1, hi, h⟩

end Sys2Proof.Machine
end

