-- ==== Sys2Proof/Laws/PerInstr.lean ====
section
/-! SUPPORT. A statement about every operation as syntax, one lemma for each constructor: its encoding is in the format and has
the code of its row of `opcode_table.json` (R93). -/

namespace Sys2Proof.Laws.TableCode

/-- The format and the code of an operation's row (R93). `SYM_DATA` has "any other" code of its format. -/
def row : Instr → Encoded → Prop
  | .rxConstruct _ _ _ _, .cmd c => c.cmd = 0x01
  | .rxReset, .cmd c => c.cmd = 0x02
  | .rxChunk _, .cmd c => c.cmd = 0x03
  | .txConstruct _ _ _, .cmd c => c.cmd = 0x04
  | .txSubmit _, .cmd c => c.cmd = 0x05
  | .txDrain _, .cmd c => c.cmd = 0x06
  | .chirpUp, .cmd c => c.cmd = 0x40
  | .chirpDown, .cmd c => c.cmd = 0x41
  | .chirpOf _, .cmd c => c.cmd = 0x42
  | .buildFrame _ _, .cmd c => c.cmd = 0x43
  | .correlate _, .cmd c => c.cmd = 0x44
  | .peak _, .cmd c => c.cmd = 0x45
  | .dechirp _, .cmd c => c.cmd = 0x46
  | .demap _, .cmd c => c.cmd = 0x47
  | .h74Enc _, .cmd c => c.cmd = 0x48
  | .h74Dec _, .cmd c => c.cmd = 0x49
  | .msgOf _ _, .cmd c => c.cmd = 0x4A
  | .symsOf _ _, .cmd c => c.cmd = 0x4B
  | .listenStep _, .st code _ => code = 0
  | .syncStep _, .st code _ => code = 1
  | .demodStep _, .st code _ => code = 2
  | .symTerm, .sym y => y = 0b0000001
  | .symAbort, .sym y => y = 0b0000010
  | .symData _, .sym y => y ≠ 0b0000001 ∧ y ≠ 0b0000010
  | _, _ => False

/-- The encoding of a well-formed operation is in its row. -/
def Statement (i : Instr) : Prop := i.wellFormed = true → row i (encode i)

theorem rxConstruct (bw fs : XReal) (h : Bool) (t : XReal) : Statement (.rxConstruct bw fs h t) := fun _ => rfl
theorem rxReset : Statement .rxReset := fun _ => rfl
theorem rxChunk (c : List Sample) : Statement (.rxChunk c) := fun _ => rfl
theorem txConstruct (bw fs : XReal) (h : Bool) : Statement (.txConstruct bw fs h) := fun _ => rfl
theorem txSubmit (m : List Byte) : Statement (.txSubmit m) := fun _ => rfl
theorem txDrain (n : Nat) : Statement (.txDrain n) := fun _ => rfl
theorem chirpUp : Statement .chirpUp := fun _ => rfl
theorem chirpDown : Statement .chirpDown := fun _ => rfl
theorem chirpOf (y : Symbol) : Statement (.chirpOf y) := fun _ => rfl
theorem buildFrame (p : List Byte) (h : Bool) : Statement (.buildFrame p h) := fun _ => rfl
theorem correlate (w : List Sample) : Statement (.correlate w) := fun _ => rfl
theorem peak (m : List XReal) : Statement (.peak m) := fun _ => rfl
theorem dechirp (w : List Sample) : Statement (.dechirp w) := fun _ => rfl
theorem demap (i : Int) : Statement (.demap i) := fun _ => rfl
theorem h74Enc (n : Nibble) : Statement (.h74Enc n) := fun _ => rfl
theorem h74Dec (c : Codeword) : Statement (.h74Dec c) := fun _ => rfl
theorem msgOf (y : List Symbol) (h : Bool) : Statement (.msgOf y h) := fun _ => rfl
theorem symsOf (p : List Byte) (h : Bool) : Statement (.symsOf p h) := fun _ => rfl
theorem listenStep (c : List Sample) : Statement (.listenStep c) := fun _ => rfl
theorem syncStep (c : List Sample) : Statement (.syncStep c) := fun _ => rfl
theorem demodStep (c : List Sample) : Statement (.demodStep c) := fun _ => rfl
theorem symTerm : Statement .symTerm := fun _ => rfl
theorem symAbort : Statement .symAbort := fun _ => rfl
theorem symData (y : Symbol) : Statement (.symData y) := by
  intro h
  simpa [row, encode, Instr.wellFormed, Config.symTerm, Config.symAbort] using h

end Sys2Proof.Laws.TableCode
end

