-- ==== Sys2Proof/Laws/Sync.lean ====
section
/-! SUPPORT. What the two loops of the receiver do: they are the loops of R172 and R175, run to their ends
(`syncLoop_spec`, `demodLoop_spec`); the bounds on their iterations are never reached (`syncLoop_enough`). -/

namespace Sys2Proof.Machine
open Real Relation

theorem bias_int (num a : Nat) : ((bias num a : Nat) : Int) = if num < a then (a : Int) - num else a := by
  rw [bias]
  split
  · omega
  · rfl

/-- An iteration changes no table. -/
theorem syncWindow_tablesOk {r : Rxu} (h : TablesOk r) (d : Bool) (a : Nat) : TablesOk (syncWindow r d a) := by
  rw [syncWindow]
  split <;> exact ⟨h.bw_pos, h.fs_pos, h.num_pos, h.down_length, h.demap_eq⟩

/-- `syncWindow` for the peak of the window is an iteration of R172. -/
theorem syncIter_of_syncWindow (r : Rxu) (h : TablesOk r) (hl : r.num ≤ r.sampleBuf.length) (hc : r.matchCnt ≠ 3)
    (v : XReal) (a : Nat) (hk : MayPeak r (r.sampleBuf.take r.num) (realVal v) a) :
    SyncIter r (syncWindow r (windowDet r (r.sampleBuf.take r.num) v) a) := by
  obtain ⟨ht, hf⟩ := windowDet_spec r h (r.sampleBuf.take r.num) v
  refine ⟨hl, hc, realVal v, a, hk, ?_⟩
  rw [syncWindow]
  by_cases hd : windowDet r (r.sampleBuf.take r.num) v = true
  · left
    rw [if_pos hd]
    exact ⟨ht hd, bias r.num a, bias_int _ _, rfl⟩
  · right
    rw [if_neg hd]
    exact ⟨hf (Bool.eq_false_iff.mpr hd), rfl⟩

theorem SyncIter.cfg_eq {r r' : Rxu} (h : SyncIter r r') : r'.cfg = r.cfg := by
  obtain ⟨-, -, v, a, -, ⟨-, b, -, rfl⟩ | ⟨-, rfl⟩⟩ := h <;> rfl

/-- With a rational ratio of the rates no window of SYNCING's loop leaves a choice. -/
theorem noNearTie_of_syncIters {r r' : Rxu} (he : ExactRates r.cfg.bw r.cfg.fs) (h : ReflTransGen SyncIter r r')
    (w : List Sample) : NoNearTie r' w := by
  left
  have hc : r'.cfg = r.cfg := by
    induction h with
    | refl => rfl
    | tail _ h ih => exact h.cfg_eq.trans ih
  rw [hc]; exact he

/-- How much an iteration that changes something brings the loop forward. -/
def syncMeasure (r : Rxu) : Nat := r.sampleBuf.length + (3 - r.matchCnt.toNat)

theorem matchCnt_succ (c : BitVec 2) (h : c ≠ 3) : (c + 1).toNat = c.toNat + 1 ∧ c.toNat < 3 := by
  revert c; decide

theorem syncWindow_length_le (r : Rxu) (v : Bool) (a : Nat) :
    (syncWindow r v a).sampleBuf.length ≤ r.sampleBuf.length := by
  rw [syncWindow]
  split <;> simp [bufDrop]

theorem syncWindow_matchCnt (r : Rxu) (v : Bool) (a : Nat) :
    (syncWindow r v a).matchCnt = r.matchCnt ∨ (syncWindow r v a).matchCnt = r.matchCnt + 1 := by
  rw [syncWindow]
  split
  · dsimp only
    split
    · exact Or.inr rfl
    · exact Or.inl rfl
  · exact Or.inl rfl

theorem syncWindow_measure (r : Rxu) (hc : r.matchCnt ≠ 3) (v : Bool) (a : Nat)
    (h : ¬((syncWindow r v a).sampleBuf.length = r.sampleBuf.length ∧ (syncWindow r v a).matchCnt = r.matchCnt)) :
    syncMeasure (syncWindow r v a) < syncMeasure r := by
  have h1 := syncWindow_length_le r v a
  obtain ⟨h2, h3⟩ := matchCnt_succ r.matchCnt hc
  rw [syncMeasure, syncMeasure]
  rcases syncWindow_matchCnt r v a with he | he
  · rw [he] at h ⊢
    have : (syncWindow r v a).sampleBuf.length ≠ r.sampleBuf.length := fun e => h ⟨e, rfl⟩
    omega
  · rw [he, h2]; omega

/-- An iteration that keeps the buffer's length and the counter changes nothing. -/
theorem syncWindow_eq_self (r : Rxu) (v : Bool) (a : Nat)
    (h1 : (syncWindow r v a).sampleBuf.length = r.sampleBuf.length) (h2 : (syncWindow r v a).matchCnt = r.matchCnt) :
    syncWindow r v a = r := by
  have hdrop : ∀ (l : List Sample) n, (bufDrop l n).length = l.length → bufDrop l n = l := by
    intro l n h
    rw [bufDrop, List.length_drop] at h
    rcases Nat.eq_zero_or_pos n with rfl | hn
    · rfl
    · have : l = [] := List.length_eq_zero_iff.mp (by omega)
      rw [this, bufDrop, List.drop_nil]
  have e : (syncWindow r v a) = { r with matchCnt := (syncWindow r v a).matchCnt, sampleBuf := (syncWindow r v a).sampleBuf } := by
    rw [syncWindow]; split <;> rfl
  have hb : (syncWindow r v a).sampleBuf = r.sampleBuf := by
    rw [syncWindow] at h1 ⊢
    split
    · next hd => rw [if_pos hd] at h1; exact hdrop _ _ h1
    · next hd => rw [if_neg hd] at h1; exact hdrop _ _ h1
  rw [e, hb, h2]

/-- The three ways in which SYNCING's loop goes on from `r`: the buffer falls below a window, the counter is found at 3,
or an iteration is reached that changes nothing. -/
def SyncEnds (draws : Nat) (r : Rxu) (e : StepEnd) : Prop :=
  ∃ r2, ReflTransGen SyncIter r r2 ∧
    ((r2.sampleBuf.length < r2.num ∧ e = .returns r2 none draws) ∨
      (r2.num ≤ r2.sampleBuf.length ∧ r2.matchCnt = 3 ∧ e = .returns { r2 with rxState := demoding } none draws) ∨
      (SyncIter r2 r2 ∧ e = .loops r2))

/-- SYNCING's loop, run to its end. -/
theorem syncLoop_spec (fuel draws : Nat) (r : Rxu) (h : TablesOk r) (hf : syncMeasure r < fuel) :
    SyncEnds draws r (syncLoop fuel draws r) := by
  induction fuel generalizing r with
  | zero => omega
  | succ fuel ih =>
    rw [syncLoop]
    split
    · next hl => exact ⟨r, .refl, Or.inl ⟨hl, rfl⟩⟩
    · next hl =>
      split
      · next hc => exact ⟨r, .refl, Or.inr (Or.inl ⟨not_lt.mp hl, hc, rfl⟩)⟩
      · next hc =>
        have hw : r.sampleBuf.take r.num ≠ [] := by
          intro he
          have := congrArg List.length he
          rw [List.length_take, List.length_nil] at this
          have := h.num_pos
          omega
        obtain ⟨v, a, hp, hk⟩ := windowPeak_spec r h _ hw
        have hp' : windowPeak r (bufHead r.sampleBuf r.num) = some (v, a) := hp
        have hit := syncIter_of_syncWindow r h (not_lt.mp hl) hc v a hk
        simp only [hp']
        set d := windowDet r (bufHead r.sampleBuf r.num) v with hd
        change SyncIter r (syncWindow r d a) at hit
        split
        · next hs =>
          refine ⟨r, .refl, Or.inr (Or.inr ⟨?_, rfl⟩)⟩
          rwa [syncWindow_eq_self r d a hs.1 hs.2] at hit
        · next hs =>
          have hm := syncWindow_measure r hc d a hs
          obtain ⟨r2, h2, h3⟩ := ih (syncWindow r d a) (syncWindow_tablesOk h d a) (by omega)
          exact ⟨r2, .head hit h2, h3⟩

theorem syncMeasure_lt_fuel (r : Rxu) : syncMeasure r < syncFuel r := by
  rw [syncMeasure, syncFuel]; omega

/-- The bound on the iterations is never reached: with more of them the loop ends in the same way. -/
theorem syncLoop_enough (k fuel draws : Nat) (r : Rxu) (h : TablesOk r) (hf : syncMeasure r < fuel) :
    syncLoop (fuel + k) draws r = syncLoop fuel draws r := by
  induction fuel generalizing r with
  | zero => omega
  | succ fuel ih =>
    rw [show fuel + 1 + k = (fuel + k) + 1 by omega, syncLoop, syncLoop]
    split
    · rfl
    · split
      · rfl
      · next hc =>
        split
        · rfl
        · next v a _ =>
          dsimp only
          split
          · rfl
          · next hs =>
            have hm := syncWindow_measure r hc _ a hs
            exact ih _ (syncWindow_tablesOk h _ a) (by omega)

/-- `SYNC_STEP`, run to its end. -/
theorem syncStep_spec (draws : Nat) (r : Rxu) (h : TablesOk r) (c : List Sample) :
    SyncEnds draws { r with sampleBuf := r.sampleBuf ++ c } (syncStep draws r c) :=
  syncLoop_spec _ draws { r with sampleBuf := r.sampleBuf ++ c } ⟨h.bw_pos, h.fs_pos, h.num_pos, h.down_length, h.demap_eq⟩
    (syncMeasure_lt_fuel _)

/-- The three ways in which DEMODING's loop goes on from `r`: the buffer falls below a window, a window gives the abort
sentinel, or a window gives the terminator and the message of the symbols collected is emitted. -/
def DemodEnds (draws : Nat) (r : Rxu) (e : StepEnd) : Prop :=
  ∃ r2, ReflTransGen DemodIter r r2 ∧
    ((r2.sampleBuf.length < r2.num ∧ e = .returns r2 none draws) ∨
      (r2.num ≤ r2.sampleBuf.length ∧ Dechirps r2 (r2.sampleBuf.take r2.num) Config.symAbort ∧
        e = .returns (returnToListening r2) none draws) ∨
      (r2.num ≤ r2.sampleBuf.length ∧ Dechirps r2 (r2.sampleBuf.take r2.num) Config.symTerm ∧
        e = .returns (returnToListening r2) (some (frameFinish draws r2)) (draws + 1)))

/-- DEMODING's loop, run to its end. -/
theorem demodLoop_spec (fuel draws : Nat) (r : Rxu) (h : TablesOk r) (hf : r.sampleBuf.length < fuel) :
    DemodEnds draws r (demodLoop fuel draws r) := by
  induction fuel generalizing r with
  | zero => omega
  | succ fuel ih =>
    rw [demodLoop]
    split
    · next hl => exact ⟨r, .refl, Or.inl ⟨hl, rfl⟩⟩
    · next hl =>
      have hw : r.sampleBuf.take r.num ≠ [] := by
        intro he
        have := congrArg List.length he
        rw [List.length_take, List.length_nil] at this
        have := h.num_pos
        omega
      obtain ⟨y, hy, hD⟩ := dechirp_spec r h _ hw
      have hy' : dechirp { r with sampleBuf := bufDrop r.sampleBuf r.num } (bufHead r.sampleBuf r.num) = some y := hy
      dsimp only
      rw [demodWindow, hy']
      by_cases h2 : y = Config.symAbort
      · subst h2
        simp only [classify_abort]
        exact ⟨r, .refl, Or.inr (Or.inl ⟨not_lt.mp hl, hD, rfl⟩)⟩
      · by_cases h1 : y = Config.symTerm
        · subst h1
          simp only [classify_term]
          exact ⟨r, .refl, Or.inr (Or.inr ⟨not_lt.mp hl, hD, rfl⟩)⟩
        · simp only [classify_data y h1 h2]
          obtain ⟨r2, h3, h4⟩ := ih { r with sampleBuf := bufDrop r.sampleBuf r.num, symBuf := bufAppend r.symBuf [y] }
            ⟨h.bw_pos, h.fs_pos, h.num_pos, h.down_length, h.demap_eq⟩ (by
              have := h.num_pos
              simp only [bufDrop, List.length_drop]; omega)
          exact ⟨r2, .head ⟨not_lt.mp hl, y, hD, h1, h2, rfl⟩ h3, h4⟩

/-- `DEMOD_STEP`, run to its end. -/
theorem demodStep_spec (draws : Nat) (r : Rxu) (h : TablesOk r) (c : List Sample) :
    DemodEnds draws { r with sampleBuf := r.sampleBuf ++ c } (demodStep draws r c) :=
  demodLoop_spec _ draws { r with sampleBuf := r.sampleBuf ++ c } ⟨h.bw_pos, h.fs_pos, h.num_pos, h.down_length, h.demap_eq⟩
    (Nat.lt_succ_self _)

/-- `LISTEN_STEP`: the two cases of R171. -/
theorem listenStep_spec (draws : Nat) (r : Rxu) (h : TablesOk r) (c : List Sample) (hc : c ≠ []) :
    ∃ v a, MayPeak r c v a ∧
      ((MayDetect r c v ∧
          listenStep draws r c = .returns { r with sampleBuf := r.sampleBuf ++ c, rxState := syncing } none draws) ∨
        (MayMiss r c v ∧ listenStep draws r c = .returns r none draws)) := by
  obtain ⟨v, a, hp, hk⟩ := windowPeak_spec r h c hc
  obtain ⟨ht, hf⟩ := windowDet_spec r h c v
  refine ⟨realVal v, a, hk, ?_⟩
  rw [listenStep, hp]
  by_cases hd : windowDet r c v = true
  · exact Or.inl ⟨ht hd, if_pos hd⟩
  · exact Or.inr ⟨hf (Bool.eq_false_iff.mpr hd), if_neg hd⟩

end Sys2Proof.Machine
end

