-- ==== Sys2Proof/Laws/Receiver.lean ====
section
/-! SUPPORT. What a step of the receiver can do to RXU, for every unit, also one that no run reaches: `listenStep_returns`,
`syncStep_returns`, `syncStep_loops`, `demodStep_returns`; and that with sound tables it always ends. -/

namespace Sys2Proof.Machine

/-- The configuration, the derived constants and the tables are the same. -/
structure SameTables (r r' : Rxu) : Prop where
  cfg : r'.cfg = r.cfg
  num : r'.num = r.num
  expectedBias : r'.expectedBias = r.expectedBias
  up : r'.up = r.up
  down : r'.down = r.down
  demap : r'.demap = r.demap

theorem SameTables.refl (r : Rxu) : SameTables r r := ⟨rfl, rfl, rfl, rfl, rfl, rfl⟩

theorem SameTables.trans {r r' r'' : Rxu} (h : SameTables r r') (h' : SameTables r' r'') : SameTables r r'' :=
  ⟨h'.cfg.trans h.cfg, h'.num.trans h.num, h'.expectedBias.trans h.expectedBias, h'.up.trans h.up,
    h'.down.trans h.down, h'.demap.trans h.demap⟩

theorem syncWindow_sameTables (r : Rxu) (v : Bool) (a : Nat) : SameTables r (syncWindow r v a) :=
  ⟨by simp, by simp, by simp, by simp, by simp, by simp⟩

/-- Two units with the same tables are cleared to the same unit. -/
theorem SameTables.cleared_eq {r r' : Rxu} (h : SameTables r r') : cleared r' = cleared r := by
  obtain ⟨c, n, e, u, d, m, _, _, _, _⟩ := r
  obtain ⟨c', n', e', u', d', m', _, _, _, _⟩ := r'
  obtain ⟨h1, h2, h3, h4, h5, h6⟩ := h
  dsimp only at h1 h2 h3 h4 h5 h6
  subst h1 h2 h3 h4 h5 h6
  rfl

/-! ## LISTENING -/

theorem listenStep_returns {d d' : Nat} {r r' : Rxu} {c : List Sample} {m : Option Message}
    (h : listenStep d r c = .returns r' m d') :
    m = none ∧ d' = d ∧ (r' = r ∨ r' = { r with sampleBuf := r.sampleBuf ++ c, rxState := 1 }) := by
  rw [listenStep] at h
  split at h
  · cases h
  · split at h
    · cases h; exact ⟨rfl, rfl, Or.inr rfl⟩
    · cases h; exact ⟨rfl, rfl, Or.inl rfl⟩

theorem listenStep_not_loops {d : Nat} {r r' : Rxu} {c : List Sample} : listenStep d r c ≠ .loops r' := by
  intro h
  rw [listenStep] at h
  split at h
  · cases h
  · split at h <;> cases h

/-! ## SYNCING -/

theorem syncLoop_returns {fuel d d' : Nat} {r r' : Rxu} {m : Option Message}
    (h : syncLoop fuel d r = .returns r' m d') :
    m = none ∧ d' = d ∧ SameTables r r' ∧ r'.symBuf = r.symBuf ∧
      ((r'.rxState = r.rxState ∧ r'.sampleBuf.length < r'.num) ∨
        (r'.rxState = 2 ∧ r'.matchCnt = 3 ∧ r'.num ≤ r'.sampleBuf.length)) := by
  induction fuel generalizing r with
  | zero => cases h
  | succ fuel ih =>
    rw [syncLoop] at h
    split at h
    · next hl => cases h; exact ⟨rfl, rfl, .refl _, rfl, Or.inl ⟨rfl, hl⟩⟩
    · next hl =>
      split at h
      · next hc => cases h; exact ⟨rfl, rfl, ⟨rfl, rfl, rfl, rfl, rfl, rfl⟩, rfl, Or.inr ⟨rfl, hc, not_lt.mp hl⟩⟩
      · split at h
        · cases h
        · next v a _ =>
          dsimp only at h
          split at h
          · cases h
          · obtain ⟨h1, h2, h3, h4, h5⟩ := ih h
            rw [syncWindow_symBuf] at h4
            rw [syncWindow_rxState] at h5
            exact ⟨h1, h2, (syncWindow_sameTables r _ a).trans h3, h4, h5⟩

theorem syncLoop_loops {fuel d : Nat} {r r' : Rxu} (h : syncLoop fuel d r = .loops r') :
    SameTables r r' ∧ r'.symBuf = r.symBuf ∧ r'.rxState = r.rxState := by
  induction fuel generalizing r with
  | zero => cases h; exact ⟨.refl _, rfl, rfl⟩
  | succ fuel ih =>
    rw [syncLoop] at h
    split at h
    · cases h
    · split at h
      · cases h
      · split at h
        · cases h
        · next v a _ =>
          dsimp only at h
          split at h
          · cases h; exact ⟨.refl _, rfl, rfl⟩
          · obtain ⟨h1, h2, h3⟩ := ih h
            rw [syncWindow_symBuf] at h2
            rw [syncWindow_rxState] at h3
            exact ⟨(syncWindow_sameTables r _ a).trans h1, h2, h3⟩

theorem syncStep_returns {d d' : Nat} {r r' : Rxu} {c : List Sample} {m : Option Message}
    (h : syncStep d r c = .returns r' m d') :
    m = none ∧ d' = d ∧ SameTables r r' ∧ r'.symBuf = r.symBuf ∧
      ((r'.rxState = r.rxState ∧ r'.sampleBuf.length < r'.num) ∨
        (r'.rxState = 2 ∧ r'.matchCnt = 3 ∧ r'.num ≤ r'.sampleBuf.length)) := by
  obtain ⟨h1, h2, ⟨k1, k2, k3, k4, k5, k6⟩, h4, h5⟩ := syncLoop_returns h
  exact ⟨h1, h2, ⟨k1, k2, k3, k4, k5, k6⟩, h4, h5⟩

theorem syncStep_loops {d : Nat} {r r' : Rxu} {c : List Sample} (h : syncStep d r c = .loops r') :
    SameTables r r' ∧ r'.symBuf = r.symBuf ∧ r'.rxState = r.rxState := by
  obtain ⟨⟨k1, k2, k3, k4, k5, k6⟩, h4, h5⟩ := syncLoop_loops h
  exact ⟨⟨k1, k2, k3, k4, k5, k6⟩, h4, h5⟩

/-! ## DEMODING -/

theorem frameFinish_no_zero (d : Nat) (r : Rxu) : 0 ∉ (frameFinish d r).bytes := by simp [frameFinish, messageBytes]

/-- `DEMOD_WINDOW` by the symbol of its window. -/
theorem demodWindow_cases (d : Nat) (r : Rxu) (w : List Sample) :
    (dechirp r w = none ∧ demodWindow d r w = .noPeak) ∨
    (dechirp r w = some 0x02 ∧ demodWindow d r w = .abort) ∨
    (dechirp r w = some 0x01 ∧ demodWindow d r w = .done (frameFinish d r)) ∨
    ∃ y, dechirp r w = some y ∧ y ≠ 0x01 ∧ y ≠ 0x02 ∧ demodWindow d r w = .next (r.symBuf ++ [y]) := by
  rw [demodWindow]
  cases hy : dechirp r w with
  | none => exact Or.inl ⟨rfl, rfl⟩
  | some y =>
    right
    by_cases h2 : y = 0x02
    · subst h2; exact Or.inl ⟨rfl, rfl⟩
    · by_cases h1 : y = 0x01
      · subst h1; exact Or.inr (Or.inl ⟨rfl, rfl⟩)
      · refine Or.inr (Or.inr ⟨y, rfl, h1, h2, ?_⟩)
        dsimp only
        rw [classify_data y h1 h2]
        rfl

theorem demodLoop_returns {fuel d d' : Nat} {r r' : Rxu} {m : Option Message}
    (h : demodLoop fuel d r = .returns r' m d') :
    SameTables r r' ∧
      ((r'.rxState = r.rxState ∧ r'.matchCnt = r.matchCnt ∧ m = none ∧ d' = d ∧
          (0 < r.num → r.sampleBuf.length < fuel → r'.sampleBuf.length < r'.num) ∧
          ∀ y ∈ r'.symBuf, y ∈ r.symBuf ∨ (y ≠ 0x01 ∧ y ≠ 0x02)) ∨
        (r' = cleared r ∧ m = none ∧ d' = d) ∨
        (r' = cleared r ∧ ∃ b, m = some b ∧ d' = d + 1 ∧ 0 ∉ b.bytes)) := by
  induction fuel generalizing r with
  | zero =>
    cases h
    exact ⟨.refl _, Or.inl ⟨rfl, rfl, rfl, rfl, fun _ hl => absurd hl (Nat.not_lt_zero _), fun y hy => Or.inl hy⟩⟩
  | succ fuel ih =>
    rw [demodLoop] at h
    split at h
    · next hl => cases h; exact ⟨.refl _, Or.inl ⟨rfl, rfl, rfl, rfl, fun _ _ => hl, fun y hy => Or.inl hy⟩⟩
    · next hl =>
      dsimp only at h
      rcases demodWindow_cases d { r with sampleBuf := bufDrop r.sampleBuf r.num } (bufHead r.sampleBuf r.num) with
        ⟨-, hw⟩ | ⟨-, hw⟩ | ⟨-, hw⟩ | ⟨y, -, h1, h2, hw⟩
      · rw [hw] at h; cases h
      · rw [hw] at h; cases h
        exact ⟨⟨rfl, rfl, rfl, rfl, rfl, rfl⟩, Or.inr (Or.inl ⟨rfl, rfl, rfl⟩)⟩
      · rw [hw] at h; cases h
        exact ⟨⟨rfl, rfl, rfl, rfl, rfl, rfl⟩, Or.inr (Or.inr ⟨rfl, _, rfl, rfl, frameFinish_no_zero _ _⟩)⟩
      · rw [hw] at h
        obtain ⟨⟨k1, k2, k3, k4, k5, k6⟩, h4⟩ := ih h
        refine ⟨⟨k1, k2, k3, k4, k5, k6⟩, ?_⟩
        rcases h4 with ⟨a1, a2, a3, a4, a5, a6⟩ | h4 | h4
        · refine Or.inl ⟨a1, a2, a3, a4, ?_, ?_⟩
          · intro hn hf
            refine a5 hn ?_
            simp only [bufDrop, List.length_drop]
            omega
          · intro z hz
            rcases a6 z hz with hz' | hz'
            · rcases List.mem_append.mp hz' with hz'' | hz''
              · exact Or.inl hz''
              · rw [List.mem_singleton] at hz''
                subst hz''
                exact Or.inr ⟨h1, h2⟩
            · exact Or.inr hz'
        · exact Or.inr (Or.inl h4)
        · exact Or.inr (Or.inr h4)

theorem demodLoop_not_loops {fuel d : Nat} {r r' : Rxu} : demodLoop fuel d r ≠ .loops r' := by
  induction fuel generalizing r with
  | zero => intro h; cases h
  | succ fuel ih =>
    intro h
    rw [demodLoop] at h
    split at h
    · cases h
    · dsimp only at h
      split at h
      · cases h
      · cases h
      · cases h
      · exact ih h

theorem demodStep_returns {d d' : Nat} {r r' : Rxu} {c : List Sample} {m : Option Message}
    (h : demodStep d r c = .returns r' m d') :
    SameTables r r' ∧
      ((r'.rxState = r.rxState ∧ r'.matchCnt = r.matchCnt ∧ m = none ∧ d' = d ∧
          (0 < r.num → r'.sampleBuf.length < r'.num) ∧ ∀ y ∈ r'.symBuf, y ∈ r.symBuf ∨ (y ≠ 0x01 ∧ y ≠ 0x02)) ∨
        (r' = cleared r ∧ m = none ∧ d' = d) ∨
        (r' = cleared r ∧ ∃ b, m = some b ∧ d' = d + 1 ∧ 0 ∉ b.bytes)) := by
  obtain ⟨⟨k1, k2, k3, k4, k5, k6⟩, h4⟩ := demodLoop_returns h
  refine ⟨⟨k1, k2, k3, k4, k5, k6⟩, ?_⟩
  rcases h4 with ⟨a1, a2, a3, a4, a5, a6⟩ | h4 | h4
  · exact Or.inl ⟨a1, a2, a3, a4, fun hn => a5 hn (Nat.lt_succ_self _), a6⟩
  · exact Or.inr (Or.inl h4)
  · exact Or.inr (Or.inr h4)

theorem demodStep_not_loops {d : Nat} {r r' : Rxu} {c : List Sample} : demodStep d r c ≠ .loops r' := demodLoop_not_loops

/-! ## Every step ends, for sound tables -/

theorem listenStep_ne_noPeak {d : Nat} {r : Rxu} (h : TablesOk r) {c : List Sample} (hc : c ≠ []) :
    listenStep d r c ≠ .noPeak := by
  obtain ⟨v, a, -, h1 | h1⟩ := listenStep_spec d r h c hc
  · rw [h1.2]; intro h; cases h
  · rw [h1.2]; intro h; cases h

theorem syncStep_ne_noPeak {d : Nat} {r : Rxu} (h : TablesOk r) {c : List Sample} : syncStep d r c ≠ .noPeak := by
  obtain ⟨r2, -, h1 | h1 | h1⟩ := syncStep_spec d r h c
  · rw [h1.2]; intro h; cases h
  · rw [h1.2.2]; intro h; cases h
  · rw [h1.2]; intro h; cases h

theorem demodStep_ne_noPeak {d : Nat} {r : Rxu} (h : TablesOk r) {c : List Sample} : demodStep d r c ≠ .noPeak := by
  obtain ⟨r2, -, h1 | h1 | h1⟩ := demodStep_spec d r h c
  · rw [h1.2]; intro h; cases h
  · rw [h1.2.2]; intro h; cases h
  · rw [h1.2.2]; intro h; cases h

/-! ## The meanings -/

theorem nonEmpty_eq_true {α : Type} {l : List α} (h : l ≠ []) : nonEmpty l = true := by
  cases l with
  | nil => exact absurd rfl h
  | cons x xs => rfl

/-- `RX_CHUNK`, said once: if it answers a next state, then the step that `rx_state` selects ended in it. -/
theorem execRxChunk_eq_next {s t : State} {c : List Sample} (h : execRxChunk c s = .next t) :
    ∃ r, s.rx = some r ∧ c ≠ [] ∧
      ((r.rxState = 0 ∧ finishStep s (.chunk c.length) (listenStep s.draws r c) = .next t) ∨
        (r.rxState = 1 ∧ finishStep s (.chunk c.length) (syncStep s.draws r c) = .next t) ∨
        (r.rxState = 2 ∧ finishStep s (.chunk c.length) (demodStep s.draws r c) = .next t)) := by
  obtain ⟨r, hr, hk⟩ := withRx_eq_next h
  refine ⟨r, hr, ?_⟩
  split at hk
  · next hc =>
    refine ⟨(by rintro rfl; cases hc), ?_⟩
    split at hk
    · next h0 => exact Or.inl ⟨h0, hk⟩
    · split at hk
      · next h1 => exact Or.inr (Or.inl ⟨h1, hk⟩)
      · split at hk
        · next h2 => exact Or.inr (Or.inr ⟨h2, hk⟩)
        · cases hk
  · cases hk

theorem execRxChunk_of_listening {s : State} {r : Rxu} {c : List Sample} (hr : s.rx = some r) (hc : c ≠ [])
    (h : r.rxState = 0) : execRxChunk c s = finishStep s (.chunk c.length) (listenStep s.draws r c) := by
  rw [execRxChunk, withRx_some hr, if_pos (nonEmpty_eq_true hc), if_pos (show r.rxState = listening from h)]

theorem execRxChunk_of_syncing {s : State} {r : Rxu} {c : List Sample} (hr : s.rx = some r) (hc : c ≠ [])
    (h : r.rxState = 1) : execRxChunk c s = finishStep s (.chunk c.length) (syncStep s.draws r c) := by
  rw [execRxChunk, withRx_some hr, if_pos (nonEmpty_eq_true hc), if_neg (by rw [h]; decide),
    if_pos (show r.rxState = syncing from h)]

theorem execRxChunk_of_demoding {s : State} {r : Rxu} {c : List Sample} (hr : s.rx = some r) (hc : c ≠ [])
    (h : r.rxState = 2) : execRxChunk c s = finishStep s (.chunk c.length) (demodStep s.draws r c) := by
  rw [execRxChunk, withRx_some hr, if_pos (nonEmpty_eq_true hc), if_neg (by rw [h]; decide),
    if_neg (by rw [h]; decide), if_pos (show r.rxState = demoding from h)]

end Sys2Proof.Machine
end

