-- ==== Sys2Proof/Laws/System.lean ====
section
/-! SUPPORT. The invariants of the two units after construction (R210, R211) and after the updates that keep the tables; that
their tables are those of R120. -/

namespace Sys2Proof.Machine

theorem validRates_iff (bw fs : XReal) :
    validRates bw fs = true ↔ 0 < realVal bw ∧ 0 < realVal fs ∧ 0 < numOf bw fs := by
  simp [validRates, and_assoc, realLt_iff]

/-- A constructed RXU has its invariant. -/
theorem constructRxu_inv {bw fs : XReal} (h : Bool) (thr : XReal) (hv : validRates bw fs = true) :
    RxInv (constructRxu bw fs h thr) := by
  obtain ⟨h1, h2, h3⟩ := (validRates_iff bw fs).mp hv
  constructor <;> simp [listening, syncing, demoding, h1, h2, h3]

/-- A constructed TXU has its invariant. -/
theorem constructTxu_inv {bw fs : XReal} (h : Bool) (hv : validRates bw fs = true) : TxInv (constructTxu bw fs h) := by
  obtain ⟨h1, h2, h3⟩ := (validRates_iff bw fs).mp hv
  constructor <;> simp [h1, h2, h3]

/-- A unit with the same tables has the invariant if its own elements are as R36 says. -/
theorem SameTables.inv {r r' : Rxu} (hs : SameTables r r') (h : RxInv r) (h1 : r'.rxState ≠ 3)
    (h2 : r'.rxState = listening → r'.sampleBuf = [] ∧ r'.symBuf = [] ∧ r'.matchCnt = 0)
    (h3 : r'.rxState = syncing → r'.symBuf = []) (h4 : r'.rxState = demoding → r'.matchCnt = 3)
    (h5 : Config.symTerm ∉ r'.symBuf) (h6 : Config.symAbort ∉ r'.symBuf) : RxInv r' := by
  obtain ⟨k1, k2, k3, k4, k5, k6⟩ := hs
  refine ⟨?_, ?_, ?_, ?_, ?_, ?_, ?_, ?_, h1, h2, h3, h4, h5, h6⟩
  · rw [k1]; exact h.bw_pos
  · rw [k1]; exact h.fs_pos
  · rw [k2]; exact h.num_pos
  · rw [k1, k2]; exact h.num_eq
  · rw [k3, k2]; exact h.expectedBias_eq
  · rw [k4, k1, k2]; exact h.up_eq
  · rw [k5, k4]; exact h.down_eq
  · rw [k6]; exact h.demap_eq

theorem cleared_inv {r : Rxu} (h : RxInv r) : RxInv (cleared r) := by
  refine SameTables.inv (r := r) (r' := cleared r) ⟨rfl, rfl, rfl, rfl, rfl, rfl⟩ h ?_ ?_ ?_ ?_ ?_ ?_ <;> simp [listening, syncing, demoding]

theorem TxInv.withBuf {u : Txu} (h : TxInv u) (b : List Sample) : TxInv { u with txBuf := b } :=
  ⟨h.bw_pos, h.fs_pos, h.num_pos, h.num_eq, h.up_eq⟩

theorem numOf_cast {bw fs : XReal} (h : 0 < numOf bw fs) : numRounded bw fs = (numOf bw fs : Nat) := by
  rw [numOf] at h ⊢; omega

theorem RxInv.numRounded_eq {r : Rxu} (h : RxInv r) : numRounded r.cfg.bw r.cfg.fs = r.num := by
  rw [numOf_cast (h.num_eq ▸ h.num_pos), ← h.num_eq]

theorem TxInv.numRounded_eq {t : Txu} (h : TxInv t) : numRounded t.cfg.bw t.cfg.fs = t.num := by
  rw [numOf_cast (h.num_eq ▸ h.num_pos), ← h.num_eq]

/-- The up-chirp table of RXU is that of R120. -/
theorem RxInv.isUpTable {r : Rxu} (h : RxInv r) : IsUpTable r.cfg.bw r.cfg.fs r.up := by
  rw [h.up_eq]; exact isUpTable_upTable h.bw_pos h.fs_pos h.numRounded_eq

/-- The up-chirp table of TXU is that of R120. -/
theorem TxInv.isUpTable {t : Txu} (h : TxInv t) : IsUpTable t.cfg.bw t.cfg.fs t.up := by
  rw [h.up_eq]; exact isUpTable_upTable h.bw_pos h.fs_pos h.numRounded_eq

/-- The entries of the down-chirp table. -/
theorem RxInv.down_val {r : Rxu} (h : RxInv r) {i : Nat} (hi : i < r.num) :
    cplxVal (r.down.getD i cplxZero) = starRingEnd ℂ (cplxVal (r.up.getD i cplxZero)) := by
  rw [h.down_eq, downTable_getD _ _ (by rw [h.up_length]; exact hi), cplxVal_conj]

theorem RxInv.norm_up {r : Rxu} (h : RxInv r) {i : Nat} (hi : i < r.num) : ‖cplxVal (r.up.getD i cplxZero)‖ = 1 :=
  (h.isUpTable.2 i (by rw [h.up_length]; exact hi)).1

theorem RxInv.norm_down {r : Rxu} (h : RxInv r) {i : Nat} (hi : i < r.num) : ‖cplxVal (r.down.getD i cplxZero)‖ = 1 := by
  rw [h.down_val hi, RCLike.norm_conj, h.norm_up hi]

/-- The peak that `PEAK` finds in a correlation, as the relation of R160 and R161. -/
theorem isPeak_of_peakOf {r : Rxu} (h : RxInv r) {w : List Sample} (hw : w ≠ []) {v : XReal} {a : Nat}
    (hp : peakOf (correlation r.num r.down w) = some (v, a)) : IsPeak r w (realVal v) a := by
  obtain ⟨v', a', h1, h2⟩ := peakOf_correlation r h.down_length h.num_pos w hw
  rw [hp] at h1
  cases h1
  exact h2

/-- A window's symbol, as the relation of R190. -/
theorem dechirps_of_dechirp {r : Rxu} (h : RxInv r) {w : List Sample} (hw : w ≠ []) {y : Symbol}
    (hy : dechirp r w = some y) : Dechirps r w y := by
  obtain ⟨y', h1, h2⟩ := dechirp_spec r h.tablesOk w hw
  rw [hy] at h1
  cases h1
  exact h2

theorem dechirp_of_dechirps {r : Rxu} (h : RxInv r) {w : List Sample} (hw : w ≠ []) (hn : NoNearTie r w) {y : Symbol}
    (hy : Dechirps r w y) : dechirp r w = some y := by
  obtain ⟨y', h1, h2⟩ := dechirp_spec r h.tablesOk w hw
  rw [h1, hy.unique hn h2]

/-! ## The error bound (D1, U2, U3) -/

theorem norm_cplxVal_le_termSum (z : Sample) : ‖cplxVal z‖ ≤ (termSum z.terms : ℝ) := by
  obtain ⟨ts⟩ := z
  rw [cplxVal]
  induction ts with
  | nil => simp [termsVal, termSum]
  | cons t ts ih =>
    rw [termsVal_cons, termSum]
    refine (norm_add_le _ _).trans ?_
    rw [norm_mul, norm_cisC, mul_one, Complex.norm_ratCast]
    push_cast
    refine add_le_add (le_of_eq ?_) ih
    split
    · next hn => rw [abs_of_neg (by exact_mod_cast hn)]; push_cast; rfl
    · next hn => rw [abs_of_nonneg (by exact_mod_cast not_lt.mp hn)]

theorem sum_norm_le_windowSum (w : List Sample) :
    ∑ k ∈ Finset.range w.length, ‖cplxVal (w.getD k cplxZero)‖ ≤ (windowSum w : ℝ) := by
  induction w with
  | nil => simp [windowSum]
  | cons x xs ih =>
    rw [List.length_cons, Finset.sum_range_succ', windowSum]
    push_cast
    simp only [List.getD_cons_succ, List.getD_cons_zero]
    linarith [norm_cplxVal_le_termSum x]

/-- The convolution of R160 with the exact table of R120 and R121, which the model holds only where the ratio of the rates is
rational. -/
noncomputable def exactConv (r : Rxu) (w : List Sample) (n : Nat) : ℂ :=
  ∑ k ∈ Finset.range w.length,
    if k ≤ n ∧ n - k < r.num then
      cplxVal (w.getD k cplxZero) * starRingEnd ℂ (cisC (phase (realVal r.cfg.bw) (realVal r.cfg.fs) (n - k)))
    else 0

theorem norm_window_sum_le (w : List Sample) (p : Nat → Prop) [DecidablePred p] (g : Nat → ℂ) (c : ℝ) (hc : 0 ≤ c)
    (hg : ∀ k, p k → ‖g k‖ ≤ c) :
    ‖∑ k ∈ Finset.range w.length, if p k then cplxVal (w.getD k cplxZero) * g k else 0‖ ≤ windowSum w * c := by
  refine (norm_sum_le _ _).trans ?_
  refine le_trans (Finset.sum_le_sum fun k _ => ?_)
    ((Finset.sum_mul (Finset.range w.length) (fun k => ‖cplxVal (w.getD k cplxZero)‖) c).symm.le.trans
      (mul_le_mul_of_nonneg_right (sum_norm_le_windowSum w) hc))
  split
  · next hk => rw [norm_mul]; exact mul_le_mul_of_nonneg_left (hg k hk) (norm_nonneg _)
  · rw [norm_zero]; positivity

/-- The squares of the magnitudes are within half the error bound of the exact ones. -/
theorem normSq_convVal_close {r : Rxu} (h : RxInv r) (w : List Sample) (n : Nat) :
    |‖convVal r w n‖ ^ 2 - ‖exactConv r w n‖ ^ 2| ≤ errorBound w / 2 := by
  have hup : ∀ i < r.num, ‖cplxVal (r.down.getD i cplxZero) - starRingEnd ℂ (cisC (phase (realVal r.cfg.bw) (realVal r.cfg.fs) i))‖
      ≤ 1 / 2 ^ 100 := by
    intro i hi
    rw [h.down_val hi, ← map_sub, RCLike.norm_conj]
    exact (h.isUpTable.2 i (by rw [h.up_length]; exact hi)).2.1
  have h1 : ‖convVal r w n‖ ≤ windowSum w * 1 :=
    norm_window_sum_le w (fun k => k ≤ n ∧ n - k < r.num) (fun k => cplxVal (r.down.getD (n - k) cplxZero)) 1 zero_le_one
      fun k hk => (h.norm_down hk.2).le
  have h2 : ‖exactConv r w n‖ ≤ windowSum w * 1 :=
    norm_window_sum_le w (fun k => k ≤ n ∧ n - k < r.num)
      (fun k => starRingEnd ℂ (cisC (phase (realVal r.cfg.bw) (realVal r.cfg.fs) (n - k)))) 1 zero_le_one
      fun k _ => by rw [RCLike.norm_conj, norm_cisC]
  have h3 : ‖convVal r w n - exactConv r w n‖ ≤ windowSum w * (1 / 2 ^ 100) := by
    rw [convVal, exactConv, ← Finset.sum_sub_distrib]
    refine le_trans (le_of_eq ?_) (norm_window_sum_le w (fun k => k ≤ n ∧ n - k < r.num)
      (fun k => cplxVal (r.down.getD (n - k) cplxZero)
        - starRingEnd ℂ (cisC (phase (realVal r.cfg.bw) (realVal r.cfg.fs) (n - k)))) _ (by positivity) fun k hk => hup _ hk.2)
    congr 1
    refine Finset.sum_congr rfl fun k _ => ?_
    by_cases hk : k ≤ n ∧ n - k < r.num
    · rw [if_pos hk, if_pos hk, if_pos hk]; ring
    · rw [if_neg hk, if_neg hk, if_neg hk, sub_zero]
  have h4 := (abs_norm_sub_norm_le (convVal r w n) (exactConv r w n)).trans h3
  have hW : (0:ℝ) ≤ windowSum w := by exact_mod_cast windowSum_nonneg w
  rw [sq_sub_sq, abs_mul, abs_of_nonneg (by positivity), errorBound]
  calc (‖convVal r w n‖ + ‖exactConv r w n‖) * |‖convVal r w n‖ - ‖exactConv r w n‖|
      ≤ (2 * windowSum w) * (windowSum w * (1 / 2 ^ 100)) :=
        mul_le_mul (by linarith) h4 (abs_nonneg _) (by positivity)
    _ = (windowSum w : ℝ) ^ 2 / 2 ^ 98 / 2 := by ring

/-- With a rational ratio of the rates the model's convolution is the exact one. -/
theorem convVal_eq_exactConv {r : Rxu} (h : RxInv r) (he : ExactRates r.cfg.bw r.cfg.fs) (w : List Sample) (n : Nat) :
    convVal r w n = exactConv r w n := by
  rw [convVal, exactConv]
  refine Finset.sum_congr rfl fun k _ => ?_
  split
  · next hk => rw [h.down_val hk.2, (h.isUpTable.2 _ (by rw [h.up_length]; exact hk.2)).2.2 he]
  · rfl

/-- The first maximum of the exact magnitudes is a peak that RXU may find. -/
theorem mayPeak_of_exact {r : Rxu} (h : RxInv r) {w : List Sample} {a : Nat} (ha : a < w.length + r.num - 1)
    (hmax : ∀ n < w.length + r.num - 1, ‖exactConv r w n‖ ≤ ‖exactConv r w a‖)
    (hfirst : ∀ n < a, ‖exactConv r w n‖ < ‖exactConv r w a‖) : MayPeak r w ‖convVal r w a‖ a := by
  by_cases he : ExactRates r.cfg.bw r.cfg.fs
  · simp only [← convVal_eq_exactConv h he] at hmax hfirst
    exact .inl ⟨ha, rfl, hmax, hfirst⟩
  · refine .inr ⟨he, ha, rfl, fun n hn => ?_⟩
    have h1 := abs_le.mp (normSq_convVal_close h w n)
    have h2 := abs_le.mp (normSq_convVal_close h w a)
    have h3 := pow_le_pow_left₀ (norm_nonneg _) (hmax n hn) 2
    linarith

/-- DET of the exact magnitude is a Boolean that RXU may have. -/
theorem mayDetect_of_exact {r : Rxu} (h : RxInv r) {w : List Sample} {a : Nat} (hd : thresholdVal r < ‖exactConv r w a‖) :
    MayDetect r w ‖convVal r w a‖ := by
  by_cases hlt : thresholdVal r < ‖convVal r w a‖
  · exact .inl hlt
  · refine .inr ⟨fun he => hlt (by rwa [convVal_eq_exactConv h he]), (norm_nonneg _).trans (not_lt.mp hlt), ?_⟩
    have h1 := abs_le.mp (normSq_convVal_close h w a)
    have h0 := (norm_nonneg _).trans (not_lt.mp hlt)
    have h2 := pow_le_pow_left₀ (norm_nonneg _) (not_lt.mp hlt) 2
    have h3 := pow_le_pow_left₀ h0 hd.le 2
    have h4 : 0 ≤ errorBound w := by rw [errorBound]; positivity
    rw [abs_le]; constructor <;> linarith

/-- No DET of the exact magnitude is a Boolean that RXU may have. -/
theorem mayMiss_of_exact {r : Rxu} (h : RxInv r) {w : List Sample} {a : Nat} (hd : ‖exactConv r w a‖ ≤ thresholdVal r) :
    MayMiss r w ‖convVal r w a‖ := by
  by_cases hle : ‖convVal r w a‖ ≤ thresholdVal r
  · exact .inl hle
  · refine .inr ⟨fun he => hle (by rwa [convVal_eq_exactConv h he]), (norm_nonneg _).trans hd, ?_⟩
    have h1 := abs_le.mp (normSq_convVal_close h w a)
    have h2 := pow_le_pow_left₀ (norm_nonneg _) hd 2
    have h3 := pow_le_pow_left₀ ((norm_nonneg _).trans hd) (not_le.mp hle).le 2
    have h4 : 0 ≤ errorBound w := by rw [errorBound]; positivity
    rw [abs_le]; constructor <;> linarith

theorem execChirpUp_of_tx {s : State} {u : Txu} (h : s.tx = some u) : execChirpUp s = answer s (.samples u.up) := by
  rw [execChirpUp, h]

theorem execChirpUp_of_rx {s : State} {r : Rxu} (h : s.tx = none) (hr : s.rx = some r) :
    execChirpUp s = answer s (.samples r.up) := by
  rw [execChirpUp, h]; exact withRx_some hr _

end Sys2Proof.Machine
end

