-- ==== Sys2Proof/Tests/Slice0.lean ====
section
/-! SUPPORT. Tests: what `WellFormed` refuses, a word of every row of the table written out from its encoding (R93), the
spec's own vectors (`95_test_vectors.md`), single steps on small states, and for each obligation with hypotheses a state
that meets them. The small receiver has `BW = 128`, `fs = 2`: `num = 2` and `UP = [1, 1]`, since `theta(1) = -16` turns. -/

namespace Sys2Proof.Tests
set_option Elab.async false
open Sys2Proof.Machine

/-! ## WellFormed smoke: each check refuses an ill-formed term -/

theorem test_wf_rxChunk_empty : (Instr.rxChunk []).wellFormed = false := by decide
theorem test_wf_correlate_empty : (Instr.correlate []).wellFormed = false := by decide
theorem test_wf_peak_empty : (Instr.peak []).wellFormed = false := by decide
theorem test_wf_dechirp_empty : (Instr.dechirp []).wellFormed = false := by decide
theorem test_wf_listenStep_empty : (Instr.listenStep []).wellFormed = false := by decide
theorem test_wf_syncStep_empty : (Instr.syncStep []).wellFormed = false := by decide
theorem test_wf_demodStep_empty : (Instr.demodStep []).wellFormed = false := by decide
theorem test_wf_symData_term : (Instr.symData 0b0000001).wellFormed = false := by decide
theorem test_wf_symData_abort : (Instr.symData 0b0000010).wellFormed = false := by decide

/-! ## Decoding: `cmd[7:6]` the class, `cmd[5:0]` the operation (R90, R93); ST (R89); SYM (R81) -/

/-- A command word from its class and its operation number, with its operands. -/
def word (cls : BitVec 2) (op : BitVec 6) (args : List Operand) : Encoded := .cmd { cmd := cls ++ op, args := args }

/-- 40, the threshold of the examples. -/
def forty : XReal := realOfRat 40

/-- The real number 5, and that number as the magnitude of another. -/
def five : XReal := magnitude { terms := [⟨3, 0⟩, ⟨4, 1 / 4⟩] }

theorem test_decode_rxConstruct : decode (word 0b00 0b000001 [.real five, .real forty, .bool true, .real forty])
    = .ok (.rxConstruct five forty true forty) := by rfl
theorem test_decode_rxReset : decode (word 0b00 0b000010 []) = .ok .rxReset := by rfl
theorem test_decode_rxChunk : decode (word 0b00 0b000011 [.samples [zeroSample]]) = .ok (.rxChunk [zeroSample]) := by rfl
theorem test_decode_txConstruct : decode (word 0b00 0b000100 [.real five, .real forty, .bool false])
    = .ok (.txConstruct five forty false) := by rfl
theorem test_decode_txSubmit : decode (word 0b00 0b000101 [.nats [0x41, 0x0A]]) = .ok (.txSubmit [0x41, 0x0A]) := by rfl
theorem test_decode_txDrain : decode (word 0b00 0b000110 [.nat 1000]) = .ok (.txDrain 1000) := by rfl
theorem test_decode_chirpUp : decode (word 0b01 0b000000 []) = .ok .chirpUp := by rfl
theorem test_decode_chirpDown : decode (word 0b01 0b000001 []) = .ok .chirpDown := by rfl
theorem test_decode_chirpOf : decode (word 0b01 0b000010 [.nat 127]) = .ok (.chirpOf 127) := by rfl
theorem test_decode_buildFrame : decode (word 0b01 0b000011 [.nats [0x41], .bool true])
    = .ok (.buildFrame [0x41] true) := by rfl
theorem test_decode_correlate : decode (word 0b01 0b000100 [.samples [zeroSample]])
    = .ok (.correlate [zeroSample]) := by rfl
theorem test_decode_peak : decode (word 0b01 0b000101 [.reals [forty]]) = .ok (.peak [forty]) := by rfl
theorem test_decode_dechirp : decode (word 0b01 0b000110 [.samples [zeroSample]]) = .ok (.dechirp [zeroSample]) := by rfl
theorem test_decode_demap : decode (word 0b01 0b000111 [.int (-38)]) = .ok (.demap (-38)) := by rfl
theorem test_decode_h74Enc : decode (word 0b01 0b001000 [.nat 15]) = .ok (.h74Enc 15) := by rfl
theorem test_decode_h74Dec : decode (word 0b01 0b001001 [.nat 102]) = .ok (.h74Dec 102) := by rfl
theorem test_decode_msgOf : decode (word 0b01 0b001010 [.nats [38, 11], .bool true]) = .ok (.msgOf [38, 11] true) := by rfl
theorem test_decode_symsOf : decode (word 0b01 0b001011 [.nats [0x41], .bool false]) = .ok (.symsOf [0x41] false) := by rfl
theorem test_decode_listenStep : decode (.st 0b00 [zeroSample]) = .ok (.listenStep [zeroSample]) := by rfl
theorem test_decode_syncStep : decode (.st 0b01 [zeroSample]) = .ok (.syncStep [zeroSample]) := by rfl
theorem test_decode_demodStep : decode (.st 0b10 [zeroSample]) = .ok (.demodStep [zeroSample]) := by rfl
theorem test_decode_symTerm : decode (.sym 0b0000001) = .ok .symTerm := by rfl
theorem test_decode_symAbort : decode (.sym 0b0000010) = .ok .symAbort := by rfl
theorem test_decode_symData : decode (.sym 0b0000000) = .ok (.symData 0) ∧ decode (.sym 0b0000011) = .ok (.symData 3) := by
  exact ⟨rfl, rfl⟩

/-- The table is closed: the words next to the assigned ones, and the reserved classes, are refused (R94 (a)). -/
theorem test_decode_gaps : ∀ n ∈ [0x00, 0x07, 0x3F, 0x4C, 0x7F],
    decodeCmd { cmd := BitVec.ofNat 8 n, args := [] } = .error .unassigned := by decide
theorem test_decode_reserved_classes : ∀ n ∈ [0x80, 0x81, 0xC0, 0xFF],
    decodeCmd { cmd := BitVec.ofNat 8 n, args := [] } = .error .reservedClass := by decide
theorem test_decode_state3 : decode (.st 0b11 [zeroSample]) = .error .noSuchState := by rfl
theorem test_decode_kinds : decodeCmd { cmd := 0x06, args := [.bool true] } = .error .operandKinds := by rfl

/-- The host's view of a code (R93 code column). -/
theorem test_table_words : decodeTableWord 8 0x06 = some (.txDrain 0) ∧ decodeTableWord 2 0b01 = some (.syncStep [zeroSample])
    ∧ decodeTableWord 7 0b0000001 = some .symTerm ∧ decodeTableWord 8 0x07 = none := by exact ⟨rfl, rfl, rfl, rfl⟩

/-! ## Numbers (V3, V12) -/

theorem test_round_ties : roundEven (1 / 2) = 0 ∧ roundEven (3 / 2) = 2 ∧ roundEven (5 / 2) = 2 ∧ roundEven (-1 / 2) = 0
    ∧ roundEven (-3 / 2) = -2 := by decide +kernel
/-- V3: `num` for rates that are no integer multiple. -/
theorem test_num : numOf (realOfRat 125000) (realOfRat 200000) = 205 ∧ numOf (realOfRat 125000) (realOfRat 300000) = 307 ∧
    numOf (realOfRat 125000) (realOfRat 100000) = 102 ∧ numOf (realOfRat 256) (realOfRat 1) = 0 ∧
    numOf (realOfRat 256) (realOfRat 3) = 2 ∧ numOf (realOfRat 256) (realOfRat 5) = 2 := by decide +kernel
/-- R6: `BW = sqrt 2`, once with a rational ratio of the rates (`num = round(128 * 3)`) and once without
(`num = round(128 * 2 / sqrt 2) = round(181.02)`). -/
def rootTwo (q : Rat) : XReal := magnitude { terms := [⟨q, 0⟩, ⟨q, 1 / 4⟩] }
theorem test_num_real : numOf (rootTwo 1) (rootTwo 3) = 384 := by decide +kernel
theorem test_num_irrational : numOf (rootTwo 1) (realOfRat 2) = 181 := by decide +kernel
/-- R11: `|3 + 4j| = 5` as a rate is the rate 5, and `|3 + 3 cis(1/3)| = 3` the rate 3; an irrational ratio is told from these. -/
theorem test_ratio_of_sums : rateRatio (realOfRat 3) (magnitude { terms := [⟨3, 0⟩, ⟨4, 1 / 4⟩] }) = 5 / 3
    ∧ rateRatio (magnitude { terms := [⟨3, 0⟩, ⟨3, 1 / 3⟩] }) (realOfRat 1) = 1 / 3 := by decide +kernel
theorem test_tolerance : tolerance (realOfRat 3) (magnitude { terms := [⟨3, 0⟩, ⟨4, 1 / 4⟩] }) [cplxOfRat 3] = 0
    ∧ tolerance (rootTwo 1) (realOfRat 2) [cplxOfRat 3, cplxOfRat (-1)] = 16 / 2 ^ 98 := by decide +kernel
/-- V12 `DET` at `threshold = 40`, `-1` and `0`. -/
theorem test_det : det forty (realOfRat (399 / 10)) = false ∧ det forty forty = false
    ∧ det forty (realOfRat (40000001 / 1000000)) = true ∧ det (realOfRat (-1)) (realOfRat 0) = true
    ∧ det (realOfRat 0) (realOfRat 0) = false := by decide +kernel
/-- V8 (b): `|3 + 4j| = 5`, an exact tie of two different sums. -/
theorem test_magnitude_tie : cmpAbs { terms := [⟨3, 0⟩, ⟨4, 1 / 4⟩] } (cplxOfRat 5) = .eq := by decide +kernel
/-- V12 `BIAS`. -/
theorem test_bias : bias 128 0 = 0 ∧ bias 128 127 = 127 ∧ bias 128 128 = 128 ∧ bias 128 129 = 1 ∧ bias 128 254 = 126
    ∧ bias 256 456 = 200 := by decide
/-- V12 `INDEX`, with the ties. -/
theorem test_index : demapIndex 128 90 = -38 ∧ demapIndex 128 185 = 57 ∧ demapIndex 256 255 = 0 ∧ demapIndex 256 253 = -2
    ∧ demapIndex 512 1022 = 128 ∧ demapIndex 128 0 = -128 := by decide +kernel

/-! ## Small states -/

/-- One half, the threshold of the small receiver. -/
def half : XReal := realOfRat (1 / 2)

/-- The small receiver in LISTENING. -/
def smallRx : Rxu := constructRxu (realOfRat 128) (realOfRat 2) true half

/-- The small transmitter. -/
def smallTx : Txu := constructTxu (realOfRat 128) (realOfRat 2) true

/-- A state of the two small units. -/
def small : State := { rx := some smallRx, tx := some smallTx, calls := [], result := .idle, draws := 0 }

/-- The small receiver in SYNCING with two matches. -/
def syncRx : Rxu := { smallRx with rxState := 1, matchCnt := 2 }

/-- The small receiver in DEMODING. -/
def demodRx : Rxu := { smallRx with rxState := 2, matchCnt := 3, symBuf := [38, 11] }

/-- The state of the small units with another receiver. -/
def withUnit (r : Rxu) : State := { small with rx := some r }

/-- A sample that is an integer. -/
def smp (q : Rat) : Sample := cplxOfRat q

/-- The result of a call, where there is a next state. -/
def resultOf : Out → Option Result
  | .next t => some t.result
  | _ => none

/-- The next state, where there is one. -/
def nextOf : Out → Option State
  | .next t => some t
  | _ => none

/-- The refusal, where there is one. -/
def refusalOf : Out → Option Refusal
  | .refused e => some e
  | _ => none

/-- The receiver's state, counter and buffer length after a call. -/
def rxOf : Out → Option (BitVec 2 × BitVec 2 × Nat × List Symbol)
  | .next t => t.rx.map fun r => (r.rxState, r.matchCnt, r.sampleBuf.length, r.symBuf)
  | _ => none

/-! ## Single steps -/

/-- V20: constructed units. -/
theorem test_rxConstruct_A : (rxOf (exec (.rxConstruct (realOfRat 125000) (realOfRat 125000) true forty) small)) = some (0, 0, 0, []) := by decide +kernel
theorem test_rxConstruct_refused : refusalOf (exec (.rxConstruct (realOfRat 256) (realOfRat 1) true forty) small) = some .invalidConfiguration := by decide +kernel
theorem test_txConstruct_refused : refusalOf (exec (.txConstruct (realOfRat 125000) (realOfRat (-1)) false) small) = some .invalidConfiguration := by decide +kernel
/-- V20: `RX_RESET` out of SYNCING. -/
theorem test_rxReset : rxOf (exec .rxReset (withUnit { syncRx with sampleBuf := [smp 1] })) = some (0, 0, 0, []) := by decide +kernel
/-- R171: a chunk above the threshold is buffered, `v = 2 > 1/2`. -/
theorem test_listenStep : rxOf (exec (.listenStep [smp 1, smp 1, smp 1]) small) = some (1, 0, 3, []) := by decide +kernel
/-- R162, R171: a peak equal to the threshold is no detection. -/
theorem test_listenStep_equal : rxOf (exec (.listenStep [smp (1 / 2)]) small) = some (0, 0, 0, []) := by decide +kernel
/-- R172: `[-1, 2]` has its peak 2 at index `2 = num`: the third match; the transition waits for a whole window. -/
theorem test_syncStep_match : rxOf (exec (.syncStep [smp (-1), smp 2]) (withUnit syncRx)) = some (1, 3, 0, []) := by decide +kernel
/-- R172: the transition to DEMODING keeps the buffered window. -/
theorem test_syncStep_transition : rxOf (exec (.syncStep [smp (-1), smp 2, smp 0, smp 0, smp 5]) (withUnit syncRx))
    = some (2, 3, 3, []) := by decide +kernel
/-- R175, R193: two data symbols of index 0; one sample is left. -/
theorem test_demodStep_data : rxOf (exec (.demodStep [smp (-1), smp 2, smp (-1), smp 2, smp 9]) (withUnit demodRx))
    = some (2, 3, 1, [38, 11, 0, 0]) := by decide +kernel
/-- R180: `[1, 0]` has its peak at index 0, the call never returns. -/
theorem test_rxChunk_hang : resultOf (exec (.rxChunk [smp 1, smp 0]) (withUnit syncRx)) = some .notReturned := by decide +kernel
/-- V19: a weak window aborts, the rest of the chunk is lost (R260). -/
theorem test_rxChunk_abort : rxOf (exec (.rxChunk [smp 0, smp 0, smp 7]) (withUnit demodRx)) = some (0, 0, 0, []) := by decide +kernel
/-- V16: `TX_SUBMIT [0x41]` is ignored; `TX_SUBMIT [0x41, 0x0A]` queues `7 * num + 8192` samples. -/
theorem test_txSubmit_ignored : nextOf (exec (.txSubmit [0x41]) small) = some { small with result := .done } := by decide +kernel
theorem test_txDrain_short : resultOf (exec (.txDrain 5) { small with tx := some { smallTx with txBuf := [smp 1, smp 2] } })
    = some (.samples [smp 1, smp 2]) := by decide +kernel
/-- The table of the small configuration: `cis(0), cis(-16)`. -/
theorem test_chirpUp : resultOf (exec .chirpUp small) = some (.samples [cis 0, cis 0]) := by decide +kernel
/-- V1: entries 1, 2 and 127 of configuration A. -/
theorem test_chirpUp_A : [1, 2, 127].map (theta 1 (rateRatio (realOfRat 125000) (realOfRat 125000)) · |> wrapTurn) = [129 / 256, 4 / 256, 129 / 256] := by decide +kernel
theorem test_chirpDown : resultOf (exec .chirpDown small) = some (.samples [cplxConj (cis 0), cplxConj (cis 0)]) := by decide +kernel
/-- V10: offsets. -/
theorem test_chirpOf_offsets : [1, 2, 3, 64, 127].map (symbolOffset 205) = [1, 3, 4, 102, 203] := by decide
theorem test_buildFrame_length : (buildFrame [smp 1, smp 2] 2 true []).length = 8202 := by decide +kernel
/-- R160 with `DOWN = [1, 1]`. -/
theorem test_correlate : convolveAt [cis 0, cis 0] [smp 1, smp 2] 1 = { terms := [⟨1, 0⟩, ⟨2, 0⟩] } := by decide +kernel
/-- V12: `PEAK([0, 3, 7, 7, 1]) = (7, 2)`. -/
theorem test_peak : resultOf (exec (.peak ([0, 3, 7, 7, 1].map realOfRat)) small) = some (.peak (realOfRat 7) 2) := by decide +kernel
theorem test_dechirp_weak : resultOf (exec (.dechirp [smp 0, smp 0]) small) = some (.symbol 0x02) := by decide +kernel
theorem test_dechirp_length : refusalOf (exec (.dechirp [smp 0]) small) = some .windowLength := by decide +kernel
/-- R192: `DEMAP(-38) = 38`, `DEMAP(57) = 71`, `DEMAP(-128) = 0`. -/
theorem test_demap : ([-38, 57, -128, 128, 126].map (demapLookup demapTable)) = [38, 71, 0, 0, 2] := by decide
/-- V4. -/
theorem test_h74Enc : hammingEncode 9 = 76 ∧ hammingEncode 4 = 0x26 ∧ hammingEncode 15 = 127 := by decide
/-- V6, first and sixth row, and V7. -/
theorem test_h74Dec : ((List.range 16).map fun c => hammingDecode (BitVec.ofNat 7 c))
    = [0, 0, 0, 1, 0, 2, 4, 8, 0, 1, 1, 1, 9, 5, 3, 1] ∧ hammingDecode 70 = 8 ∧ hammingDecode 62 = 3 := by decide
/-- V15: FEC on, an unpaired symbol, and FEC off. -/
theorem test_msgOf : messageBytes 0 true [70, 11] = [0x81] ∧ messageBytes 0 true [0, 38, 71, 51, 76] = [0x04, 0x86]
    ∧ messageBytes 0 false [4, 3] = [0x43] := by decide
/-- V15: a raw symbol above 15 gives the drawn byte. -/
theorem test_msgOf_free : pairBytes false 5 0 [16, 3] = [Config.freeByte 5 0] := by rfl
/-- V11. -/
theorem test_symsOf : symsOf true [0x48, 0x69] = [38, 71, 51, 76] ∧ symsOf false [0x12] = [1, 2] := by decide
/-- R193: the terminator emits `MSG_OF([38, 11], 1) = [0x41]`. -/
theorem test_symTerm : resultOf (exec .symTerm (withUnit demodRx)) = some (.signalDone ⟨(), [0x41]⟩) := by decide +kernel
theorem test_symAbort : rxOf (exec .symAbort (withUnit demodRx)) = some (0, 0, 0, []) := by decide +kernel
theorem test_symData : rxOf (exec (.symData 38) (withUnit demodRx)) = some (2, 3, 0, [38, 11, 38]) := by decide +kernel
theorem test_symData_reserved : refusalOf (exec (.symData 0x01) (withUnit demodRx)) = some .reservedSymbol := by decide +kernel
/-- A step makes the host's next call. -/
theorem test_step : nextOf (step { small with calls := [⟨0x48, [.nat 4]⟩, ⟨0x02, []⟩] })
    = some { small with calls := [⟨0x02, []⟩], result := .codeword 38 } := by decide +kernel
/-- The operation of a table word is the one the next step runs. -/
theorem test_withFetchWord : nextOf (step (small.withFetchWord 8 0x48)) = some { small with result := .codeword 0 } := by decide +kernel

/-! ## Witnesses: for each obligation with hypotheses a state and operands that meet them, clause by clause -/

theorem small_valid : validRates (realOfRat 128) (realOfRat 2) = true := by decide +kernel

theorem smallRx_inv : RxInv smallRx := constructRxu_inv _ _ small_valid

theorem smallTx_inv : TxInv smallTx := constructTxu_inv _ small_valid

theorem syncRx_inv : RxInv syncRx := by
  refine SameTables.inv (r := smallRx) (r' := syncRx) ⟨rfl, rfl, rfl, rfl, rfl, rfl⟩ smallRx_inv ?_ ?_ ?_ ?_ ?_ ?_ <;>
    simp [syncRx, smallRx, listening, demoding]

theorem demodRx_inv : RxInv demodRx := by
  refine SameTables.inv (r := smallRx) (r' := demodRx) ⟨rfl, rfl, rfl, rfl, rfl, rfl⟩ smallRx_inv ?_ ?_ ?_ ?_ ?_ ?_ <;>
    simp [demodRx, smallRx, listening, syncing, Config.symTerm, Config.symAbort]

theorem small_inv : StateInv small := ⟨(by rintro _ ⟨⟩; exact smallRx_inv), (by rintro _ ⟨⟩; exact smallTx_inv)⟩

theorem withUnit_inv {r : Rxu} (h : RxInv r) : StateInv (withUnit r) :=
  ⟨(by rintro _ ⟨⟩; exact h), (by rintro _ ⟨⟩; exact smallTx_inv)⟩

theorem smallRx_num : smallRx.num = 2 := by decide +kernel

/-- The rates of the small units have a rational ratio. -/
theorem small_exact : ExactRates (realOfRat 128) (realOfRat 2) := exactRates_ofRat 128 2 (by norm_num)

/-- A state of the small units in which the host makes one call. -/
def calling (c : Call) : State := { small with calls := [c] }

/-- An operation of the tests that answers a next state does. -/
theorem next_of_nextOf {o : Out} (h : (nextOf o).isSome = true) : ∃ t, o = .next t := by
  cases o with
  | next t => exact ⟨t, rfl⟩
  | fault f => cases h
  | refused e => cases h

theorem witness_DecodeEncode : (Instr.symData 3).wellFormed = true ∧ (Instr.rxChunk [zeroSample]).wellFormed = true := by decide

theorem witness_EncodeDecode : decode (.cmd ⟨0x48, [.nat 15]⟩) = .ok (.h74Enc 15) ∧ decode (.st 0 [zeroSample]) =
    .ok (.listenStep [zeroSample]) ∧ decode (.sym 127) = .ok (.symData 127) := ⟨rfl, rfl, rfl⟩

theorem witness_UnassignedCommandRefused : ∀ w ∈ ([0x00, 0x07, 0x3F, 0x4C, 0xFF] : List (BitVec 8)),
    (calling ⟨w, []⟩).calls = [⟨w, []⟩] ∧ (calling ⟨w, []⟩).result ≠ .notReturned ∧
    ¬((0x01 ≤ w.toNat ∧ w.toNat ≤ 0x06) ∨ (0x40 ≤ w.toNat ∧ w.toNat ≤ 0x4B)) := by
  intro w hw
  refine ⟨rfl, (by intro h; cases h), ?_⟩
  revert w; decide

theorem witness_OutOfRangeOperandRefused : 127 < 128 ∧ 15 < 16 ∧ 256 ∈ [0x41, 256] ∧ 255 < 256 ∧ 128 ∈ [38, 128] := by decide

theorem witness_StepRunsDecodedCall : (calling ⟨0x02, []⟩).calls = [⟨0x02, []⟩] ∧ (calling ⟨0x02, []⟩).result ≠ .notReturned ∧
    decodeCmd ⟨0x02, []⟩ = .ok .rxReset := ⟨rfl, (by intro h; cases h), rfl⟩

theorem witness_NoCallNoChange : State.reset.calls = [] ∧ ({ small with result := .notReturned } : State).result = .notReturned :=
  ⟨rfl, rfl⟩

theorem witness_StepKeepsInvariant : StateInv (calling ⟨0x03, [.samples [smp 1]]⟩) ∧
    ∃ t, step (calling ⟨0x03, [.samples [smp 1]]⟩) = .next t :=
  ⟨⟨small_inv.1, small_inv.2⟩, next_of_nextOf (by decide +kernel)⟩

theorem witness_NothingCrossesBoundary : StateInv (calling ⟨0x03, [.samples [smp 1]]⟩) ∧
    decodeCmd ⟨0x03, [.samples [smp 1]]⟩ = .ok (.rxChunk [smp 1]) ∧ small.rx = some smallRx ∧ small.tx = some smallTx :=
  ⟨⟨small_inv.1, small_inv.2⟩, rfl, rfl, rfl⟩

/-- The three transitions of a chunk: LISTENING to SYNCING, SYNCING to DEMODING, DEMODING to LISTENING. -/
theorem witness_ReceiverTransitions :
    rxOf (exec (.rxChunk [smp 1]) small) = some (1, 0, 1, []) ∧
    rxOf (exec (.rxChunk [smp (-1), smp 2, smp 0, smp 0]) (withUnit syncRx)) = some (2, 3, 2, []) ∧
    rxOf (exec (.rxChunk [smp 0, smp 0]) (withUnit demodRx)) = some (0, 0, 0, []) :=
  ⟨by decide +kernel, by decide +kernel, by decide +kernel⟩

/-- A next state for each of the four clauses: SYNCING stays, DEMODING stays, and the two transitions. -/
theorem witness_BufferLengthBetweenCalls : StateInv small ∧ StateInv (withUnit syncRx) ∧ StateInv (withUnit demodRx) ∧
    rxOf (exec (.rxChunk [smp (-1), smp 2, smp 9]) (withUnit syncRx)) = some (1, 3, 1, []) ∧
    rxOf (exec (.rxChunk [smp (-1), smp 2, smp 9]) (withUnit demodRx)) = some (2, 3, 1, [38, 11, 0]) ∧
    rxOf (exec (.rxChunk [smp 1]) small) = some (1, 0, 1, []) ∧
    rxOf (exec (.rxChunk [smp (-1), smp 2, smp 0, smp 0]) (withUnit syncRx)) = some (2, 3, 2, []) :=
  ⟨small_inv, withUnit_inv syncRx_inv, withUnit_inv demodRx_inv, by decide +kernel, by decide +kernel, by decide +kernel,
    by decide +kernel⟩

theorem witness_TablesWrittenOnlyByConstruction : (∃ t, exec .rxReset small = .next t) ∧ small.rx = some smallRx ∧
    small.tx = some smallTx ∧ (∀ bw fs h thr, Instr.rxReset ≠ .rxConstruct bw fs h thr) ∧
    ∀ bw fs h, Instr.rxReset ≠ .txConstruct bw fs h :=
  ⟨⟨_, rfl⟩, rfl, rfl, (by rintro _ _ _ _ ⟨⟩), (by rintro _ _ _ ⟨⟩)⟩

theorem witness_UnitsCommute : isRxCall .rxReset = true ∧ isTxCall (.txDrain 1) = true ∧
    (∃ a b, exec .rxReset small = .next a ∧ exec (.txDrain 1) a = .next b) ∧
    ∃ a b, exec (.txDrain 1) small = .next a ∧ exec .rxReset a = .next b :=
  ⟨rfl, rfl, ⟨_, _, rfl, rfl⟩, ⟨_, _, rfl, rfl⟩⟩

/-- A probe that draws no byte, `MSG_OF` with FEC on, and with FEC off at the boundary symbol 15. -/
theorem witness_ProbesChangeNoState : isProbe (.h74Enc 4) = true ∧ (∃ t, exec (.h74Enc 4) small = .next t) ∧
    (∀ y h, Instr.h74Enc 4 ≠ .msgOf y h) ∧ isProbe (.msgOf [15, 3] false) = true ∧
    (∃ t, exec (.msgOf [15, 3] false) small = .next t) ∧ (∀ x ∈ ([15, 3] : List Symbol), x.toNat ≤ 15) ∧
    ∃ t, exec (.msgOf [38, 11] true) small = .next t :=
  ⟨rfl, ⟨_, rfl⟩, (by rintro _ _ ⟨⟩), rfl, ⟨_, rfl⟩, by decide, ⟨_, rfl⟩⟩

theorem witness_NotConstructedRefused : ({ small with rx := none, tx := none } : State).rx = none ∧
    ({ small with rx := none, tx := none } : State).tx = none := ⟨rfl, rfl⟩

/-- The table `DOWN` of the small receiver. -/
def smallDown : List Sample := [cplxConj (cis 0), cplxConj (cis 0)]

theorem smallRx_down : smallRx.down = smallDown := by decide +kernel

theorem zeros_peakOf : peakOf (correlation 2 smallDown [smp 0, smp 0]) = some (magnitude ⟨[]⟩, 0) := by decide +kernel

theorem zeros_det : det half (magnitude ⟨[]⟩) = false := by decide +kernel

/-- The window `[0, 0]` has the peak 0 at index 0, for each of the small receivers. -/
theorem zeros_isPeak {r : Rxu} (h : RxInv r) (hd : r.down = smallDown) (hn : r.num = 2) :
    IsPeak r [smp 0, smp 0] (realVal (magnitude ⟨[]⟩)) 0 :=
  isPeak_of_peakOf h (List.cons_ne_nil _ _) (by rw [hd, hn]; exact zeros_peakOf)

theorem zero_le_half {r : Rxu} (h : r.cfg.threshold = half) : realVal (magnitude ⟨[]⟩) ≤ thresholdVal r := by
  rw [thresholdVal, h, ← not_lt, ← det_iff, zeros_det]
  exact Bool.false_ne_true

theorem witness_NoEffectCalls : small.tx = some smallTx ∧ ([0x41] : List Byte).getLast? ≠ some 0x0A ∧
    ([] : List Byte).getLast? ≠ some 0x0A ∧ smallTx.txBuf = [] ∧ small.rx = some smallRx ∧ RxInv smallRx ∧ smallRx.rxState = 0 ∧
    NeverDetects smallRx [smp 0, smp 0] :=
  ⟨rfl, by decide, by decide, rfl, rfl, smallRx_inv, rfl,
    (zeros_isPeak smallRx_inv smallRx_down smallRx_num).neverDetects (.inl small_exact) (zero_le_half rfl)⟩

/-- A legal configuration, a rate of 0, and the tie `num = round(1/2) = 0` (V3). -/
theorem witness_RxConstructBuildsReceiver : IsRound (128 * realVal (realOfRat 2) / realVal (realOfRat 128)) 2 ∧
    IsRound (128 * realVal (realOfRat 1) / realVal (realOfRat 0)) 0 ∧
    IsRound (128 * realVal (realOfRat 1) / realVal (realOfRat 256)) 0 := by
  simp only [realVal_ofRat]
  refine ⟨⟨by norm_num, by norm_num⟩, ⟨by norm_num, by norm_num⟩, ⟨by norm_num [abs_le], by norm_num⟩⟩

theorem witness_TxConstructBuildsTransmitter : IsRound (128 * realVal (realOfRat 2) / realVal (realOfRat 128)) 2 ∧
    IsRound (128 * realVal (realOfRat 1) / realVal (realOfRat 0)) 0 ∧
    IsRound (128 * realVal (realOfRat 1) / realVal (realOfRat 256)) 0 :=
  witness_RxConstructBuildsReceiver

theorem witness_RxResetClears : small.rx = some smallRx ∧ RxInv smallRx ∧ smallRx.rxState = 0 := ⟨rfl, smallRx_inv, rfl⟩

theorem witness_ChirpUpReturnsTable : StateInv small ∧ small.tx = some smallTx ∧ StateInv { small with tx := none } ∧
    ({ small with tx := none } : State).rx = some smallRx :=
  ⟨small_inv, rfl, ⟨small_inv.1, by rintro _ ⟨⟩⟩, rfl⟩

theorem witness_ChirpDownReturnsConjugates : small.rx = some smallRx ∧ RxInv smallRx := ⟨rfl, smallRx_inv⟩

/-- A receiver with `fs = BW`, `num = 128`. -/
def wideRx : Rxu := constructRxu (realOfRat 1) (realOfRat 1) true half

theorem wide_valid : validRates (realOfRat 1) (realOfRat 1) = true := by decide +kernel

theorem wideRx_inv : RxInv wideRx := constructRxu_inv _ _ wide_valid

theorem wideRx_num : wideRx.num = 128 := by decide +kernel

/-- The `UP` of an RXU with `m = 1`, and that of a TXU with `m = 2`. -/
theorem witness_UpTableClosedForm :
    (IsUnitTable (realOfRat 1) (realOfRat 1) wideRx.num wideRx.up ∧ realVal (realOfRat 1) = (1 : Nat) * realVal (realOfRat 1)) ∧
    IsUnitTable (realOfRat 1) (realOfRat 2) (constructTxu (realOfRat 1) (realOfRat 2) true).num
        (constructTxu (realOfRat 1) (realOfRat 2) true).up ∧
      realVal (realOfRat 2) = (2 : Nat) * realVal (realOfRat 1) :=
  ⟨⟨.inl ⟨wideRx, wideRx_inv, rfl, rfl, rfl, rfl⟩, by simp⟩,
    .inr ⟨_, constructTxu_inv true (by decide +kernel), rfl, rfl, rfl, rfl⟩, by simp⟩

theorem small_rates : 128 * realVal (realOfRat 2) / realVal (realOfRat 128) = (2 : Nat) := by
  simp only [realVal_ofRat]; norm_num

theorem witness_UpTableSymmetric : IsUnitTable (realOfRat 128) (realOfRat 2) smallTx.num smallTx.up ∧
    IsUnitTable (realOfRat 128) (realOfRat 2) smallRx.num smallRx.up ∧
    128 * realVal (realOfRat 2) / realVal (realOfRat 128) = (2 : Nat) :=
  ⟨.inr ⟨smallTx, smallTx_inv, rfl, rfl, rfl, rfl⟩, .inl ⟨smallRx, smallRx_inv, rfl, rfl, rfl, rfl⟩, small_rates⟩

theorem witness_TablesHaveUnitMagnitude : IsUnitTable (realOfRat 128) (realOfRat 2) smallTx.num smallTx.up ∧
    1 < smallTx.num ∧ RxInv smallRx ∧ 1 < smallRx.num :=
  ⟨witness_UpTableSymmetric.1, by rw [show smallTx.num = 2 from smallRx_num]; decide, smallRx_inv,
    by rw [smallRx_num]; decide⟩

theorem witness_ChirpOfShiftsTable : small.tx = some smallTx ∧ TxInv smallTx ∧ 1 < smallTx.num :=
  ⟨rfl, smallTx_inv, by rw [show smallTx.num = 2 from smallRx_num]; decide⟩

theorem witness_FecSymbolsAreNotReserved :
    exec (.symsOf [0x12] true) small = .next { small with result := .symbols (symsOf true [0x12]) } := rfl

theorem witness_BuildFrameLayout : small.tx = some smallTx ∧ TxInv smallTx := ⟨rfl, smallTx_inv⟩

theorem witness_TxSubmitQueuesFrame : small.tx = some smallTx ∧ ∀ p : List Byte, ([] : List Byte) ≠ p ++ [0x0A] :=
  ⟨rfl, by intro p h; simp at h⟩

theorem witness_TxDrainTakesOldest : small.tx = some smallTx := rfl

theorem witness_DrainsCompose : small.tx = some smallTx := rfl

theorem witness_CorrelateIsConvolution : small.rx = some smallRx ∧ RxInv smallRx ∧ [smp 1] ≠ [] := ⟨rfl, smallRx_inv, by simp⟩

theorem witness_CorrelateScales : small.rx = some smallRx ∧ RxInv smallRx ∧ [smp 1] ≠ [] ∧ (0 : Rat) ≤ 0 :=
  ⟨rfl, smallRx_inv, by simp, le_rfl⟩

theorem witness_PeakIsFirstMaximum : [realOfRat 7] ≠ [] := by simp

theorem witness_AlignedRepetitionAtNum : RxInv smallRx ∧
    128 * realVal smallRx.cfg.fs / realVal smallRx.cfg.bw = (2 : Nat) := ⟨smallRx_inv, small_rates⟩

theorem witness_ImpulsePeaksAtZero : RxInv smallRx := smallRx_inv

/-- Every clause: an empty chunk needs nothing more, `rx_state = 3`, and the three states. -/
theorem witness_RxChunkRunsSelectedStep : (withUnit { smallRx with rxState := 3 }).rx = some { smallRx with rxState := 3 } ∧
    [smp 1] ≠ [] ∧ RxInv smallRx ∧ smallRx.rxState = 0 ∧ RxInv syncRx ∧ syncRx.rxState = 1 ∧ RxInv demodRx ∧
    demodRx.rxState = 2 := ⟨rfl, by simp, smallRx_inv, rfl, syncRx_inv, rfl, demodRx_inv, rfl⟩

theorem witness_ListenStepDetects : small.rx = some smallRx ∧ RxInv smallRx ∧ [smp 1] ≠ [] := ⟨rfl, smallRx_inv, by simp⟩

theorem witness_SyncStepRunsLoop : (withUnit syncRx).rx = some syncRx ∧ RxInv syncRx ∧ [smp 1] ≠ [] := ⟨rfl, syncRx_inv, by simp⟩

/-- The magnitude at index 0 of `[1, 0]`. -/
def impulseMag : XReal := magnitude (convolveAt smallDown [smp 1, smp 0] 0)

theorem impulse_peakOf : peakOf (correlation 2 smallDown [smp 1, smp 0]) = some (impulseMag, 0) := by decide +kernel

theorem impulse_det : det half impulseMag = true := by decide +kernel

/-- `[1, 0]` has its peak 1 at index 0. -/
theorem impulse_isPeak {r : Rxu} (h : RxInv r) (hd : r.down = smallDown) (hn : r.num = 2) :
    IsPeak r [smp 1, smp 0] (realVal impulseMag) 0 :=
  isPeak_of_peakOf h (List.cons_ne_nil _ _) (by rw [hd, hn]; exact impulse_peakOf)

theorem half_lt_impulse {r : Rxu} (h : r.cfg.threshold = half) : thresholdVal r < realVal impulseMag := by
  rw [thresholdVal, h, ← det_iff, impulse_det]

theorem syncRx_num : syncRx.num = 2 := smallRx_num

theorem witness_SyncHangsAtBiasZero : (withUnit syncRx).rx = some syncRx ∧ RxInv syncRx ∧ syncRx.rxState = 1 ∧
    syncRx.matchCnt ≠ 3 ∧ syncRx.num ≤ (syncRx.sampleBuf ++ [smp 1, smp 0]).length ∧
    DetectsAt syncRx ((syncRx.sampleBuf ++ [smp 1, smp 0]).take syncRx.num) 0 := by
  refine ⟨rfl, syncRx_inv, rfl, by decide, ?_, ?_⟩
  · rw [syncRx_num]; exact le_rfl
  · rw [syncRx_num]
    exact (impulse_isPeak syncRx_inv smallRx_down syncRx_num).detectsAt (.inl small_exact) (half_lt_impulse rfl)

/-- The receiver of the hang makes an iteration of SYNCING's loop: the iteration that repeats itself. -/
theorem hang_iteration :
    SyncIter { syncRx with sampleBuf := [smp 1, smp 0] } { syncRx with sampleBuf := [smp 1, smp 0] } := by
  have hi : RxInv { syncRx with sampleBuf := [smp 1, smp 0] } := by
    refine SameTables.inv (r := syncRx) ⟨rfl, rfl, rfl, rfl, rfl, rfl⟩ syncRx_inv ?_ ?_ ?_ ?_ ?_ ?_ <;>
      simp [syncRx, smallRx, listening, demoding]
  refine ⟨?_, by decide, realVal impulseMag, 0, ?_, Or.inl ⟨.inl (half_lt_impulse rfl), 0, ?_, ?_⟩⟩
  · show syncRx.num ≤ _
    rw [syncRx_num]; exact le_rfl
  · show MayPeak _ (List.take syncRx.num _) _ _
    rw [syncRx_num]; exact (impulse_isPeak hi smallRx_down syncRx_num).may
  · rfl
  · have h0 : (if 0 = syncRx.expectedBias then syncRx.matchCnt + 1 else syncRx.matchCnt) = syncRx.matchCnt :=
      if_neg (show ¬0 = smallRx.num by rw [smallRx_num]; decide)
    show _ = { syncRx with
      matchCnt := if 0 = syncRx.expectedBias then syncRx.matchCnt + 1 else syncRx.matchCnt
      sampleBuf := [smp 1, smp 0].drop 0 }
    rw [h0]; rfl

/-- Each way to end, reached without an iteration: a short buffer, the counter at 3, and the iteration that repeats itself. -/
theorem witness_SyncStepEndIsUnique : (withUnit syncRx).rx = some syncRx ∧ RxInv syncRx ∧ [smp 1] ≠ [] ∧
    (syncRx.sampleBuf ++ [smp 1]).length < syncRx.num ∧
    RxInv { syncRx with matchCnt := 3 } ∧ syncRx.num ≤ ([] ++ [smp 1, smp 0]).length ∧
    SyncIter { syncRx with sampleBuf := [smp 1, smp 0] } { syncRx with sampleBuf := [smp 1, smp 0] } ∧
    ∀ b c r2, Relation.ReflTransGen SyncIter { syncRx with sampleBuf := b, matchCnt := c } r2 →
      NoNearTie r2 (r2.sampleBuf.take r2.num) := by
  refine ⟨rfl, syncRx_inv, by simp, by rw [syncRx_num]; decide, ?_, by rw [syncRx_num]; decide, hang_iteration,
    fun b c r2 h => noNearTie_of_syncIters (r := { syncRx with sampleBuf := b, matchCnt := c }) small_exact h _⟩
  refine SameTables.inv (r := syncRx) ⟨rfl, rfl, rfl, rfl, rfl, rfl⟩ syncRx_inv ?_ ?_ ?_ ?_ ?_ ?_ <;>
    simp [syncRx, smallRx, listening, demoding]

theorem witness_DemodStepRunsLoop : (withUnit demodRx).rx = some demodRx ∧ RxInv demodRx ∧ [smp 1] ≠ [] :=
  ⟨rfl, demodRx_inv, by simp⟩

theorem witness_WeakWindowAborts : (withUnit demodRx).rx = some demodRx ∧ RxInv demodRx ∧ demodRx.rxState = 2 ∧
    demodRx.num ≤ (demodRx.sampleBuf ++ [smp 0, smp 0]).length ∧
    NeverDetects demodRx ((demodRx.sampleBuf ++ [smp 0, smp 0]).take demodRx.num) := by
  have hn : demodRx.num = 2 := smallRx_num
  refine ⟨rfl, demodRx_inv, rfl, by rw [hn]; decide, ?_⟩
  rw [hn]; exact (zeros_isPeak demodRx_inv smallRx_down hn).neverDetects (.inl small_exact) (zero_le_half rfl)

theorem witness_DechirpGivesSymbol : small.rx = some smallRx ∧ RxInv smallRx ∧ [smp 0, smp 0].length = smallRx.num ∧
    [smp 0].length ≠ smallRx.num := ⟨rfl, smallRx_inv, by rw [smallRx_num]; rfl, by rw [smallRx_num]; decide⟩

theorem half_val : thresholdVal wideRx < 64 := by
  show realVal (realOfRat (1 / 2)) < 64
  rw [realVal_ofRat]; norm_num

theorem witness_DechirpInvertsChirpOf : RxInv wideRx ∧ TxInv (constructTxu (realOfRat 1) (realOfRat 1) true) ∧
    realVal wideRx.cfg.fs = realVal wideRx.cfg.bw ∧
    realVal (constructTxu (realOfRat 1) (realOfRat 1) true).cfg.fs = realVal (constructTxu (realOfRat 1) (realOfRat 1) true).cfg.bw ∧
    thresholdVal wideRx < 64 :=
  ⟨wideRx_inv, constructTxu_inv _ wide_valid, rfl, rfl, half_val⟩

theorem witness_DemapNegates : small.rx = some smallRx ∧ RxInv smallRx := ⟨rfl, smallRx_inv⟩

theorem witness_SymbolClasses : small.rx = some smallRx ∧ (3 : Symbol) ≠ 0x01 ∧ (3 : Symbol) ≠ 0x02 := ⟨rfl, by decide, by decide⟩

/-! ### A terminator: a window of `num = 128` samples, the last of them 1 and the rest 0, has its peak at index 127 -/

/-- The wide receiver in DEMODING. -/
def wideDemod : Rxu := { wideRx with rxState := 2, matchCnt := 3, symBuf := [38, 11] }

theorem wideDemod_inv : RxInv wideDemod := by
  refine SameTables.inv (r := wideRx) (r' := wideDemod) ⟨rfl, rfl, rfl, rfl, rfl, rfl⟩ wideRx_inv ?_ ?_ ?_ ?_ ?_ ?_ <;>
    simp [wideDemod, wideRx, listening, syncing, Config.symTerm, Config.symAbort]

/-- 127 zeros and a 1. -/
def lastOne : List Sample := List.replicate 127 cplxZero ++ [smp 1]

theorem lastOne_length : lastOne.length = 128 := by
  rw [lastOne, List.length_append, List.length_replicate]; rfl

theorem lastOne_ne_nil : lastOne ≠ [] := List.append_ne_nil_of_right_ne_nil _ (List.cons_ne_nil _ _)

theorem wideDemod_num : wideDemod.num = 128 := wideRx_num

theorem lastOne_convVal (n : Nat) : ‖convVal wideDemod lastOne n‖ = if 127 ≤ n ∧ n - 127 < 128 then 1 else 0 := by
  have hn : wideDemod.num = 128 := wideDemod_num
  have hl : lastOne.length = 128 := lastOne_length
  rw [convVal, hl, hn, Finset.sum_eq_single 127]
  · split
    · next h =>
      have h1 : lastOne.getD 127 cplxZero = smp 1 := rfl
      rw [h1, norm_mul, smp, cplxVal_ofRat, wideDemod_inv.norm_down (by rw [hn]; exact h.2)]
      simp
    · simp
  · intro k hk hne
    rw [Finset.mem_range] at hk
    have h0 : lastOne.getD k cplxZero = cplxZero := by
      rw [lastOne, List.getD_append _ _ _ _ (by rw [List.length_replicate]; omega), List.getD_replicate _ (by omega)]
    rw [h0, cplxVal_zero, zero_mul, ite_self]
  · intro h; simp at h

theorem lastOne_isPeak : IsPeak wideDemod lastOne 1 127 := by
  have hn : wideDemod.num = 128 := wideDemod_num
  have hl : lastOne.length = 128 := lastOne_length
  refine ⟨by rw [hn, hl]; decide, by rw [lastOne_convVal]; norm_num, fun n _ => ?_, fun n h => ?_⟩
  · rw [lastOne_convVal]; split <;> norm_num
  · rw [lastOne_convVal, if_neg (by omega)]; norm_num

theorem lastOne_dechirps : Dechirps wideDemod lastOne 0x01 := by
  refine ⟨1, 127, lastOne_isPeak.may, Or.inr ⟨.inl ?_, -1, ?_, rfl⟩⟩
  · show realVal (realOfRat (1 / 2)) < 1
    rw [realVal_ofRat]; norm_num
  · rw [wideDemod_num]
    constructor <;> norm_num

/-- One window in DEMODING whose symbol is the terminator: the message of the symbols collected is emitted. -/
theorem demodStep_of_terminator {d : Nat} {r : Rxu} {c : List Sample} (hb : r.sampleBuf = []) (hc : c.length = r.num)
    (hy : dechirp r c = some 0x01) : demodStep d r c = .returns (cleared r) (some (frameFinish d r)) (d + 1) := by
  have hw : demodWindow d { r with sampleBuf := bufDrop c r.num } (bufHead c r.num) = .done (frameFinish d r) := by
    have hy' : dechirp { r with sampleBuf := bufDrop c r.num } c = some 0x01 := hy
    rw [show bufHead c r.num = c from List.take_of_length_le (le_of_eq hc), demodWindow, hy']; rfl
  have ha : bufAppend r.sampleBuf c = c := by rw [hb]; rfl
  rw [demodStep, ha]
  dsimp only
  rw [demodLoop, if_neg (by dsimp only; omega)]
  dsimp only
  rw [hw]
  rfl

/-- In DEMODING the window is the terminator, and the message of `[38, 11]` is emitted. -/
theorem terminator_demodStep : demodStep 0 wideDemod lastOne = .returns (cleared wideDemod) (some (frameFinish 0 wideDemod)) 1 :=
  demodStep_of_terminator rfl (lastOne_length.trans wideDemod_num.symm)
    (dechirp_of_dechirps wideDemod_inv lastOne_ne_nil (.inl (exactRates_ofRat 1 1 (by norm_num))) lastOne_dechirps)

theorem terminator_rxChunk : exec (.rxChunk lastOne) (withUnit wideDemod) = .next { withUnit wideDemod with
    rx := some (cleared wideDemod), result := .chunk lastOne.length (some (frameFinish 0 wideDemod)), draws := 1 } := by
  have h := execRxChunk_of_demoding (s := withUnit wideDemod) (c := lastOne) rfl lastOne_ne_nil rfl
  exact h.trans (by rw [show (withUnit wideDemod).draws = 0 from rfl, terminator_demodStep]; rfl)

theorem witness_MessageOnlyFromDemoding : ∃ t m, exec (.rxChunk lastOne) (withUnit wideDemod) = .next t ∧
    t.result = .chunk lastOne.length (some m) := ⟨_, _, terminator_rxChunk, rfl⟩

/-- An abort, a data symbol and the terminator. -/
theorem witness_WindowRunsItsSymbolClass : RxInv demodRx ∧ demodRx.rxState = 2 ∧ Dechirps demodRx [smp 0, smp 0] 0x02 ∧
    Dechirps demodRx [smp (-1), smp 2] 0 ∧ demodRx.num = 2 ∧ RxInv wideDemod ∧ Dechirps wideDemod lastOne 0x01 ∧
    wideDemod.num = lastOne.length :=
  ⟨demodRx_inv, rfl, dechirps_of_dechirp demodRx_inv (by simp) (by decide +kernel),
    dechirps_of_dechirp demodRx_inv (by simp) (by decide +kernel), smallRx_num, wideDemod_inv, lastOne_dechirps,
    wideDemod_num.trans lastOne_length.symm⟩

theorem witness_MsgOfInvertsSymsOf :
    exec (.symsOf [0x41, 0x00] false) small = .next { small with result := .symbols (symsOf false [0x41, 0x00]) } := rfl

theorem exec_demodStep_of_rx {s : State} {r : Rxu} {c : List Sample} (hr : s.rx = some r) (hc : c ≠ []) :
    exec (.demodStep c) s = finishStep s .message (demodStep s.draws r c) := by
  show execDemodStep c s = _
  rw [execDemodStep, withRx, hr]
  exact if_pos (nonEmpty_eq_true hc)

theorem terminator_exec_demodStep : exec (.demodStep lastOne) (withUnit wideDemod) = .next { withUnit wideDemod with
    rx := some (cleared wideDemod), result := .message (some (frameFinish 0 wideDemod)), draws := 1 } := by
  rw [exec_demodStep_of_rx rfl lastOne_ne_nil, show (withUnit wideDemod).draws = 0 from rfl, terminator_demodStep]; rfl

theorem witness_MessagesHaveNoZeroByte :
    (∃ t b, exec (.msgOf [0, 0] true) small = .next t ∧ t.result = .bytes b) ∧
    (∃ t m, exec .symTerm (withUnit demodRx) = .next t ∧ t.result = .signalDone m) ∧
    (∃ t m, exec (.demodStep lastOne) (withUnit wideDemod) = .next t ∧ t.result = .message (some m)) ∧
    ∃ t n m, exec (.rxChunk lastOne) (withUnit wideDemod) = .next t ∧ t.result = .chunk n (some m) := by
  exact ⟨⟨_, _, rfl, rfl⟩, ⟨_, _, rfl, rfl⟩, ⟨_, _, terminator_exec_demodStep, rfl⟩, ⟨_, _, _, terminator_rxChunk, rfl⟩⟩

end Sys2Proof.Tests
end

/-! ## Scope: a step is one decoded call (`00_scope.md` R9, `20_memory.md` R58)

The decoder reads well-formed operations only, and a step in which the host makes a call is the decoder's answer, run. -/

namespace Sys2Proof

/-! ### What the operand readers answer is well formed

One lemma for each reader: a sequence that must not be empty carries its own check, and a value read into its width
needs none. -/

theorem wellFormed_of_ofNonEmpty {α : Type} {make : List α → Instr} {l : List α} {i : Instr}
    (hmake : ∀ l, (make l).wellFormed = nonEmpty l) (h : ofNonEmpty make l = .ok i) : i.wellFormed = true := by
  obtain ⟨hl, rfl⟩ := ofNonEmpty_eq_ok h
  exact (hmake l).trans hl

theorem wellFormed_of_ofNarrow {w n : Nat} {make : BitVec w → Instr} {i : Instr}
    (hmake : ∀ b, (make b).wellFormed = true) (h : ofNarrow w make n = .ok i) : i.wellFormed = true := by
  obtain ⟨b, -, rfl⟩ := ofNarrow_eq_ok h
  exact hmake b

theorem wellFormed_of_ofNarrowAll {w : Nat} {ns : List Nat} {make : List (BitVec w) → Instr} {i : Instr}
    (hmake : ∀ bs, (make bs).wellFormed = true) (h : ofNarrowAll w make ns = .ok i) : i.wellFormed = true := by
  obtain ⟨bs, -, rfl⟩ := ofNarrowAll_eq_ok h
  exact hmake bs

/-- The rows of the table of R93 fall into those that read a non-empty sequence, those that narrow a value or a sequence
of values, and those that take their operands as they are. -/
theorem decodeArgs_wellFormed {code : Nat} {args : List Operand} {i : Instr} (h : decodeArgs code args = .ok i) :
    i.wellFormed = true := by
  unfold decodeArgs at h
  split at h
  -- `RX_CHUNK`, `CORRELATE`, `PEAK`, `DECHIRP`
  case h_3 | h_11 | h_12 | h_13 => exact wellFormed_of_ofNonEmpty (fun _ => rfl) h
  -- `CHIRP_OF`, `H74_ENC`, `H74_DEC`
  case h_9 | h_15 | h_16 => exact wellFormed_of_ofNarrow (fun _ => rfl) h
  -- `TX_SUBMIT`, `BUILD_FRAME`, `MSG_OF`, `SYMS_OF`
  case h_5 | h_10 | h_17 | h_18 => exact wellFormed_of_ofNarrowAll (fun _ => rfl) h
  -- operands of the wrong kinds
  case h_19 => cases h
  -- operands taken as they are
  all_goals cases h; rfl

theorem decodeCmd_wellFormed {c : Call} {i : Instr} (h : decodeCmd c = .ok i) : i.wellFormed = true :=
  decodeArgs_wellFormed (decodeCmd_eq_ok h).2

namespace Machine

/-- The step of a call that the decoder reads; the converse of `step_eq_next`, whatever the outcome of the operation. -/
theorem step_of_decodeCmd {s : State} {c : Call} {cs : List Call} {i : Instr} (hc : s.calls = c :: cs)
    (hn : s.result ≠ .notReturned) (hi : decodeCmd c = .ok i) : step s = exec i { s with calls := cs } := by
  simp only [step, nextCall_of_cons hc hn, hi]

/-- Settles O6: the decoder reads well-formed operations only, and the step is the operation it reads. -/
theorem stepRunsDecodedCall : Obligations.StepRunsDecodedCall :=
  fun _ _ _ _ hcalls hreturned hdecode =>
    ⟨decodeCmd_wellFormed hdecode, step_of_decodeCmd hcalls hreturned hdecode⟩

end Machine
end Sys2Proof

/-! ## State: reset has the invariant and every step keeps it (`10_state.md` R35, R36)

A host call is a probe, which changes no unit, or an operation of one unit, which keeps that unit's invariant and leaves the
other unit alone. The steps and symbol classes of the formats ST and SYM are no host calls: run by themselves in another
state of the sequencing register they need not keep the invariant (log entry 15). -/

namespace Sys2Proof.Machine

/-! ### What an operation ensures of its next state -/

/-- Every next state that the outcome can be satisfies `P`. A refusal has none. -/
def Ensures (o : Out) (P : State → Prop) : Prop := ∀ t, o = .next t → P t

section
variable {s t : State} {P : State → Prop}

theorem ensures_next (h : P t) : Ensures (.next t) P := by rintro _ ⟨⟩; exact h

theorem ensures_refused (why : Refusal) : Ensures (.refused why) P := by rintro _ ⟨⟩

theorem ensures_ite {c : Prop} [Decidable c] {o o' : Out} (h : c → Ensures o P) (h' : ¬c → Ensures o' P) :
    Ensures (if c then o else o') P := by
  by_cases hc : c
  · rw [if_pos hc]; exact h hc
  · rw [if_neg hc]; exact h' hc

theorem ensures_withRx {k : Rxu → Out} (h : ∀ r, s.rx = some r → Ensures (k r) P) : Ensures (withRx s k) P := by
  intro t ht
  obtain ⟨r, hr, hk⟩ := withRx_eq_next ht
  exact h r hr t hk

theorem ensures_withTx {k : Txu → Out} (h : ∀ u, s.tx = some u → Ensures (k u) P) : Ensures (withTx s k) P := by
  intro t ht
  obtain ⟨u, hu, hk⟩ := withTx_eq_next ht
  exact h u hu t hk

end

/-! ### Probes change no unit (R90) -/

/-- The two units are the same. -/
def SameUnits (s t : State) : Prop := t.rx = s.rx ∧ t.tx = s.tx

theorem ensures_answer_sameUnits (s : State) (res : Result) : Ensures (answer s res) (SameUnits s) :=
  ensures_next ⟨rfl, rfl⟩

theorem execChirpUp_sameUnits (s : State) : Ensures (execChirpUp s) (SameUnits s) := by
  rw [execChirpUp]
  split
  · exact ensures_answer_sameUnits _ _
  · exact ensures_withRx fun _ _ => ensures_answer_sameUnits _ _

theorem execCorrelate_sameUnits (w : List Sample) (s : State) : Ensures (execCorrelate w s) (SameUnits s) :=
  ensures_withRx fun _ _ => ensures_ite (fun _ => ensures_answer_sameUnits _ _) fun _ => ensures_refused _

theorem execPeak_sameUnits (mag : List XReal) (s : State) : Ensures (execPeak mag s) (SameUnits s) := by
  rw [execPeak]
  split
  · exact ensures_answer_sameUnits _ _
  · exact ensures_refused _

theorem execDechirp_sameUnits (w : List Sample) (s : State) : Ensures (execDechirp w s) (SameUnits s) := by
  refine ensures_withRx fun r _ => ensures_ite (fun _ => ?_) fun _ => ensures_refused _
  split
  · exact ensures_answer_sameUnits _ _
  · exact ensures_refused _

theorem exec_probe_sameUnits {i : Instr} (hi : isProbe i = true) (s : State) : Ensures (exec i s) (SameUnits s) := by
  cases i with
  | chirpUp => exact execChirpUp_sameUnits s
  | correlate w => exact execCorrelate_sameUnits w s
  | peak mag => exact execPeak_sameUnits mag s
  | dechirp w => exact execDechirp_sameUnits w s
  | chirpDown | demap => exact ensures_withRx fun _ _ => ensures_answer_sameUnits _ _
  | chirpOf | buildFrame => exact ensures_withTx fun _ _ => ensures_answer_sameUnits _ _
  | h74Enc | h74Dec | symsOf => exact ensures_answer_sameUnits _ _
  | msgOf => exact ensures_next ⟨rfl, rfl⟩
  | _ => cases hi

/-! ### The invariant of the machine is one of its units -/

section
variable {s t : State}

theorem StateInv.of_sameUnits (h : StateInv s) (hu : SameUnits s t) : StateInv t := by
  obtain ⟨hrx, htx⟩ := hu
  exact ⟨hrx ▸ h.1, htx ▸ h.2⟩

theorem StateInv.of_rx {r : Rxu} (h : StateInv s) (hrx : t.rx = some r) (htx : t.tx = s.tx) (hr : RxInv r) : StateInv t :=
  ⟨fun r' hr' => by rw [hrx] at hr'; cases hr'; exact hr, htx ▸ h.2⟩

theorem StateInv.of_tx {u : Txu} (h : StateInv s) (htx : t.tx = some u) (hrx : t.rx = s.rx) (hu : TxInv u) : StateInv t :=
  ⟨hrx ▸ h.1, fun u' hu' => by rw [htx] at hu'; cases hu'; exact hu⟩

end

/-! ### The steps that a chunk runs keep the receiver's invariant (R36) -/

/-- Whether the step returns or never does, it leaves a unit with the invariant. -/
structure StepEnd.LeavesInv (e : StepEnd) : Prop where
  /-- it returned -/
  returns : ∀ r m d, e = .returns r m d → RxInv r
  /-- it is in a loop without end (R180) -/
  loops : ∀ r, e = .loops r → RxInv r

theorem ensures_finishStep {s : State} {res : Option Message → Result} {e : StepEnd} (h : StateInv s) (he : e.LeavesInv) :
    Ensures (finishStep s res e) StateInv := by
  intro t ht
  rcases finishStep_eq_next ht with ⟨r, m, d, hret, rfl⟩ | ⟨r, hloop, rfl⟩
  · exact h.of_rx rfl rfl (he.returns r m d hret)
  · exact h.of_rx rfl rfl (he.loops r hloop)

section
variable {r r' : Rxu}

/-- In SYNCING the invariant asks only that `sym_buf` be empty (R36 (b)). -/
theorem SameTables.inv_of_syncing (hs : SameTables r r') (h : RxInv r) (h1 : r'.rxState = 1) (hb : r'.symBuf = []) :
    RxInv r' :=
  hs.inv h (by simp [h1]) (by simp [h1, listening]) (fun _ => hb) (by simp [h1, demoding]) (by simp [hb]) (by simp [hb])

/-- In DEMODING it asks for a full match counter and symbols that are not reserved (R36 (c), (d)). -/
theorem SameTables.inv_of_demoding (hs : SameTables r r') (h : RxInv r) (h2 : r'.rxState = 2) (hm : r'.matchCnt = 3)
    (hterm : Config.symTerm ∉ r'.symBuf) (habort : Config.symAbort ∉ r'.symBuf) : RxInv r' :=
  hs.inv h (by simp [h2]) (by simp [h2, listening]) (by simp [h2, syncing]) (fun _ => hm) hterm habort

variable (d : Nat) (c : List Sample)

theorem listenStep_leavesInv (h : RxInv r) (h0 : r.rxState = 0) : (listenStep d r c).LeavesInv where
  returns r' m d' hret := by
    obtain ⟨-, -, rfl | rfl⟩ := listenStep_returns hret
    · exact h
    · exact SameTables.inv_of_syncing (r := r) ⟨rfl, rfl, rfl, rfl, rfl, rfl⟩ h rfl (h.of_listening h0).2.1
  loops r' hloop := absurd hloop listenStep_not_loops

theorem syncStep_leavesInv (h : RxInv r) (h1 : r.rxState = 1) : (syncStep d r c).LeavesInv where
  returns r' m d' hret := by
    obtain ⟨-, -, htables, hbuf, ⟨hstate, -⟩ | ⟨hstate, hmatch, -⟩⟩ := syncStep_returns hret
    all_goals rw [h.of_syncing h1] at hbuf
    · exact htables.inv_of_syncing h (hstate.trans h1) hbuf
    · exact htables.inv_of_demoding h hstate hmatch (by simp [hbuf]) (by simp [hbuf])
  loops r' hloop := by
    obtain ⟨htables, hbuf, hstate⟩ := syncStep_loops hloop
    exact htables.inv_of_syncing h (hstate.trans h1) (hbuf.trans (h.of_syncing h1))

theorem demodStep_leavesInv (h : RxInv r) (h2 : r.rxState = 2) : (demodStep d r c).LeavesInv where
  returns r' m d' hret := by
    obtain ⟨htables, ⟨hstate, hmatch, -, -, -, hsyms⟩ | ⟨rfl, -⟩ | ⟨rfl, -⟩⟩ := demodStep_returns hret
    · refine htables.inv_of_demoding h (hstate.trans h2) (hmatch.trans (h.of_demoding h2)) (fun hmem => ?_) fun hmem => ?_
      · exact (hsyms _ hmem).elim h.no_term fun hne => hne.1 rfl
      · exact (hsyms _ hmem).elim h.no_abort fun hne => hne.2 rfl
    all_goals exact cleared_inv h
  loops r' hloop := absurd hloop demodStep_not_loops

end

/-! ### The operations of the two units keep the invariant -/

section
variable {s : State} (h : StateInv s)
include h

theorem execRxChunk_keeps_inv (c : List Sample) : Ensures (execRxChunk c s) StateInv := by
  intro t ht
  obtain ⟨r, hr, -, ⟨h0, hstep⟩ | ⟨h1, hstep⟩ | ⟨h2, hstep⟩⟩ := execRxChunk_eq_next ht
  · exact ensures_finishStep h (listenStep_leavesInv _ _ (h.1 r hr) h0) t hstep
  · exact ensures_finishStep h (syncStep_leavesInv _ _ (h.1 r hr) h1) t hstep
  · exact ensures_finishStep h (demodStep_leavesInv _ _ (h.1 r hr) h2) t hstep

theorem exec_rxCall_keeps_inv {i : Instr} (hi : isRxCall i = true) : Ensures (exec i s) StateInv := by
  cases i with
  | rxConstruct bw fs hamming thr =>
    exact ensures_ite (fun hv => ensures_next (h.of_rx rfl rfl (constructRxu_inv _ _ hv))) fun _ => ensures_refused _
  | rxReset => exact ensures_withRx fun r hr => ensures_next (h.of_rx rfl rfl (cleared_inv (h.1 r hr)))
  | rxChunk c => exact execRxChunk_keeps_inv h c
  | _ => cases hi

theorem exec_txCall_keeps_inv {i : Instr} (hi : isTxCall i = true) : Ensures (exec i s) StateInv := by
  cases i with
  | txConstruct bw fs hamming =>
    exact ensures_ite (fun hv => ensures_next (h.of_tx rfl rfl (constructTxu_inv _ hv))) fun _ => ensures_refused _
  | txSubmit m =>
    exact ensures_withTx fun u hu => ensures_ite
      (fun _ => ensures_next (h.of_tx rfl rfl ((h.2 u hu).withBuf _)))
      fun _ => ensures_next (h.of_sameUnits ⟨rfl, rfl⟩)
  | txDrain n => exact ensures_withTx fun u hu => ensures_next (h.of_tx rfl rfl ((h.2 u hu).withBuf _))
  | _ => cases hi

theorem exec_hostCall_keeps_inv {i : Instr} (hi : isRxCall i = true ∨ isTxCall i = true ∨ isProbe i = true) :
    Ensures (exec i s) StateInv := by
  rcases hi with hrx | htx | hprobe
  · exact exec_rxCall_keeps_inv h hrx
  · exact exec_txCall_keeps_inv h htx
  · exact fun t ht => h.of_sameUnits (exec_probe_sameUnits hprobe s t ht)

end

/-- Settles O8: a step is nothing or one host call, and every host call keeps the invariant. -/
theorem stepKeepsInvariant : Obligations.StepKeepsInvariant := by
  intro s t hs hstep
  rcases step_eq_next hstep with ⟨-, rfl⟩ | ⟨c, cs, i, -, -, hdecode, hexec⟩
  · exact hs
  · have hload : StateInv { s with calls := cs } := hs.of_sameUnits ⟨rfl, rfl⟩
    exact exec_hostCall_keeps_inv hload (decodeCmd_isCommand hdecode) t hexec

/-! ### The sample buffer after a chunk (R36 (e)) -/

/-- A step of the receiver whose call has returned to the host returned itself. -/
theorem finishStep_returned {s t : State} {res : Option Message → Result} {e : StepEnd} (h : finishStep s res e = .next t)
    (hn : t.result ≠ .notReturned) : ∃ r m d, e = .returns r m d ∧ t.rx = some r := by
  rcases finishStep_eq_next h with ⟨r, m, d, hret, rfl⟩ | ⟨r, -, rfl⟩
  · exact ⟨r, m, d, hret, rfl⟩
  · exact absurd rfl hn

section
variable {r r' : Rxu} {w : List Sample} {m : Option Message} {d d' : Nat}

/-- From LISTENING, where the buffer is empty, a chunk that makes the transition is the whole buffer. -/
theorem listenStep_buffer (hinv : RxInv r) (h0 : r.rxState = 0) (h : listenStep d r w = .returns r' m d')
    (h' : r'.rxState = 1) : r'.sampleBuf = w := by
  obtain ⟨-, -, rfl | rfl⟩ := listenStep_returns h
  · rw [h0] at h'; cases h'
  · simp [(hinv.of_listening h0).1]

/-- SYNCING's loop stops below a window, or with at least a window by the transition to DEMODING. -/
theorem syncStep_buffer (h1 : r.rxState = 1) (h : syncStep d r w = .returns r' m d') :
    (r'.rxState = 1 → r'.sampleBuf.length < r'.num) ∧ (r'.rxState = 2 → r'.num ≤ r'.sampleBuf.length) := by
  obtain ⟨-, -, -, -, ⟨hstate, hlt⟩ | ⟨hstate, -, hle⟩⟩ := syncStep_returns h
  · exact ⟨fun _ => hlt, by simp [hstate, h1]⟩
  · exact ⟨by simp [hstate], fun _ => hle⟩

/-- DEMODING's loop stops below a window, or in LISTENING. -/
theorem demodStep_buffer (hnum : 0 < r.num) (h : demodStep d r w = .returns r' m d') (h' : r'.rxState = 2) :
    r'.sampleBuf.length < r'.num := by
  obtain ⟨-, ⟨-, -, -, -, hlt, -⟩ | ⟨rfl, -⟩ | ⟨rfl, -⟩⟩ := demodStep_returns h
  · exact hlt hnum
  all_goals cases h'

end

/-- Settles O13: each of the four clauses is about the step that the state at entry selects. -/
theorem bufferLengthBetweenCalls : Obligations.BufferLengthBetweenCalls := by
  intro s t w r r' hs hr hexec hr' hn
  have hinv : RxInv r := hs.1 r hr
  obtain ⟨r₀, hr₀, -, hstep⟩ := execRxChunk_eq_next hexec
  cases hr.symm.trans hr₀
  rcases hstep with ⟨h0, hstep⟩ | ⟨h1, hstep⟩ | ⟨h2, hstep⟩
  all_goals
    obtain ⟨r₁, m, d, hret, hr₁⟩ := finishStep_returned hstep hn
    cases hr'.symm.trans hr₁
  · simpa [h0] using listenStep_buffer hinv h0 hret
  · simpa [h1] using syncStep_buffer h1 hret
  · simpa [h2] using demodStep_buffer hinv.num_pos hret

/-! ### Reset is a construction (R35, R250) -/

/-- A unit whose two rates are equal has a window of one sample for each symbol of the alphabet (R7). -/
theorem numOf_self {rate : XReal} (h : 0 < realVal rate) : numOf rate rate = 128 := by
  have hround : IsRound (128 * realVal rate / realVal rate) (128 : Int) := by
    rw [mul_div_cancel_right₀ _ h.ne']; norm_num [IsRound]
  rw [numOf, (numRounded_isRound h h).unique hround]
  rfl

theorem exampleRate_pos : 0 < realVal exampleRate := by rw [exampleRate, realVal_ofRat]; norm_num

theorem exampleRate_num : numOf exampleRate exampleRate = 128 := numOf_self exampleRate_pos

theorem exampleRate_valid : validRates exampleRate exampleRate = true :=
  (validRates_iff _ _).mpr ⟨exampleRate_pos, exampleRate_pos, by rw [exampleRate_num]; norm_num⟩

theorem resetRxu_eq_construct : resetRxu = constructRxu exampleRate exampleRate true (realOfRat 40) := by
  simp only [resetRxu, constructRxu, exampleRate_num]

theorem resetTxu_eq_construct : resetTxu = constructTxu exampleRate exampleRate true := by
  simp only [resetTxu, constructTxu, exampleRate_num]

theorem reset_inv : StateInv State.reset where
  left := by
    rintro _ ⟨⟩
    rw [resetRxu_eq_construct]
    exact constructRxu_inv _ _ exampleRate_valid
  right := by
    rintro _ ⟨⟩
    rw [resetTxu_eq_construct]
    exact constructTxu_inv _ exampleRate_valid

/-- Settles O9: the units of reset are those that construction makes, with the elements of R35. -/
theorem resetSatisfiesInvariant : Obligations.ResetSatisfiesInvariant :=
  ⟨reset_inv, resetRxu, resetTxu, rfl, rfl, rfl, rfl, rfl, rfl, rfl⟩

end Sys2Proof.Machine

/-! ## Memory: what an operation reads and what it writes (`20_memory.md` R59, R61, R64)

Each operation of RXU, each call on TXU and each probe but `MSG_OF` is confined: its outcome is determined by the fields it
reads, and every field it does not write stays. That two calls commute, and that a probe can be made again, follow from
that alone. -/

namespace Sys2Proof.Machine

/-! ### Confined operations -/

/-- The outcome with another next state; a refusal stays. -/
def mapNext (f : State → State) : Out → Out
  | .next t => .next (f t)
  | .fault r => .fault r
  | .refused why => .refused why

/-- The operation depends on what `reads` gives of the state alone: in two states with the same view it has the same outcome,
where `writes s t` is `s` with the fields that the operation writes taken from `t`. -/
def Confined {α : Type} (reads : State → α) (writes : State → State → State) (i : Instr) : Prop :=
  ∀ s s', reads s' = reads s → exec i s' = mapNext (writes s') (exec i s)

section
variable {α β : Type} {reads : State → α} {reads' : State → β} {writes writes' : State → State → State} {i j : Instr}
  {s s' t a b : State}

/-- The same call made in a state with the same view. -/
theorem Confined.exec_eq (h : Confined reads writes i) (hview : reads s' = reads s) (ht : exec i s = .next t) :
    exec i s' = .next (writes s' t) := by
  rw [h s s' hview, ht]; rfl

/-- What the operation does not write stays. -/
theorem Confined.frame (h : Confined reads writes i) (ht : exec i s = .next t) : t = writes s t :=
  Host.Outcome.next.inj (ht.symm.trans (h.exec_eq rfl ht))

/-- Two confined operations that write nothing the other one reads can be made in the other order. -/
theorem Confined.swap (hi : Confined reads writes i) (hj : Confined reads' writes' j)
    (hij : ∀ s t, reads' (writes s t) = reads' s) (hji : ∀ s t, reads (writes' s t) = reads s)
    (ha : exec i s = .next a) (hb : exec j a = .next b) :
    exec j s = .next (writes' s b) ∧ exec i (writes' s b) = .next (writes (writes' s b) a) := by
  have hview : reads' a = reads' s := (congrArg reads' (hi.frame ha)).trans (hij s a)
  exact ⟨hj.exec_eq hview.symm hb, hi.exec_eq (hji s b) ha⟩

end

/-! ### Carrying an outcome over, through each way in which an operation is built -/

section
variable {s s' : State} {f : State → State}

theorem ite_eq_mapNext {c : Prop} [Decidable c] {o₁ o₂ o₁' o₂' : Out} (h₁ : o₁' = mapNext f o₁) (h₂ : o₂' = mapNext f o₂) :
    (if c then o₁' else o₂') = mapNext f (if c then o₁ else o₂) := by
  rw [h₁, h₂, apply_ite (mapNext f)]

theorem withRx_eq_mapNext {k k' : Rxu → Out} (hrx : s'.rx = s.rx) (h : ∀ r, k' r = mapNext f (k r)) :
    withRx s' k' = mapNext f (withRx s k) := by
  cases hr : s.rx with
  | none => rw [withRx_none hr, withRx_none (hrx.trans hr)]; rfl
  | some r => rw [withRx_some hr, withRx_some (hrx.trans hr)]; exact h r

theorem withTx_eq_mapNext {k k' : Txu → Out} (htx : s'.tx = s.tx) (h : ∀ u, k' u = mapNext f (k u)) :
    withTx s' k' = mapNext f (withTx s k) := by
  cases hu : s.tx with
  | none => rw [withTx_none hu, withTx_none (htx.trans hu)]; rfl
  | some u => rw [withTx_some hu, withTx_some (htx.trans hu)]; exact h u

end

/-! ### The operations of RXU read and write RXU, and number the messages formed -/

/-- The operations of RXU: its host calls, and the steps and symbol classes that run inside `RX_CHUNK` (R93). -/
def isRxOp : Instr → Bool
  | .rxConstruct _ _ _ _ | .rxReset | .rxChunk _ | .listenStep _ | .syncStep _ | .demodStep _ | .symTerm | .symAbort
  | .symData _ => true
  | _ => false

theorem isRxOp_of_isRxCall {i : Instr} (h : isRxCall i = true) : isRxOp i = true := by
  cases i with
  | rxConstruct | rxReset | rxChunk => rfl
  | _ => cases h

/-- Every operation is one of RXU, a call on TXU or a probe. -/
theorem rxOp_or_txCall_or_probe (i : Instr) : isRxOp i = true ∨ isTxCall i = true ∨ isProbe i = true := by
  cases i with
  | txConstruct | txSubmit | txDrain => exact Or.inr (Or.inl rfl)
  | rxConstruct | rxReset | rxChunk | listenStep | syncStep | demodStep | symTerm | symAbort | symData => exact Or.inl rfl
  | _ => exact Or.inr (Or.inr rfl)

/-- What the operations of RXU read: the unit, and the number of the message to be formed (log entry 3). -/
def rxView (s : State) : Option Rxu × Nat := (s.rx, s.draws)

/-- `s` with what the operations of RXU write taken from `t`. -/
def writeRx (s t : State) : State := { s with rx := t.rx, result := t.result, draws := t.draws }

section
variable {s s' : State}

theorem answerRx_eq_mapNext (hd : s'.draws = s.draws) (r : Rxu) (res : Result) :
    answerRx s' r res = mapNext (writeRx s') (answerRx s r res) := by
  simp only [answerRx, mapNext, writeRx, ← hd]

theorem finishStep_eq_mapNext (hd : s'.draws = s.draws) {res : Option Message → Result} {e e' : StepEnd} (he : e' = e) :
    finishStep s' res e' = mapNext (writeRx s') (finishStep s res e) := by
  subst he
  cases e' with
  | returns r m d => rfl
  | loops r => exact answerRx_eq_mapNext hd r .notReturned
  | noPeak => rfl

theorem execRxChunk_eq_mapNext (hrx : s'.rx = s.rx) (hd : s'.draws = s.draws) (c : List Sample) :
    execRxChunk c s' = mapNext (writeRx s') (execRxChunk c s) :=
  withRx_eq_mapNext hrx fun r => ite_eq_mapNext
    (ite_eq_mapNext (finishStep_eq_mapNext hd (congrArg (listenStep · r c) hd))
      (ite_eq_mapNext (finishStep_eq_mapNext hd (congrArg (syncStep · r c) hd))
        (ite_eq_mapNext (finishStep_eq_mapNext hd (congrArg (demodStep · r c) hd)) rfl)))
    rfl

end

theorem rxOp_confined {i : Instr} (hi : isRxOp i = true) : Confined rxView writeRx i := by
  intro s s' hview
  obtain ⟨hrx, hd⟩ : s'.rx = s.rx ∧ s'.draws = s.draws := Prod.mk.inj hview
  cases i with
  | rxConstruct bw fs hamming thr => exact ite_eq_mapNext (answerRx_eq_mapNext hd _ _) rfl
  | rxReset | symAbort => exact withRx_eq_mapNext hrx fun r => answerRx_eq_mapNext hd _ _
  | rxChunk c => exact execRxChunk_eq_mapNext hrx hd c
  | listenStep c =>
    exact withRx_eq_mapNext hrx fun r => ite_eq_mapNext (finishStep_eq_mapNext hd (congrArg (listenStep · r c) hd)) rfl
  | syncStep c =>
    exact withRx_eq_mapNext hrx fun r => ite_eq_mapNext (finishStep_eq_mapNext hd (congrArg (syncStep · r c) hd)) rfl
  | demodStep c =>
    exact withRx_eq_mapNext hrx fun r => ite_eq_mapNext (finishStep_eq_mapNext hd (congrArg (demodStep · r c) hd)) rfl
  | symTerm => exact withRx_eq_mapNext hrx fun r => by rw [hd]; rfl
  | symData y => exact withRx_eq_mapNext hrx fun r => ite_eq_mapNext rfl (answerRx_eq_mapNext hd _ _)
  | _ => cases hi

/-- An operation of RXU leaves TXU and the calls to come. -/
theorem rxOp_frame {i : Instr} (hi : isRxOp i = true) {s t : State} (ht : exec i s = .next t) :
    t.tx = s.tx ∧ t.calls = s.calls := by
  have h : t = writeRx s t := (rxOp_confined hi).frame ht
  exact ⟨(congrArg State.tx h :), (congrArg State.calls h :)⟩

/-! ### The calls on TXU read and write TXU -/

/-- `s` with what the calls on TXU write taken from `t`. -/
def writeTx (s t : State) : State := { s with tx := t.tx, result := t.result }

theorem txCall_confined {j : Instr} (hj : isTxCall j = true) : Confined State.tx writeTx j := by
  intro s s' htx
  cases j with
  | txConstruct bw fs hamming => exact ite_eq_mapNext rfl rfl
  | txSubmit m =>
    refine withTx_eq_mapNext htx fun u => ite_eq_mapNext rfl ?_
    -- a request without the marker leaves TXU as it is in either state
    simp only [answer, mapNext, writeTx, ← htx]
  | txDrain n => exact withTx_eq_mapNext htx fun u => rfl
  | _ => cases hj

/-- A call on TXU leaves RXU, the calls to come and the number of messages formed. -/
theorem txCall_frame {j : Instr} (hj : isTxCall j = true) {s t : State} (ht : exec j s = .next t) :
    t.rx = s.rx ∧ t.calls = s.calls ∧ t.draws = s.draws := by
  have h : t = writeTx s t := (txCall_confined hj).frame ht
  exact ⟨(congrArg State.rx h :), (congrArg State.calls h :), (congrArg State.draws h :)⟩

/-- Settles O15: neither unit's calls write what the other's read, so they can be made in the other order. -/
theorem unitsCommute : Obligations.UnitsCommute := by
  intro i j s a b hi hj
  replace hi : isRxOp i = true := isRxOp_of_isRxCall hi
  constructor
  · intro ha hb
    obtain ⟨hc, hd⟩ := (rxOp_confined hi).swap (txCall_confined hj) (fun _ _ => rfl) (fun _ _ => rfl) ha hb
    obtain ⟨hatx, hacalls⟩ := rxOp_frame hi ha
    obtain ⟨hbrx, hbcalls, hbdraws⟩ := txCall_frame hj hb
    exact ⟨_, _, hc, hd, rfl, rfl, rfl, hatx, hbrx.symm, rfl, hbdraws.symm, (hbcalls.trans hacalls).symm⟩
  · intro ha hb
    obtain ⟨hc, hd⟩ := (txCall_confined hj).swap (rxOp_confined hi) (fun _ _ => rfl) (fun _ _ => rfl) ha hb
    obtain ⟨harx, hacalls, -⟩ := txCall_frame hj ha
    obtain ⟨hbtx, hbcalls⟩ := rxOp_frame hi hb
    exact ⟨_, _, hc, hd, rfl, rfl, rfl, harx, rfl, hbtx.symm, rfl, (hbcalls.trans hacalls).symm⟩

/-! ### The probes read the units and write nothing but their result -/

/-- What the probes read. -/
def unitsView (s : State) : Option Rxu × Option Txu := (s.rx, s.tx)

/-- `s` with the result taken from `t`. -/
def writeResult (s t : State) : State := { s with result := t.result }

section
variable {s s' : State}

theorem execChirpUp_eq_mapNext (hrx : s'.rx = s.rx) (htx : s'.tx = s.tx) :
    execChirpUp s' = mapNext (writeResult s') (execChirpUp s) := by
  rw [execChirpUp, execChirpUp, htx]
  cases s.tx with
  | some u => rfl
  | none => exact withRx_eq_mapNext hrx fun r => rfl

theorem execPeak_eq_mapNext (mag : List XReal) : execPeak mag s' = mapNext (writeResult s') (execPeak mag s) := by
  rw [execPeak, execPeak]
  cases peakOf mag <;> rfl

theorem execDechirp_eq_mapNext (hrx : s'.rx = s.rx) (w : List Sample) :
    execDechirp w s' = mapNext (writeResult s') (execDechirp w s) :=
  withRx_eq_mapNext hrx fun r => ite_eq_mapNext (by cases dechirp r w <;> rfl) rfl

end

/-- `MSG_OF` is excepted: it draws the unspecified bytes of its message (U4). -/
theorem probe_confined {i : Instr} (hi : isProbe i = true) (hmsg : ∀ y h, i ≠ .msgOf y h) :
    Confined unitsView writeResult i := by
  intro s s' hview
  obtain ⟨hrx, htx⟩ : s'.rx = s.rx ∧ s'.tx = s.tx := Prod.mk.inj hview
  cases i with
  | chirpUp => exact execChirpUp_eq_mapNext hrx htx
  | correlate w => exact withRx_eq_mapNext hrx fun r => ite_eq_mapNext rfl rfl
  | peak mag => exact execPeak_eq_mapNext mag
  | dechirp w => exact execDechirp_eq_mapNext hrx w
  | chirpDown | demap => exact withRx_eq_mapNext hrx fun r => rfl
  | chirpOf | buildFrame => exact withTx_eq_mapNext htx fun u => rfl
  | h74Enc | h74Dec | symsOf => rfl
  | msgOf y h => exact absurd rfl (hmsg y h)
  | _ => cases hi

/-! ### A message without unspecified bytes does not depend on the draw (R196, U4) -/

theorem pairRaw_draw {first second : Symbol} (h₁ : first.toNat ≤ 15) (h₂ : second.toNat ≤ 15) (draw draw' : Byte) :
    pairRaw draw first second = pairRaw draw' first second :=
  BitVec.eq_of_toNat_eq ((pairRaw_toNat _ _ _ h₁ h₂).trans (pairRaw_toNat _ _ _ h₁ h₂).symm)

/-- Each pair is decoded with FEC on, and is a pair of nibbles with FEC off. -/
theorem pairBytes_draw {h : Bool} (d d' k : Nat) : ∀ syms : List Symbol, (h = true ∨ ∀ x ∈ syms, x.toNat ≤ 15) →
    pairBytes h d k syms = pairBytes h d' k syms
  | [], _ => rfl
  | [_], _ => rfl
  | first :: second :: rest, hs => by
    have hrest := pairBytes_draw d d' (k + 1) rest (hs.imp_right fun hall x hx => hall x (by simp [hx]))
    rw [pairBytes, pairBytes, hrest]
    rcases hs with rfl | hall
    · rfl
    · rw [pairRaw_draw (hall first (by simp)) (hall second (by simp))]

theorem messageBytes_draw {h : Bool} {syms : List Symbol} (hs : h = true ∨ ∀ x ∈ syms, x.toNat ≤ 15) (d d' : Nat) :
    messageBytes d h syms = messageBytes d' h syms := by
  rw [messageBytes, messageBytes, pairBytes_draw d d' 0 syms hs]

theorem exec_probe_calls {i : Instr} (hi : isProbe i = true) {s t : State} (ht : exec i s = .next t) :
    t.calls = s.calls := by
  by_cases hmsg : ∀ y h, i ≠ .msgOf y h
  · exact (congrArg State.calls ((probe_confined hi hmsg).frame ht) :)
  · push Not at hmsg
    obtain ⟨y, h, rfl⟩ := hmsg
    cases ht; rfl

/-- Settles O16: a probe has written none of what it reads, and the bytes of the second `MSG_OF` are those of the first,
whose draw they do not depend on. -/
theorem probesChangeNoState : Obligations.ProbesChangeNoState := by
  intro i s t hi ht
  obtain ⟨hrx, htx⟩ : SameUnits s t := exec_probe_sameUnits hi s t ht
  refine ⟨hrx, htx, exec_probe_calls hi ht, fun hmsg => ?_, ?_⟩
  · have hconf : Confined unitsView writeResult i := probe_confined hi hmsg
    exact ⟨hconf.frame ht, hconf.exec_eq (Prod.ext hrx htx) ht⟩
  · rintro y h rfl hs
    cases ht
    exact ⟨_, rfl, congrArg Result.bytes (messageBytes_draw hs _ _)⟩

/-! ### Tables are written by construction only (R21, R64) -/

/-- RXU, if there was one, has its configuration, derived constants and tables. -/
def KeepsRxTables (s t : State) : Prop := ∀ r, s.rx = some r → ∃ r', t.rx = some r' ∧ SameTables r r'

/-- The same of TXU. -/
def KeepsTxTables (s t : State) : Prop :=
  ∀ u, s.tx = some u → ∃ u', t.tx = some u' ∧ u'.cfg = u.cfg ∧ u'.num = u.num ∧ u'.up = u.up

/-- Whether the step of `r` returns or never does, it leaves a unit with the tables of `r`. -/
structure StepEnd.KeepsTables (r : Rxu) (e : StepEnd) : Prop where
  /-- it returned -/
  returns : ∀ r' m d, e = .returns r' m d → SameTables r r'
  /-- it is in a loop without end (R180) -/
  loops : ∀ r', e = .loops r' → SameTables r r'

theorem cleared_sameTables (r : Rxu) : SameTables r (cleared r) := ⟨rfl, rfl, rfl, rfl, rfl, rfl⟩

section
variable (d : Nat) (r : Rxu) (c : List Sample)

theorem listenStep_keepsTables : (listenStep d r c).KeepsTables r where
  returns _ _ _ hret := by
    obtain ⟨-, -, rfl | rfl⟩ := listenStep_returns hret
    · exact .refl _
    · exact ⟨rfl, rfl, rfl, rfl, rfl, rfl⟩
  loops _ hloop := absurd hloop listenStep_not_loops

theorem syncStep_keepsTables : (syncStep d r c).KeepsTables r where
  returns _ _ _ hret := by
    obtain ⟨-, -, htables, -⟩ := syncStep_returns hret
    exact htables
  loops _ hloop := (syncStep_loops hloop).1

theorem demodStep_keepsTables : (demodStep d r c).KeepsTables r where
  returns _ _ _ hret := (demodStep_returns hret).1
  loops _ hloop := absurd hloop demodStep_not_loops

end

section
variable {s t : State}

theorem keepsRxTables_of_some {r r' : Rxu} (hr : s.rx = some r) (hr' : t.rx = some r') (h : SameTables r r') :
    KeepsRxTables s t := by
  intro r₀ hr₀
  cases hr.symm.trans hr₀
  exact ⟨r', hr', h⟩

theorem keepsRxTables_of_eq (h : t.rx = s.rx) : KeepsRxTables s t := fun r hr => ⟨r, h.trans hr, .refl r⟩

theorem keepsTxTables_of_txBuf {u : Txu} {b : List Sample} (hu : s.tx = some u) (ht : t.tx = some { u with txBuf := b }) :
    KeepsTxTables s t := by
  intro u₀ hu₀
  cases hu.symm.trans hu₀
  exact ⟨_, ht, rfl, rfl, rfl⟩

theorem keepsTxTables_of_eq (h : t.tx = s.tx) : KeepsTxTables s t := fun u hu => ⟨u, h.trans hu, rfl, rfl, rfl⟩

theorem ensures_finishStep_keepsRxTables {r : Rxu} {res : Option Message → Result} {e : StepEnd} (hr : s.rx = some r)
    (he : e.KeepsTables r) : Ensures (finishStep s res e) (KeepsRxTables s) := by
  intro t ht
  rcases finishStep_eq_next ht with ⟨r', m, d, hret, rfl⟩ | ⟨r', hloop, rfl⟩
  · exact keepsRxTables_of_some hr rfl (he.returns r' m d hret)
  · exact keepsRxTables_of_some hr rfl (he.loops r' hloop)

/-- The chunk steps outside `RX_CHUNK`: `withRx`, the test of the chunk, and the step. -/
theorem ensures_chunkStep_keepsRxTables {c : List Sample} {res : Option Message → Result} {e : Rxu → StepEnd}
    (he : ∀ r, (e r).KeepsTables r) :
    Ensures (withRx s fun r => if nonEmpty c then finishStep s res (e r) else .refused .emptySequence) (KeepsRxTables s) :=
  ensures_withRx fun r hr => ensures_ite (fun _ => ensures_finishStep_keepsRxTables hr (he r)) fun _ => ensures_refused _

theorem execRxChunk_keepsRxTables (c : List Sample) : Ensures (execRxChunk c s) (KeepsRxTables s) := by
  intro t ht
  obtain ⟨r, hr, -, ⟨-, hstep⟩ | ⟨-, hstep⟩ | ⟨-, hstep⟩⟩ := execRxChunk_eq_next ht
  · exact ensures_finishStep_keepsRxTables hr (listenStep_keepsTables _ _ _) t hstep
  · exact ensures_finishStep_keepsRxTables hr (syncStep_keepsTables _ _ _) t hstep
  · exact ensures_finishStep_keepsRxTables hr (demodStep_keepsTables _ _ _) t hstep

theorem exec_rxOp_keepsRxTables {i : Instr} (hi : isRxOp i = true) (hcon : ∀ bw fs h thr, i ≠ .rxConstruct bw fs h thr) :
    Ensures (exec i s) (KeepsRxTables s) := by
  cases i with
  | rxConstruct bw fs h thr => exact absurd rfl (hcon bw fs h thr)
  | rxReset | symTerm | symAbort =>
    exact ensures_withRx fun r hr => ensures_next (keepsRxTables_of_some hr rfl (cleared_sameTables r))
  | symData y =>
    exact ensures_withRx fun r hr => ensures_ite (fun _ => ensures_refused _)
      fun _ => ensures_next (keepsRxTables_of_some hr rfl ⟨rfl, rfl, rfl, rfl, rfl, rfl⟩)
  | rxChunk c => exact execRxChunk_keepsRxTables c
  | listenStep c => exact ensures_chunkStep_keepsRxTables fun r => listenStep_keepsTables _ r c
  | syncStep c => exact ensures_chunkStep_keepsRxTables fun r => syncStep_keepsTables _ r c
  | demodStep c => exact ensures_chunkStep_keepsRxTables fun r => demodStep_keepsTables _ r c
  | _ => cases hi

theorem exec_txCall_keepsTxTables {j : Instr} (hj : isTxCall j = true) (hcon : ∀ bw fs h, j ≠ .txConstruct bw fs h) :
    Ensures (exec j s) (KeepsTxTables s) := by
  cases j with
  | txConstruct bw fs h => exact absurd rfl (hcon bw fs h)
  | txSubmit m =>
    exact ensures_withTx fun u hu => ensures_ite (fun _ => ensures_next (keepsTxTables_of_txBuf hu rfl))
      fun _ => ensures_next (keepsTxTables_of_eq rfl)
  | txDrain n => exact ensures_withTx fun u hu => ensures_next (keepsTxTables_of_txBuf hu rfl)
  | _ => cases hj

end

/-- Settles O14: an operation of one unit keeps that unit's tables unless it is its constructor, and is confined to that
unit; a probe changes neither. -/
theorem tablesWrittenOnlyByConstruction : Obligations.TablesWrittenOnlyByConstruction := by
  intro i s t ht
  suffices hkeeps : ((∀ bw fs h thr, i ≠ .rxConstruct bw fs h thr) → KeepsRxTables s t) ∧
      ((∀ bw fs h, i ≠ .txConstruct bw fs h) → KeepsTxTables s t) by
    refine ⟨fun r hr hcon => ?_, fun u hu hcon => hkeeps.2 hcon u hu⟩
    obtain ⟨r', hr', hcfg, hnum, hbias, hup, hdown, hdemap⟩ := hkeeps.1 hcon r hr
    exact ⟨r', hr', hcfg, hnum, hbias, hup, hdown, hdemap⟩
  rcases rxOp_or_txCall_or_probe i with hi | hi | hi
  · exact ⟨fun hcon => exec_rxOp_keepsRxTables hi hcon t ht,
      fun _ => keepsTxTables_of_eq (rxOp_frame hi ht).1⟩
  · exact ⟨fun _ => keepsRxTables_of_eq (txCall_frame hi ht).1,
      fun hcon => exec_txCall_keepsTxTables hi hcon t ht⟩
  · obtain ⟨hrx, htx⟩ : SameUnits s t := exec_probe_sameUnits hi s t ht
    exact ⟨fun _ => keepsRxTables_of_eq hrx, fun _ => keepsTxTables_of_eq htx⟩

end Sys2Proof.Machine

/-! ## Encoding: the table of operations is closed (`30_encoding.md` R93, R94, R95)

The decoder and the encoder are inverse to each other on the well-formed operations, so the table of R93 has no second
encoding of an operation and no other operation. What lies outside it is refused; some of what lies inside does nothing
(R95), and no encoding makes a message with a zero byte (R98). -/

namespace Sys2Proof

/-! ### The operand readers on what the encoder writes, and on what is out of range -/

theorem ofNonEmpty_of_nonEmpty {α : Type} {make : List α → Instr} {l : List α} (h : nonEmpty l = true) :
    ofNonEmpty make l = .ok (make l) := if_pos h

@[simp] theorem ofNarrow_toNat {w : Nat} (make : BitVec w → Instr) (b : BitVec w) :
    ofNarrow w make b.toNat = .ok (make b) := by rw [ofNarrow, narrow_toNat]

@[simp] theorem ofNarrowAll_widenAll {w : Nat} (make : List (BitVec w) → Instr) (bs : List (BitVec w)) :
    ofNarrowAll w make (widenAll bs) = .ok (make bs) := by rw [ofNarrowAll, narrowAll_widenAll]

theorem ofNarrow_of_le {w n : Nat} {make : BitVec w → Instr} (h : 2 ^ w ≤ n) :
    ofNarrow w make n = .error .operandRange := by rw [ofNarrow, narrow_of_le h]

theorem ofNarrowAll_of_le {w n : Nat} {ns : List Nat} {make : List (BitVec w) → Instr} (hm : n ∈ ns) (h : 2 ^ w ≤ n) :
    ofNarrowAll w make ns = .error .operandRange := by rw [ofNarrowAll, narrowAll_of_le hm h]

/-! ### Command words of the table, and others (R93) -/

theorem assigned_iff (code : Nat) :
    assigned code = true ↔ (0x01 ≤ code ∧ code ≤ 0x06) ∨ (0x40 ≤ code ∧ code ≤ 0x4B) := by simp [assigned]

/-- Every command word of the table is in one of the two classes that are not reserved (R90). -/
theorem decodeCmd_of_assigned {w : BitVec 8} {args : List Operand} (h : assigned w.toNat = true) :
    decodeCmd { cmd := w, args := args } = decodeArgs w.toNat args := by
  have hcode := (assigned_iff _).mp h
  rw [decodeCmd, if_neg (show ¬w.toNat / 64 ≥ 2 by omega), if_pos h]

theorem decodeCmd_of_not_assigned {c : Call} (h : ¬assigned c.cmd.toNat = true) : ∃ why, decodeCmd c = .error why := by
  rw [decodeCmd, if_neg h]
  split
  · exact ⟨_, rfl⟩
  · exact ⟨_, rfl⟩

/-! ### Decoding the encoding -/

theorem wellFormed_symData_iff {y : Symbol} :
    (Instr.symData y).wellFormed = true ↔ y ≠ Config.symTerm ∧ y ≠ Config.symAbort := by simp [Instr.wellFormed]

theorem decodeSym_of_data {y : Symbol} (hterm : y ≠ Config.symTerm) (habort : y ≠ Config.symAbort) :
    decodeSym y = .symData y := by rw [decodeSym, if_neg habort, if_neg hterm]

/-- Each row of R93 is read by the reader of its operands, which gives back what the encoder wrote. -/
theorem decode_encode {i : Instr} (h : i.wellFormed = true) : decode (encode i) = .ok i := by
  cases i with
  | rxConstruct | rxReset | txConstruct | txDrain | chirpUp | chirpDown | demap => exact decodeCmd_of_assigned rfl
  | rxChunk | correlate | peak | dechirp => exact (decodeCmd_of_assigned rfl).trans (ofNonEmpty_of_nonEmpty h)
  | chirpOf | h74Enc | h74Dec => exact (decodeCmd_of_assigned rfl).trans (ofNarrow_toNat _ _)
  | txSubmit | buildFrame | msgOf | symsOf => exact (decodeCmd_of_assigned rfl).trans (ofNarrowAll_widenAll _ _)
  | listenStep | syncStep | demodStep => exact ofNonEmpty_of_nonEmpty h
  | symTerm | symAbort => rfl
  | symData y =>
    obtain ⟨hterm, habort⟩ := wellFormed_symData_iff.mp h
    exact congrArg Except.ok (decodeSym_of_data hterm habort)

/-- Settles O1: by the row of R93 that the operation is in. -/
theorem decodeEncode : Obligations.DecodeEncode := fun _ => decode_encode

/-! ### Encoding what was decoded -/

/-- A command whose operands are read is the row of R93 with that code. -/
theorem encode_of_decodeArgs {code : Nat} {args : List Operand} {i : Instr} (h : decodeArgs code args = .ok i) :
    encode i = .cmd { cmd := BitVec.ofNat 8 code, args := args } := by
  unfold decodeArgs at h
  split at h
  -- `RX_CHUNK`, `CORRELATE`, `PEAK`, `DECHIRP`
  case h_3 | h_11 | h_12 | h_13 => obtain ⟨-, rfl⟩ := ofNonEmpty_eq_ok h; rfl
  -- `CHIRP_OF`, `H74_ENC`, `H74_DEC`
  case h_9 | h_15 | h_16 => obtain ⟨b, rfl, rfl⟩ := ofNarrow_eq_ok h; rfl
  -- `TX_SUBMIT`, `BUILD_FRAME`, `MSG_OF`, `SYMS_OF`
  case h_5 | h_10 | h_17 | h_18 => obtain ⟨bs, rfl, rfl⟩ := ofNarrowAll_eq_ok h; rfl
  -- operands of the wrong kinds
  case h_19 => cases h
  -- operands taken as they are
  all_goals cases h; rfl

theorem encode_of_decodeCmd {c : Call} {i : Instr} (h : decodeCmd c = .ok i) : encode i = .cmd c := by
  rw [encode_of_decodeArgs (decodeCmd_eq_ok h).2, BitVec.ofNat_toNat, BitVec.setWidth_eq]

/-- A state selection that is read has a chunk and selects the step that it was read as (R89). -/
theorem decodeSt_encodes {code : BitVec 2} {chunk : List Sample} {i : Instr} (h : decodeSt code chunk = .ok i) :
    i.wellFormed = true ∧ encode i = .st code chunk := by
  rw [decodeSt] at h
  split at h
  case h_4 => cases h
  all_goals
    next hcode =>
      obtain ⟨hchunk, rfl⟩ := ofNonEmpty_eq_ok h
      exact ⟨hchunk, congrArg (Encoded.st · chunk) (BitVec.eq_of_toNat_eq hcode.symm)⟩

/-- Every symbol is in its class, and the encoding of its class (R81). -/
theorem decodeSym_encodes (y : Symbol) : (decodeSym y).wellFormed = true ∧ encode (decodeSym y) = .sym y := by
  by_cases habort : y = Config.symAbort
  · subst habort; exact ⟨rfl, rfl⟩
  · by_cases hterm : y = Config.symTerm
    · subst hterm; exact ⟨rfl, rfl⟩
    · rw [decodeSym_of_data hterm habort]
      exact ⟨wellFormed_symData_iff.mpr ⟨hterm, habort⟩, rfl⟩

/-- Settles O2: what each of the three formats reads is the row that it was read from. -/
theorem encodeDecode : Obligations.EncodeDecode := by
  intro e i h
  cases e with
  | cmd c => exact ⟨decodeCmd_wellFormed h, encode_of_decodeCmd h⟩
  | st code chunk => exact decodeSt_encodes h
  | sym y => cases h; exact decodeSym_encodes y

/-! ### What is outside the table is refused (R94) -/

/-- The step of a call that the decoder refuses. -/
theorem Machine.step_of_decodeCmd_error {s : Machine.State} {c : Call} {cs : List Call} {why : DecodeError}
    (hc : s.calls = c :: cs) (hn : s.result ≠ .notReturned) (hwhy : decodeCmd c = .error why) :
    Machine.step s = .refused (.undecodable why) := by
  simp only [Machine.step, Machine.nextCall_of_cons hc hn, hwhy]

/-- Settles O3: the decoder has no row for the word, and the step is its refusal. -/
theorem unassignedCommandRefused : Obligations.UnassignedCommandRefused := by
  intro s c cs hcalls hreturned hcode
  obtain ⟨why, hwhy⟩ := decodeCmd_of_not_assigned (mt (assigned_iff _).mp hcode)
  exact ⟨why, Machine.step_of_decodeCmd_error hcalls hreturned hwhy⟩

/-- Settles O4: each command hands its operand to the reader of its type, which refuses it. -/
theorem outOfRangeOperandRefused : Obligations.OutOfRangeOperandRefused :=
  ⟨fun _ h => (decodeCmd_of_assigned rfl).trans (ofNarrow_of_le (w := 7) h),
   fun _ h => (decodeCmd_of_assigned rfl).trans (ofNarrow_of_le (w := 4) h),
   fun _ h => (decodeCmd_of_assigned rfl).trans (ofNarrow_of_le (w := 7) h),
   fun _ _ hm h => (decodeCmd_of_assigned rfl).trans (ofNarrowAll_of_le (w := 8) hm h),
   fun _ _ _ hm h => (decodeCmd_of_assigned rfl).trans (ofNarrowAll_of_le (w := 8) hm h),
   fun _ _ _ hm h => (decodeCmd_of_assigned rfl).trans (ofNarrowAll_of_le (w := 7) hm h),
   fun _ _ _ hm h => (decodeCmd_of_assigned rfl).trans (ofNarrowAll_of_le (w := 8) hm h),
   rfl, rfl, rfl⟩

/-- Settles O5: the nine words are fixed, and the decoder is run on each. -/
theorem sampleWordsDecode : Obligations.SampleWordsDecode := ⟨rfl, rfl, rfl, rfl, rfl, rfl, rfl, rfl, rfl⟩

namespace Machine

/-! ### The encodings that do nothing (R95) -/

theorem hasMarker_iff (m : List Byte) : hasMarker m = true ↔ m.getLast? = some 0x0A := beq_iff_eq

/-- Draining nothing: the request is for no samples, or none are pending. -/
theorem min_length_eq_zero {α : Type} {n : Nat} {b : List α} (h : n = 0 ∨ b = []) : min n b.length = 0 := by
  rcases h with rfl | rfl <;> simp

section
variable {s : State} {res : Result}

theorem answerRx_self {r : Rxu} (hr : s.rx = some r) : answerRx s r res = .next { s with result := res } := by
  rw [answerRx, ← hr]

theorem answerTx_self {u : Txu} (hu : s.tx = some u) : answerTx s u res = .next { s with result := res } := by
  rw [answerTx, ← hu]

theorem execTxSubmit_of_no_marker {u : Txu} {m : List Byte} (hu : s.tx = some u) (hm : m.getLast? ≠ some 0x0A) :
    execTxSubmit m s = .next { s with result := .done } := by
  rw [execTxSubmit, withTx_some hu, if_neg (mt (hasMarker_iff m).mp hm)]; rfl

theorem execTxDrain_of_nothing {u : Txu} {n : Nat} (hu : s.tx = some u) (h : n = 0 ∨ u.txBuf = []) :
    execTxDrain n s = .next { s with result := .samples [] } := by
  rw [execTxDrain, withTx_some hu, min_length_eq_zero h]
  exact answerTx_self hu

/-- In LISTENING the buffers and the counter are clear already (R36 (a)). -/
theorem RxInv.cleared_of_listening {r : Rxu} (h : RxInv r) (h0 : r.rxState = 0) : cleared r = r := by
  obtain ⟨hsamples, hsyms, hmatch⟩ := h.of_listening h0
  cases r
  simp_all [cleared]

theorem execRxReset_of_listening {r : Rxu} (hr : s.rx = some r) (h : RxInv r) (h0 : r.rxState = 0) :
    execRxReset s = .next { s with result := .done } := by
  rw [execRxReset, withRx_some hr, returnToListening_eq_cleared, h.cleared_of_listening h0, answerRx_self hr]

theorem listenStep_of_neverDetects {r : Rxu} {w : List Sample} (d : Nat) (h : RxInv r) (hw : w ≠ [])
    (hnever : NeverDetects r w) : listenStep d r w = .returns r none d := by
  obtain ⟨v, a, hpeak, ⟨hdetect, -⟩ | ⟨-, hstep⟩⟩ := listenStep_spec d r h.tablesOk w hw
  · exact absurd hdetect (hnever v a hpeak)
  · exact hstep

theorem execRxChunk_of_neverDetects {r : Rxu} {w : List Sample} (hr : s.rx = some r) (h : RxInv r) (h0 : r.rxState = 0)
    (hw : w ≠ []) (hnever : NeverDetects r w) :
    execRxChunk w s = .next { s with result := .chunk w.length none } := by
  rw [execRxChunk_of_listening hr hw h0, listenStep_of_neverDetects _ h hw hnever, finishStep_returns, ← hr]

end

/-- Settles O18: one lemma for each of the four encodings of R95. -/
theorem noEffectCalls : Obligations.NoEffectCalls :=
  ⟨fun _ _ _ => execTxSubmit_of_no_marker,
   fun _ _ _ => execTxDrain_of_nothing,
   fun _ _ => execRxReset_of_listening,
   fun _ _ _ => execRxChunk_of_neverDetects⟩

/-! ### No codeword is a reserved symbol (R94 (d), R133) -/

theorem hammingEncode_ne_reserved (n : Nibble) : hammingEncode n ≠ 0x01 ∧ hammingEncode n ≠ 0x02 := by
  revert n; decide

theorem exists_nibble_of_mem_symsOf {h : Bool} {p : List Byte} {y : Symbol} (hy : y ∈ symsOf h p) :
    ∃ n, y = symbolOfNibble h n := by
  induction p with
  | nil => cases hy
  | cons b p ih =>
    rw [symsOf_cons, List.mem_cons, List.mem_cons] at hy
    rcases hy with rfl | rfl | hy
    · exact ⟨_, rfl⟩
    · exact ⟨_, rfl⟩
    · exact ih hy

/-- With FEC on every symbol of a payload is a codeword. -/
theorem ne_reserved_of_mem_symsOf {p : List Byte} {y : Symbol} (hy : y ∈ symsOf true p) : y ≠ 0x01 ∧ y ≠ 0x02 := by
  obtain ⟨n, rfl⟩ := exists_nibble_of_mem_symsOf hy
  exact hammingEncode_ne_reserved n

/-- Settles O35: every symbol of the payload is a codeword, and no codeword is reserved. -/
theorem fecSymbolsAreNotReserved : Obligations.FecSymbolsAreNotReserved := by
  rintro s _ p y ⟨⟩ ⟨⟩
  exact ⟨fun hmem => (ne_reserved_of_mem_symsOf hmem).1 rfl, fun hmem => (ne_reserved_of_mem_symsOf hmem).2 rfl⟩

/-! ### No message holds a zero byte (R98, R198) -/

theorem messageBytes_no_zero (d : Nat) (h : Bool) (y : List Symbol) : 0 ∉ messageBytes d h y := by
  simp [messageBytes]

/-- A message with which the step returns holds no zero byte. -/
def StepEnd.NoZeroByte (e : StepEnd) : Prop := ∀ r m d, e = .returns r m d → ∀ b ∈ m, 0 ∉ b.bytes

section
variable (d : Nat) (r : Rxu) (c : List Sample)

theorem listenStep_noZeroByte : (listenStep d r c).NoZeroByte := by
  intro r' m d' h b hb
  obtain ⟨rfl, -⟩ := listenStep_returns h
  cases hb

theorem syncStep_noZeroByte : (syncStep d r c).NoZeroByte := by
  intro r' m d' h b hb
  obtain ⟨rfl, -⟩ := syncStep_returns h
  cases hb

theorem demodStep_noZeroByte : (demodStep d r c).NoZeroByte := by
  intro r' m d' h b hb
  obtain ⟨-, ⟨-, -, rfl, -⟩ | ⟨-, rfl, -⟩ | ⟨-, b', rfl, -, hzero⟩⟩ := demodStep_returns h
  · cases hb
  · cases hb
  · cases hb; exact hzero

end

section
variable {s t : State} {m : Message}

/-- The host is told nothing, being still inside the call, or is given what the step returned with. -/
theorem finishStep_no_zero {res : Option Message → Result} {e : StepEnd} (he : e.NoZeroByte)
    (h : finishStep s res e = .next t) :
    t.result = .notReturned ∨ ∃ m, t.result = res m ∧ ∀ b ∈ m, 0 ∉ b.bytes := by
  rcases finishStep_eq_next h with ⟨r, m, d, hret, rfl⟩ | ⟨r, -, rfl⟩
  · exact Or.inr ⟨m, rfl, he r m d hret⟩
  · exact Or.inl rfl

theorem execSymTerm_no_zero (h : execSymTerm s = .next t) (ht : t.result = .signalDone m) : 0 ∉ m.bytes := by
  obtain ⟨r, -, hk⟩ := withRx_eq_next h
  cases hk; cases ht
  exact frameFinish_no_zero _ _

theorem execDemodStep_no_zero {w : List Sample} (h : execDemodStep w s = .next t)
    (ht : t.result = .message (some m)) : 0 ∉ m.bytes := by
  obtain ⟨r, -, hk⟩ := withRx_eq_next h
  split at hk
  · rcases finishStep_no_zero (demodStep_noZeroByte _ _ _) hk with hres | ⟨m', hres, hzero⟩
    · cases ht.symm.trans hres
    · cases ht.symm.trans hres; exact hzero m rfl
  · cases hk

theorem execRxChunk_no_zero {w : List Sample} {n : Nat} (h : execRxChunk w s = .next t)
    (ht : t.result = .chunk n (some m)) : 0 ∉ m.bytes := by
  suffices hresult : t.result = .notReturned ∨ ∃ m', t.result = .chunk w.length m' ∧ ∀ b ∈ m', 0 ∉ b.bytes by
    rcases hresult with hres | ⟨m', hres, hzero⟩
    · cases ht.symm.trans hres
    · cases ht.symm.trans hres; exact hzero m rfl
  obtain ⟨r, -, -, ⟨-, hstep⟩ | ⟨-, hstep⟩ | ⟨-, hstep⟩⟩ := execRxChunk_eq_next h
  · exact finishStep_no_zero (listenStep_noZeroByte _ _ _) hstep
  · exact finishStep_no_zero (syncStep_noZeroByte _ _ _) hstep
  · exact finishStep_no_zero (demodStep_noZeroByte _ _ _) hstep

end

/-- Settles O60: one lemma for each operation that emits a message. -/
theorem messagesHaveNoZeroByte : Obligations.MessagesHaveNoZeroByte := by
  intro s t
  refine ⟨?_, fun m => execSymTerm_no_zero, fun w m => execDemodStep_no_zero, fun w n m => execRxChunk_no_zero⟩
  rintro y h b ⟨⟩ ⟨⟩
  exact messageBytes_no_zero _ _ _

end Machine
end Sys2Proof

/-! ## Chirp tables (`40_chirp_table.md`)

The probes read a table that construction made. The table of a unit is that of R120 whatever the rates; where
`128 * fs / BW` is an integer `N`, nothing is rounded, `num` is `N`, and the phase of R120 is `64*i*(i - N) / N^2` turns. The
closed form of R123 (`N = 128*m`) and the symmetry of R124 are read off that one form. -/

namespace Sys2Proof.Machine

/-! ### The table of a unit -/

/-- The down-chirp table of RXU is that of R121. -/
theorem RxInv.isDownTable {r : Rxu} (h : RxInv r) : IsDownTable r.up r.down :=
  ⟨h.down_length.trans h.up_length.symm, fun _ hi => h.down_val (h.up_length ▸ hi)⟩

namespace IsUnitTable

variable {bw fs : XReal} {num : Nat} {up : List Sample} (h : IsUnitTable bw fs num up)
include h

theorem rates_pos : 0 < realVal bw ∧ 0 < realVal fs := by
  obtain ⟨r, hinv, rfl, rfl, -, -⟩ | ⟨t, hinv, rfl, rfl, -, -⟩ := h
  · exact ⟨hinv.bw_pos, hinv.fs_pos⟩
  · exact ⟨hinv.bw_pos, hinv.fs_pos⟩

theorem length : up.length = num := by
  obtain ⟨r, hinv, -, -, rfl, rfl⟩ | ⟨t, hinv, -, -, rfl, rfl⟩ := h
  · exact hinv.up_length
  · exact hinv.up_length

theorem isUpTable : IsUpTable bw fs up := by
  obtain ⟨r, hinv, rfl, rfl, -, rfl⟩ | ⟨t, hinv, rfl, rfl, -, rfl⟩ := h
  · exact hinv.isUpTable
  · exact hinv.isUpTable

theorem norm_up {i : Nat} (hi : i < num) : ‖cplxVal (up.getD i cplxZero)‖ = 1 :=
  (h.isUpTable.2 i (h.length.symm ▸ hi)).1

end IsUnitTable

/-! ### A window length `128 * fs / BW` that is an integer -/

/-- An integer rounds to itself (R11). -/
theorem isRound_intCast (z : Int) : IsRound (z : ℝ) z := by norm_num [IsRound]

section
variable {bw fs : XReal} {num N : Nat} {up : List Sample} (h : IsUnitTable bw fs num up)
  (hN : 128 * realVal fs / realVal bw = N)
include h hN

theorem IsUnitTable.num_eq_of_int : num = N := by
  have hround : IsRound (N : ℝ) (num : Int) := by
    rw [← hN, ← h.length]
    exact h.isUpTable.1
  exact_mod_cast hround.unique (isRound_intCast N)

/-- The entries are those of R120 and not only near them. -/
theorem IsUnitTable.up_val_of_int {i : Nat} (hi : i < num) :
    cplxVal (up.getD i cplxZero) = cisC (phase (realVal bw) (realVal fs) i) :=
  (h.isUpTable.2 i (h.length.symm ▸ hi)).2.2 (exactRates_of_int h.rates_pos.1 hN)

end

/-- The phase of R120 over the window length, `theta(i) = 64*i*(i - N) / N^2` turns: its zeros are the ends of the window,
and it is symmetric about the middle. -/
theorem phase_of_int {b f : ℝ} {N : Nat} (hb : 0 < b) (hf : 0 < f) (hN : 128 * f / b = N) (i : Nat) :
    phase b f i = 64 * (i * (i - N)) / N ^ 2 := by
  rw [phase_eq_ratio hb hf, ← hN]
  field_simp
  ring

/-! ### Powers and periods of `cis` -/

theorem cisC_pow (x : ℝ) (n : Nat) : cisC x ^ n = cisC (n * x) := by
  rw [cisC, cisC, ← Complex.exp_nat_mul]
  congr 1
  push_cast
  ring

theorem cisC_intCast (z : Int) : cisC z = 1 := by simpa using cisC_int 0 z

/-- An angle in `d`-ths of a turn counts modulo `d`: the phase index of R123. -/
theorem cisC_emod_div (a : Int) {d : Int} (hd : d ≠ 0) : cisC ((a % d : Int) / d) = cisC (a / d) := by
  have hsplit : (a : ℝ) / d = (a % d : Int) / d + (a / d : Int) := by
    have hdiv : (a : ℝ) = (a % d : Int) + d * (a / d : Int) := by exact_mod_cast (Int.emod_add_mul_ediv a d).symm
    have hd' : (d : ℝ) ≠ 0 := by exact_mod_cast hd
    rw [hdiv]
    field_simp
  rw [hsplit, cisC_int]

/-- `cis` of a number of `n`-ths of a turn is an `n`-th root of unity. -/
theorem cisC_div_pow (a : Int) {n : Nat} (hn : n ≠ 0) : cisC (a / n) ^ n = 1 := by
  rw [cisC_pow, mul_div_cancel₀ _ (by exact_mod_cast hn), cisC_intCast]

/-! ### The statements -/

/-- Settles O22: the probe reads TXU's table, or RXU's where there is no TXU, and the invariant of each unit says what its
table is. -/
theorem chirpUpReturnsTable : Obligations.ChirpUpReturnsTable := fun _ hinv =>
  ⟨fun u htx => ⟨execChirpUp_of_tx htx, (hinv.2 u htx).up_length, (hinv.2 u htx).isUpTable⟩,
   fun r htx hrx => ⟨execChirpUp_of_rx htx hrx, (hinv.1 r hrx).up_length, (hinv.1 r hrx).isUpTable⟩⟩

/-- Settles O23: the probe reads RXU's table. -/
theorem chirpDownReturnsConjugates : Obligations.ChirpDownReturnsConjugates :=
  fun _ _ hrx hinv => ⟨withRx_some hrx _, hinv.down_length, hinv.isDownTable⟩

/-- Settles O24: the window length is the integer `128*m`, whose phase is an integer number of `256*m^2`-ths of a turn. -/
theorem upTableClosedForm : Obligations.UpTableClosedForm := by
  intro bw fs num up m htable hm hfs
  obtain ⟨hbw, hfs'⟩ := htable.rates_pos
  have hN : 128 * realVal fs / realVal bw = (128 * m : Nat) := by
    rw [hfs]
    push_cast
    field_simp
  refine ⟨htable.num_eq_of_int hN, fun i hi => ?_⟩
  have hphase : phase (realVal bw) (realVal fs) i = i * (i - 128 * m) / (256 * m * m) := by
    rw [phase_of_int hbw hfs' hN]
    push_cast
    field_simp
    ring
  have hval : cplxVal (up.getD i cplxZero) = cisC (((i * (i - 128 * m) : Int) : ℝ) / (256 * m * m : Int)) := by
    rw [htable.up_val_of_int hN hi, hphase]
    push_cast
    rfl
  refine ⟨hphase, ?_, ?_⟩
  · rw [hval, ← cisC_emod_div _ (by positivity)]
    push_cast
    rfl
  · rintro rfl
    rw [hval]
    exact cisC_div_pow _ (n := 256) (by norm_num)

/-- Settles O25: the entry is `cis` of the phase, and `i*(i - N)` stays when `N - i` stands for `i`. -/
theorem upTableSymmetric : Obligations.UpTableSymmetric := by
  intro bw fs num up N htable hN
  obtain ⟨hbw, hfs⟩ := htable.rates_pos
  obtain rfl := htable.num_eq_of_int hN
  refine ⟨rfl, fun i h1 hi => ?_⟩
  have hphase : phase (realVal bw) (realVal fs) (num - i) = phase (realVal bw) (realVal fs) i := by
    rw [phase_of_int hbw hfs hN, phase_of_int hbw hfs hN, Nat.cast_sub hi.le]
    ring
  refine ⟨hphase, ?_⟩
  rw [htable.up_val_of_int hN (by omega), htable.up_val_of_int hN hi, hphase]

/-- Settles O26: an entry is one `cis`, and a conjugate has the same magnitude; so also where the ratio is rounded. -/
theorem tablesHaveUnitMagnitude : Obligations.TablesHaveUnitMagnitude :=
  ⟨fun _ _ _ _ htable => ⟨htable.length, fun _ => htable.norm_up⟩,
   fun _ hinv => ⟨hinv.down_length, fun _ => hinv.norm_down⟩⟩

end Sys2Proof.Machine

/-! ## Hamming(7,4) codec (`41_hamming74.md`)

The codec is linear over XOR: `parity`, hence the encoder and the syndrome, take the XOR of two words to the XOR of their
values. A codeword has syndrome 0, so what the decoder makes of a damaged codeword depends on the flipped bits alone, and
the distance of two codewords is the weight of a third. The statements about errors are read off the error patterns. -/

namespace Sys2Proof.Machine

/-! ### Parity (R11, R130) -/

theorem parity_xor {w : Nat} (a b : BitVec w) : parity (a ^^^ b) = (parity a ^^ parity b) := by
  have hbit (p q : Bool) (i : Nat) :
      ((p ^^ a.getLsbD i) ^^ (q ^^ b.getLsbD i)) = ((p ^^ q) ^^ (a ^^^ b).getLsbD i) := by
    simp only [BitVec.getLsbD_xor, Bool.xor_assoc, Bool.xor_left_comm]
  exact List.foldl_hom₂ _ Bool.xor _ _ _ false false hbit

theorem parity_xor_and {w : Nat} (a b mask : BitVec w) :
    parity ((a ^^^ b) &&& mask) = (parity (a &&& mask) ^^ parity (b &&& mask)) := by
  have hdistrib : (a ^^^ b) &&& mask = (a &&& mask) ^^^ (b &&& mask) := by
    ext i
    simp [Bool.and_xor_distrib_right]
  rw [hdistrib, parity_xor]

theorem parity_nibble (n : Nibble) :
    parity n = (n.getLsbD 3 ^^ (n.getLsbD 2 ^^ (n.getLsbD 1 ^^ n.getLsbD 0))) := by
  simp only [parity, List.range_succ, List.range_zero, List.nil_append, List.cons_append, List.foldl_cons,
    List.foldl_nil, Bool.false_xor, Bool.xor_comm]

theorem parity_codeword (c : Codeword) :
    parity c = (c.getLsbD 6 ^^ (c.getLsbD 5 ^^ (c.getLsbD 4 ^^ (c.getLsbD 3 ^^ (c.getLsbD 2 ^^
      (c.getLsbD 1 ^^ c.getLsbD 0)))))) := by
  simp only [parity, List.range_succ, List.range_zero, List.nil_append, List.cons_append, List.foldl_cons,
    List.foldl_nil, Bool.false_xor, Bool.xor_comm]

/-! ### Words with single bits below them

The shape of a codeword and of a syndrome. -/

theorem getLsbD_append_ofBool_zero {w : Nat} (x : BitVec w) (p : Bool) : (x ++ BitVec.ofBool p).getLsbD 0 = p := by
  rw [BitVec.getLsbD_append, if_pos Nat.one_pos, BitVec.getLsbD_ofBool, decide_eq_true rfl, Bool.true_and]

theorem getLsbD_append_ofBool_succ {w : Nat} (x : BitVec w) (p : Bool) (i : Nat) :
    (x ++ BitVec.ofBool p).getLsbD (i + 1) = x.getLsbD i := by
  simp [BitVec.getLsbD_append]

/-! ### The codeword of a nibble (R83, R131) -/

theorem hammingEncode_xor (m n : Nibble) : hammingEncode (m ^^^ n) = hammingEncode m ^^^ hammingEncode n := by
  simp only [hammingEncode, parity_xor_and, ← BitVec.ofBool_xor_ofBool, ← BitVec.xor_append]

theorem hammingEncode_zero : hammingEncode 0 = 0 := by decide

section
variable (n : Nibble)

/-- The data bits of a codeword stand three places above their places in the nibble. -/
theorem hammingEncode_getLsbD_data (i : Nat) : (hammingEncode n).getLsbD (i + 3) = n.getLsbD i :=
  (getLsbD_append_ofBool_succ _ _ (i + 2)).trans
    ((getLsbD_append_ofBool_succ _ _ (i + 1)).trans (getLsbD_append_ofBool_succ n _ i))

theorem hammingEncode_data : (hammingEncode n).extractLsb' 3 4 = n := by
  apply BitVec.eq_of_getLsbD_eq
  intro i hi
  rw [BitVec.getLsbD_extractLsb', Nat.add_comm 3 i, hammingEncode_getLsbD_data, decide_eq_true hi, Bool.true_and]

theorem hammingEncode_pa : (hammingEncode n).getLsbD 2 = (n.getLsbD 3 ^^ (n.getLsbD 2 ^^ n.getLsbD 1)) := by
  have hpa : (hammingEncode n).getLsbD 2 = parity (n &&& 0b1110) :=
    (getLsbD_append_ofBool_succ _ _ 1).trans
      ((getLsbD_append_ofBool_succ _ _ 0).trans (getLsbD_append_ofBool_zero _ _))
  rw [hpa, parity_nibble]
  simp

theorem hammingEncode_pb : (hammingEncode n).getLsbD 1 = (n.getLsbD 3 ^^ (n.getLsbD 2 ^^ n.getLsbD 0)) := by
  have hpb : (hammingEncode n).getLsbD 1 = parity (n &&& 0b1101) :=
    (getLsbD_append_ofBool_succ _ _ 0).trans (getLsbD_append_ofBool_zero _ _)
  rw [hpb, parity_nibble]
  simp

theorem hammingEncode_pc : (hammingEncode n).getLsbD 0 = (n.getLsbD 3 ^^ (n.getLsbD 1 ^^ n.getLsbD 0)) := by
  have hpc : (hammingEncode n).getLsbD 0 = parity (n &&& 0b1011) := getLsbD_append_ofBool_zero _ _
  rw [hpc, parity_nibble]
  simp

/-- A codeword below 8 has no data bits, so it is the codeword of nibble 0. -/
theorem hammingEncode_eq_zero_of_lt (h : (hammingEncode n).toNat < 8) : hammingEncode n = 0 := by
  have hn : n = 0 := by
    rw [← hammingEncode_data n]
    apply BitVec.eq_of_toNat_eq
    rw [BitVec.extractLsb'_toNat, Nat.shiftRight_eq_div_pow, Nat.div_eq_of_lt h]
    rfl
  rw [hn, hammingEncode_zero]

end

/-- The weight of a codeword: the number of its bits that are 1. -/
def weight (c : Codeword) : Nat := ((List.range 7).filter fun i => c.getLsbD i).length

theorem three_le_weight_hammingEncode {n : Nibble} (hn : n ≠ 0) : 3 ≤ weight (hammingEncode n) := by
  revert n; decide

/-- The distance of two codewords is the weight of the codeword of the nibbles' XOR. -/
theorem three_le_distance {m n : Nibble} (hmn : m ≠ n) : 3 ≤ weight (hammingEncode m ^^^ hammingEncode n) := by
  rw [← hammingEncode_xor]
  exact three_le_weight_hammingEncode (mt BitVec.xor_eq_zero_iff.mp hmn)

/-! ### The syndrome and the decoder (R84, R132) -/

theorem syndrome_eq (c : Codeword) : syndrome c =
    BitVec.ofBool (c.getLsbD 6 ^^ (c.getLsbD 5 ^^ (c.getLsbD 4 ^^ c.getLsbD 2)))
      ++ BitVec.ofBool (c.getLsbD 6 ^^ (c.getLsbD 5 ^^ (c.getLsbD 3 ^^ c.getLsbD 1)))
      ++ BitVec.ofBool (c.getLsbD 6 ^^ (c.getLsbD 4 ^^ (c.getLsbD 3 ^^ c.getLsbD 0))) := by
  simp [syndrome, parity_codeword]

theorem syndrome_xor (c e : Codeword) : syndrome (c ^^^ e) = syndrome c ^^^ syndrome e := by
  simp only [syndrome, parity_xor_and, ← BitVec.ofBool_xor_ofBool, ← BitVec.xor_append]

/-- Each check of the syndrome repeats the data bits that one parity bit was made from. -/
theorem syndrome_hammingEncode (n : Nibble) : syndrome (hammingEncode n) = 0 := by
  have hself (x y z : Bool) : (x ^^ (y ^^ (z ^^ (x ^^ (y ^^ z))))) = false := by revert x y z; decide
  rw [syndrome_eq, hammingEncode_getLsbD_data n 3, hammingEncode_getLsbD_data n 2, hammingEncode_getLsbD_data n 1,
    hammingEncode_getLsbD_data n 0, hammingEncode_pa, hammingEncode_pb, hammingEncode_pc, hself, hself, hself]
  rfl

/-- Each data bit is flipped by its own syndrome, `111`, `110`, `101` and `011` for bits 3 to 0, and by no other. -/
theorem syndromeFlip_getLsbD {s : BitVec 3} {s1 s2 s3 : Bool}
    (hs : s = BitVec.ofBool s1 ++ BitVec.ofBool s2 ++ BitVec.ofBool s3) :
    (syndromeFlip s).getLsbD 3 = (s1 && s2 && s3) ∧ (syndromeFlip s).getLsbD 2 = (s1 && s2 && !s3) ∧
      (syndromeFlip s).getLsbD 1 = (s1 && !s2 && s3) ∧ (syndromeFlip s).getLsbD 0 = (!s1 && s2 && s3) := by
  subst hs
  revert s1 s2 s3
  decide

theorem hammingDecode_getLsbD (c : Codeword) {i : Nat} (hi : i < 4) :
    (hammingDecode c).getLsbD i = (c.getLsbD (i + 3) ^^ (syndromeFlip (syndrome c)).getLsbD i) := by
  simp [hammingDecode, hi, Nat.add_comm]

/-- A damaged codeword decodes to its nibble, changed by what the decoder makes of the flipped bits alone. -/
theorem hammingDecode_hammingEncode_xor (n : Nibble) (e : Codeword) :
    hammingDecode (hammingEncode n ^^^ e) = n ^^^ hammingDecode e := by
  rw [hammingDecode, hammingDecode, syndrome_xor, syndrome_hammingEncode, BitVec.extractLsb'_xor, hammingEncode_data,
    BitVec.xor_assoc]
  simp

theorem hammingDecode_hammingEncode (n : Nibble) : hammingDecode (hammingEncode n) = n := by
  rw [hammingDecode, syndrome_hammingEncode, hammingEncode_data]
  exact BitVec.xor_zero

theorem hammingDecode_single_error : ∀ i < 7, hammingDecode (BitVec.twoPow 7 i) = 0 := by decide

theorem hammingDecode_double_error :
    ∀ i < 7, ∀ j < 7, i ≠ j → hammingDecode (BitVec.twoPow 7 i ^^^ BitVec.twoPow 7 j) ≠ 0 := by decide

/-! ### The statements -/

theorem exec_h74Enc (n : Nibble) (s : State) : exec (.h74Enc n) s = answer s (.codeword (hammingEncode n)) := rfl

theorem exec_h74Dec (c : Codeword) (s : State) : exec (.h74Dec c) s = answer s (.nibble (hammingDecode c)) := rfl

/-- Settles O27: the four fields of the codeword, each with its own lemma. -/
theorem h74EncodesNibble : Obligations.H74EncodesNibble := fun n s =>
  ⟨hammingEncode n, exec_h74Enc n s, hammingEncode_data n, hammingEncode_pa n, hammingEncode_pb n, hammingEncode_pc n⟩

/-- Settles O28: the three checks are the bits of the syndrome, which says what is flipped. -/
theorem h74DecodesCodeword : Obligations.H74DecodesCodeword := by
  intro c s
  refine ⟨hammingDecode c, exec_h74Dec c s, ?_⟩
  rintro s1 s2 s3 rfl rfl rfl
  obtain ⟨hflip3, hflip2, hflip1, hflip0⟩ := syndromeFlip_getLsbD (syndrome_eq c)
  rw [← hflip3, ← hflip2, ← hflip1, ← hflip0]
  exact ⟨hammingDecode_getLsbD c (by decide), hammingDecode_getLsbD c (by decide), hammingDecode_getLsbD c (by decide),
    hammingDecode_getLsbD c (by decide)⟩

/-- Settles O29: the table is evaluated, a codeword below 8 has no data bits, and the distance is a weight. -/
theorem codewordTable : Obligations.CodewordTable := by
  refine ⟨by decide, fun n => ?_, fun _ _ => three_le_distance⟩
  obtain ⟨hterm, habort⟩ := hammingEncode_ne_reserved n
  exact ⟨hterm, habort, hammingEncode_eq_zero_of_lt n⟩

/-- Settles O30: a single flipped bit decodes to 0 by itself, so it leaves the nibble as it is. -/
theorem singleErrorsCorrected : Obligations.SingleErrorsCorrected := by
  refine fun n => ⟨hammingDecode_hammingEncode n, fun i hi => ?_⟩
  rw [hammingDecode_hammingEncode_xor, hammingDecode_single_error i hi]
  exact BitVec.xor_zero

/-- Settles O31: two flipped bits never decode to 0 by themselves, so they change the nibble. -/
theorem doubleErrorsMiscorrected : Obligations.DoubleErrorsMiscorrected := by
  intro n i hi j hj hij
  rw [BitVec.xor_assoc, hammingDecode_hammingEncode_xor]
  intro h
  refine hammingDecode_double_error i hi j hj hij ((BitVec.xor_right_inj n).mp ?_)
  rw [h]
  exact BitVec.xor_zero.symm

/-- Settles O32: the codeword of nibble 0 is 0, and the flipped bit is the reserved symbol itself. -/
theorem damagedZeroCodewordIsReserved : Obligations.DamagedZeroCodewordIsReserved := by
  unfold Obligations.DamagedZeroCodewordIsReserved
  rw [hammingEncode_zero]
  exact ⟨rfl, rfl⟩

end Sys2Proof.Machine

/-! ## Modulator (`42_modulator.md`)

Every sample of a frame before the guard belongs to one chirp: the preamble is the chirp of symbol 0 four times, so the
frame is the chirps of one sequence of symbols, and its layout is the layout of that sequence. A drain is a `take` and a
`drop` of the pending samples. -/

namespace Sys2Proof.Machine

/-! ### What the operations of TXU answer (R140 to R144) -/

theorem exec_symsOf (p : List Byte) (h : Bool) (s : State) :
    exec (.symsOf p h) s = answer s (.symbols (symsOf h p)) := rfl

theorem exec_msgOf (y : List Symbol) (h : Bool) (s : State) : exec (.msgOf y h) s =
    .next { s with result := .bytes (messageBytes s.draws h y), draws := s.draws + 1 } := rfl

section
variable {s : State} {u : Txu} (hu : s.tx = some u)
include hu

theorem exec_chirpOf (y : Symbol) : exec (.chirpOf y) s = answer s (.samples (chirpOf u.up u.num y)) :=
  withTx_some hu _

theorem exec_buildFrame (p : List Byte) (h : Bool) :
    exec (.buildFrame p h) s = answer s (.samples (buildFrame u.up u.num h p)) := withTx_some hu _

/-- The marker is no part of the payload (D10). -/
theorem exec_txSubmit_of_marker (p : List Byte) : exec (.txSubmit (p ++ [0x0A])) s =
    answerTx s { u with txBuf := u.txBuf ++ buildFrame u.up u.num u.cfg.hamming p } .done := by
  have hm : hasMarker (p ++ [0x0A]) = true := (hasMarker_iff _).mpr List.getLast?_concat
  change execTxSubmit _ s = _
  rw [execTxSubmit, withTx_some hu, if_pos hm, List.dropLast_concat, bufAppend]

theorem exec_txDrain (n : Nat) :
    exec (.txDrain n) s = answerTx s { u with txBuf := u.txBuf.drop n } (.samples (u.txBuf.take n)) := by
  have hmin : exec (.txDrain n) s = answerTx s { u with txBuf := u.txBuf.drop (min n u.txBuf.length) }
      (.samples (u.txBuf.take (min n u.txBuf.length))) := withTx_some hu _
  rw [hmin, ← List.take_eq_take_min, ← List.drop_eq_drop_min]

end

/-- Settles O38: the samples returned are those taken, and what is left are those dropped. -/
theorem txDrainTakesOldest : Obligations.TxDrainTakesOldest := fun _ u n hu =>
  ⟨u.txBuf.take n, exec_txDrain hu n, List.length_take, List.take_append_drop n u.txBuf⟩

/-- Settles O39: the second drain takes from what the first one left. -/
theorem drainsCompose : Obligations.DrainsCompose := by
  intro s u m n hu
  refine ⟨_, _, _, _, exec_txDrain hu m, rfl, exec_txDrain rfl n, rfl, ?_⟩
  rw [exec_txDrain hu (m + n), List.take_add, ← List.drop_drop]
  rfl

/-- Settles O37: a request that does not end with the marker is no payload followed by the marker. -/
theorem txSubmitQueuesFrame : Obligations.TxSubmitQueuesFrame := by
  refine fun s u hu => ⟨fun p => ⟨_, exec_buildFrame hu p _, exec_txSubmit_of_marker hu p⟩, fun m hm => ?_⟩
  refine execTxSubmit_of_no_marker hu fun hlast => ?_
  obtain ⟨p, hp⟩ := List.getLast?_eq_some_iff.mp hlast
  exact hm p hp

/-! ### The two symbols of a byte (R82, R141) and the byte of two symbols (R194 to R196) -/

theorem highNibble_toNat (b : Byte) : (highNibble b).toNat = b.toNat / 16 := by
  rw [highNibble, BitVec.extractLsb'_toNat, Nat.shiftRight_eq_div_pow]
  have := b.isLt
  omega

theorem lowNibble_toNat (b : Byte) : (lowNibble b).toNat = b.toNat % 16 := BitVec.extractLsb'_toNat ..

theorem nibbleSymbol_toNat (n : Nibble) : (nibbleSymbol n).toNat = n.toNat :=
  BitVec.toNat_setWidth_of_le (by decide)

/-- With FEC on the codewords decode to the nibbles; with FEC off no nibble is above 15, so nothing is drawn (U4). -/
theorem pairByte_of_symbolsOfByte (h : Bool) (draw b : Byte) :
    (if h then pairFec (symbolOfNibble h (highNibble b)) (symbolOfNibble h (lowNibble b))
      else pairRaw draw (symbolOfNibble h (highNibble b)) (symbolOfNibble h (lowNibble b))) = b := by
  have hb : (highNibble b).toNat * 16 + (lowNibble b).toNat = b.toNat := by
    rw [highNibble_toNat, lowNibble_toNat, Nat.div_add_mod']
  have hle (n : Nibble) : (nibbleSymbol n).toNat ≤ 15 := by
    rw [nibbleSymbol_toNat]
    exact Nat.le_of_lt_succ n.isLt
  refine BitVec.eq_of_toNat_eq (Eq.trans ?_ hb)
  cases h with
  | true =>
    refine (pairFec_toNat _ _).trans ?_
    rw [symbolOfNibble, symbolOfNibble, if_pos rfl, if_pos rfl, hammingDecode_hammingEncode, hammingDecode_hammingEncode]
  | false =>
    refine (pairRaw_toNat _ _ _ (hle _) (hle _)).trans ?_
    rw [nibbleSymbol_toNat, nibbleSymbol_toNat]

theorem pairBytes_symsOf (h : Bool) (d k : Nat) (p : List Byte) : pairBytes h d k (symsOf h p) = p := by
  induction p generalizing k with
  | nil => rfl
  | cons b p ih => rw [symsOf_cons, pairBytes, pairByte_of_symbolsOfByte, ih]

theorem symsOf_getD (h : Bool) {p : List Byte} {k : Nat} (hk : k < p.length) :
    (symsOf h p).getD (2 * k) 0 = symbolOfNibble h (highNibble (p.getD k 0)) ∧
      (symsOf h p).getD (2 * k + 1) 0 = symbolOfNibble h (lowNibble (p.getD k 0)) := by
  obtain ⟨hfirst, hsecond⟩ := symsOf_getElem? h p k hk
  exact ⟨congrArg (Option.getD · 0) hfirst, congrArg (Option.getD · 0) hsecond⟩

/-- Settles O34: the places of the two symbols of a byte, and the value of a symbol in either mode. -/
theorem symsOfOrdersNibbles : Obligations.SymsOfOrdersNibbles := by
  refine fun s p h => ⟨symsOf h p, exec_symsOf p h s, symsOf_length h p, fun k hk => ?_⟩
  obtain ⟨hfirst, hsecond⟩ := symsOf_getD h hk
  rw [hfirst, hsecond]
  constructor
  · rintro rfl
    exact ⟨rfl, rfl⟩
  · rintro rfl
    exact ⟨(nibbleSymbol_toNat _).trans (highNibble_toNat _), (nibbleSymbol_toNat _).trans (lowNibble_toNat _)⟩

/-- Settles O59: the bytes formed are the payload, from which `MSG_OF` removes the zero bytes. -/
theorem msgOfInvertsSymsOf : Obligations.MsgOfInvertsSymsOf := by
  rintro s _ p h _ ⟨⟩ ⟨⟩
  rw [exec_msgOf, messageBytes, pairBytes_symsOf]

/-! ### The chirp of a symbol (R140) -/

theorem TxInv.chirpOf_length {u : Txu} (hinv : TxInv u) (y : Symbol) : (chirpOf u.up u.num y).length = u.num :=
  Machine.chirpOf_length hinv.up_length hinv.num_pos y

theorem TxInv.chirpOf_getElem? {u : Txu} (hinv : TxInv u) (y : Symbol) {k : Nat} (hk : k < u.num) :
    (chirpOf u.up u.num y)[k]? = some (chirpSample u y k) := Machine.chirpOf_getElem? hinv.up_length y k hk

/-- Symbol 0 does not shift the table. -/
theorem chirpSample_zero (u : Txu) (k : Nat) : chirpSample u 0 k = u.up.getD (k % u.num) cplxZero := by
  simp [chirpSample]

/-- Settles O33: the window of the doubled table is read place by place. -/
theorem chirpOfShiftsTable : Obligations.ChirpOfShiftsTable := by
  refine fun s u y hu hinv => ⟨_, exec_chirpOf hu y, hinv.chirpOf_length y, fun k hk => ?_⟩
  rw [List.getD_eq_getElem?_getD, hinv.chirpOf_getElem? y hk]
  rfl

/-! ### The symbols of a frame (R86, R142) -/

/-- The symbols whose chirps make up a frame before its guard: the unshifted table of the preamble is the chirp of symbol
0. -/
def frameSymbols (h : Bool) (p : List Byte) : List Symbol :=
  List.replicate 4 0 ++ (symsOf h p ++ [Config.symTerm])

section
variable (h : Bool) (p : List Byte)

theorem frameSymbols_length : (frameSymbols h p).length = 5 + 2 * p.length := by
  simp only [frameSymbols, List.length_append, List.length_replicate, symsOf_length, List.length_singleton]
  omega

theorem frameSymbols_preamble {j : Nat} (hj : j < 4) : (frameSymbols h p)[j]? = some 0 := by
  rw [frameSymbols, List.getElem?_append_left (by simpa using hj), List.getElem?_replicate_of_lt hj]

/-- Behind the four preamble symbols. -/
theorem frameSymbols_four_add (j : Nat) : (frameSymbols h p)[4 + j]? = (symsOf h p ++ [Config.symTerm])[j]? := by
  rw [frameSymbols, List.getElem?_append_right (by simp), List.length_replicate, Nat.add_sub_cancel_left]

theorem frameSymbols_payload {j : Nat} (hj : j < 2 * p.length) :
    (frameSymbols h p)[4 + j]? = some ((symsOf h p).getD j 0) := by
  have hlt : j < (symsOf h p).length := by rwa [symsOf_length]
  rw [frameSymbols_four_add, List.getElem?_append_left hlt, List.getElem?_eq_getElem hlt, List.getD_eq_getElem _ _ hlt]

theorem frameSymbols_terminator : (frameSymbols h p)[4 + 2 * p.length]? = some Config.symTerm := by
  rw [frameSymbols_four_add, ← symsOf_length h p, List.getElem?_concat_length]

end

theorem buildFrame_eq_frameSymbols {up : List Sample} {num : Nat} (hup : up.length = num) (h : Bool) (p : List Byte) :
    buildFrame up num h p = (frameSymbols h p).flatMap (chirpOf up num) ++ List.replicate 8192 cplxZero := by
  have hpreamble : (List.replicate 4 0).flatMap (fun _ : Nat => up) = (List.replicate 4 0).flatMap (chirpOf up num) := by
    simp only [List.flatMap_replicate, chirpOf_zero hup]
  rw [buildFrame_eq, hpreamble, frameSymbols, List.flatMap_append, List.flatMap_append, List.flatMap_singleton]
  simp only [List.append_assoc]

/-! ### The samples of a frame (R86, R142) -/

section
variable {u : Txu} (hinv : TxInv u) (h : Bool) (p : List Byte)
include hinv

/-- The guard begins where the chirps end. -/
theorem frameChirps_length :
    ((frameSymbols h p).flatMap (chirpOf u.up u.num)).length = (5 + 2 * p.length) * u.num := by
  rw [flatMap_length _ _ _ fun y _ => hinv.chirpOf_length y, frameSymbols_length]

theorem buildFrame_length : (buildFrame u.up u.num h p).length = (5 + 2 * p.length) * u.num + 8192 := by
  rw [buildFrame_eq_frameSymbols hinv.up_length, List.length_append, frameChirps_length hinv, List.length_replicate]

/-- Sample `k` of the chirp of the symbol at place `j`. -/
theorem buildFrame_chirp {y : Symbol} {j k : Nat} (hy : (frameSymbols h p)[j]? = some y) (hk : k < u.num) :
    (buildFrame u.up u.num h p)[j * u.num + k]? = some (chirpSample u y k) := by
  have hchirp : ((frameSymbols h p).flatMap (chirpOf u.up u.num))[j * u.num + k]? = some (chirpSample u y k) := by
    rw [flatMap_getElem? _ _ _ (fun y _ => hinv.chirpOf_length y) j k hk, hy]
    exact hinv.chirpOf_getElem? y hk
  obtain ⟨hlt, -⟩ := List.getElem?_eq_some_iff.mp hchirp
  rw [buildFrame_eq_frameSymbols hinv.up_length, List.getElem?_append_left hlt, hchirp]

theorem buildFrame_preamble {k : Nat} (hk : k < 4 * u.num) :
    (buildFrame u.up u.num h p)[k]? = some (u.up.getD (k % u.num) cplxZero) := by
  have hj : k / u.num < 4 := (Nat.div_lt_iff_lt_mul hinv.num_pos).mpr hk
  have hsample := buildFrame_chirp hinv h p (frameSymbols_preamble h p hj) (Nat.mod_lt k hinv.num_pos)
  rwa [Nat.div_add_mod', chirpSample_zero, Nat.mod_mod] at hsample

theorem buildFrame_guard {k : Nat} (hk : k < 8192) :
    (buildFrame u.up u.num h p)[(5 + 2 * p.length) * u.num + k]? = some cplxZero := by
  rw [buildFrame_eq_frameSymbols hinv.up_length, ← frameChirps_length hinv h p,
    List.getElem?_append_right (Nat.le_add_right _ _), Nat.add_sub_cancel_left, List.getElem?_replicate_of_lt hk]

end

/-- Settles O36: the chirps of the frame's symbols, by the place of the symbol, and the guard behind them. -/
theorem buildFrameLayout : Obligations.BuildFrameLayout := fun s _ p h hu hinv =>
  ⟨_, symsOf h p, exec_buildFrame hu p h, exec_symsOf p h s, buildFrame_length hinv h p,
   fun _ => buildFrame_preamble hinv h p,
   fun _ hj _ => buildFrame_chirp hinv h p (frameSymbols_payload h p hj),
   fun _ => buildFrame_chirp hinv h p (frameSymbols_terminator h p),
   fun _ => buildFrame_guard hinv h p⟩

end Sys2Proof.Machine

/-! ## Correlator (`43_correlator.md`)

`CORRELATE` answers the correlation of the model, whose entries are the magnitudes of the convolution of R160. That
convolution is linear in the window, and at index `num` it pairs each entry of the window with the entry of `DOWN` that
stands as far from the end of the table. -/

namespace Sys2Proof.Machine

/-! ### What the two probes answer (R160, R161) -/

theorem exec_correlate {s : State} {r : Rxu} (hr : s.rx = some r) {w : List Sample} (hw : w ≠ []) :
    exec (.correlate w) s = answer s (.reals (correlation r.num r.down w)) :=
  (withRx_some hr _).trans (if_pos (nonEmpty_eq_true hw))

theorem exec_correlate_nil {s : State} {r : Rxu} (hr : s.rx = some r) :
    exec (.correlate []) s = .refused .emptySequence := withRx_some hr _

theorem exec_peak {mag : List XReal} {v : XReal} {a : Nat} (h : peakOf mag = some (v, a)) (s : State) :
    exec (.peak mag) s = answer s (.peak v a) := by
  change execPeak mag s = _
  rw [execPeak, h]

theorem exec_peak_nil (s : State) : exec (.peak []) s = .refused .emptySequence := rfl

/-- Settles O42: the peak of a sequence that is not empty is its first maximum. -/
theorem peakIsFirstMaximum : Obligations.PeakIsFirstMaximum := by
  refine fun s mag => ⟨fun hmag => ?_, ?_⟩
  · obtain ⟨v, a, hpeak, hat, hmax, hfirst⟩ := peakOf_spec mag hmag
    exact ⟨v, a, exec_peak hpeak s, hat, hmax, hfirst⟩
  · rintro rfl
    exact exec_peak_nil s

/-! ### The entries of a correlation (R160) -/

theorem RxInv.correlation_val {r : Rxu} (h : RxInv r) {w : List Sample} {n : Nat} {x : XReal}
    (hx : (correlation r.num r.down w)[n]? = some x) : realVal x = ‖convVal r w n‖ := by
  obtain ⟨hn, rfl⟩ := List.getElem?_eq_some_iff.mp hx
  rw [correlation_getElem, realVal_magnitude, convolveAt_val r h.down_length]

/-- Settles O40: each entry is the magnitude of the model's convolution, which is that of R160. -/
theorem correlateIsConvolution : Obligations.CorrelateIsConvolution := by
  refine fun s r w hr hinv => ⟨fun hw => ?_, ?_⟩
  · exact ⟨_, exec_correlate hr hw, correlation_length _ _ _, fun _ _ => hinv.correlation_val⟩
  · rintro rfl
    exact exec_correlate_nil hr

/-- The convolution is linear in the window: a complex factor of the samples is one of the sums. -/
theorem convVal_map_cplxMul (r : Rxu) (c : Cplx) (w : List Sample) (n : Nat) :
    convVal r (w.map (cplxMul c)) n = cplxVal c * convVal r w n := by
  rw [convVal, convVal, List.length_map, Finset.mul_sum]
  refine Finset.sum_congr rfl fun k hk => ?_
  have hk' : k < w.length := Finset.mem_range.mp hk
  have hsample : cplxVal ((w.map (cplxMul c)).getD k cplxZero) = cplxVal c * cplxVal (w.getD k cplxZero) := by
    rw [List.getD_eq_getElem _ _ (by rwa [List.length_map]), List.getD_eq_getElem _ _ hk', List.getElem_map, cplxVal_mul]
  rw [hsample, mul_ite, mul_zero, mul_assoc]

/-- Settles O41: the factor comes out of the convolution, and its magnitude is the factor itself. -/
theorem correlateScales : Obligations.CorrelateScales := by
  intro s r w q hr hinv hw hq
  have hw' : w.map (cplxMul (cplxOfRat q)) ≠ [] := by simpa using hw
  refine ⟨_, _, exec_correlate hr hw, exec_correlate hr hw', by simp, fun n x x' hx hx' => ?_⟩
  have hnorm : ‖cplxVal (cplxOfRat q)‖ = q := by
    rw [cplxVal_ofRat, Complex.norm_ratCast, abs_of_nonneg (by exact_mod_cast hq)]
  rw [hinv.correlation_val hx', hinv.correlation_val hx, convVal_map_cplxMul, norm_mul, hnorm]

/-! ### An aligned repetition (R163) -/

theorem RxInv.isUnitTable {r : Rxu} (h : RxInv r) : IsUnitTable r.cfg.bw r.cfg.fs r.num r.up :=
  .inl ⟨r, h, rfl, rfl, rfl, rfl⟩

/-- By the symmetry of R124 an entry of `UP` meets its own conjugate in the term of the convolution at index `num`. -/
theorem RxInv.up_mul_down {r : Rxu} (h : RxInv r) (hN : 128 * realVal r.cfg.fs / realVal r.cfg.bw = r.num) {k : Nat}
    (h1 : 1 ≤ k) (hk : k < r.num) :
    cplxVal (r.up.getD k cplxZero) * cplxVal (r.down.getD (r.num - k) cplxZero) = 1 := by
  obtain ⟨-, hsymm⟩ := upTableSymmetric _ _ _ _ _ h.isUnitTable hN
  obtain ⟨-, hup⟩ := hsymm k h1 hk
  rw [h.down_val (by omega), hup, Complex.mul_conj, Complex.normSq_eq_norm_sq, h.norm_up hk, one_pow, Complex.ofReal_one]

/-- Settles O43: the first sample has no partner in the table, and each of the `N - 1` others gives 1. -/
theorem alignedRepetitionAtNum : Obligations.AlignedRepetitionAtNum := by
  intro r N hinv hN
  obtain rfl := hinv.isUnitTable.num_eq_of_int hN
  calc convVal r r.up r.num
      = ∑ k ∈ Finset.range r.num, if k = 0 then 0 else (1 : ℂ) := by
        rw [convVal, hinv.up_length]
        refine Finset.sum_congr rfl fun k hk => ?_
        have hlt : k < r.num := Finset.mem_range.mp hk
        by_cases h0 : k = 0
        · rw [if_pos h0, if_neg (by omega)]
        · rw [if_neg h0, if_pos (by omega), hinv.up_mul_down hN (by omega) hlt]
    _ = r.num - 1 := by
        obtain ⟨m, hm⟩ := Nat.exists_eq_add_one.mpr hinv.num_pos
        simp [hm, Finset.sum_range_succ']

end Sys2Proof.Machine

/-! ## SyncEngine (`44_sync_engine.md`)

A chunk runs the one step that `rx_state` selects. `LISTEN_STEP` decides by the peak of the chunk; `SYNC_STEP` and
`DEMOD_STEP` run their loops to an end, in the iterations `SyncIter` and `DemodIter`. A state in which SYNCING's loop ends is
one from which an iteration leads to itself at most, so where no window leaves a choice there is one such state. -/

namespace Sys2Proof.Machine
open Relation

/-! ### A window of one sample (R160, R161, R180) -/

/-- Only the first sample adds to the convolution. -/
theorem convVal_impulse (r : Rxu) (A : Sample) (m n : Nat) :
    convVal r (A :: List.replicate m cplxZero) n
      = if n < r.num then cplxVal A * cplxVal (r.down.getD n cplxZero) else 0 := by
  rw [convVal, List.length_cons, Finset.sum_range_succ']
  simp

theorem RxInv.norm_convVal_impulse {r : Rxu} (h : RxInv r) (A : Sample) (m n : Nat) :
    ‖convVal r (A :: List.replicate m cplxZero) n‖ = if n < r.num then ‖cplxVal A‖ else 0 := by
  rw [convVal_impulse]
  split
  · next hn => rw [norm_mul, h.norm_down hn, mul_one]
  · exact norm_zero

/-- Settles O44: the magnitude is `|A|` at each of the first `num` places, of which 0 is the lowest, and 0 behind them. -/
theorem impulsePeaksAtZero : Obligations.ImpulsePeaksAtZero := by
  intro r A h
  have hnum := h.num_pos
  refine ⟨by simp; omega, ?_, fun n _ => ?_, fun n hn => absurd hn (Nat.not_lt_zero n)⟩
  · rw [h.norm_convVal_impulse, if_pos hnum]
  · rw [h.norm_convVal_impulse]
    split
    · exact le_rfl
    · exact norm_nonneg _

/-! ### The three steps, run by themselves (R171, R172, R175) -/

section
variable {s : State} {r : Rxu} {w : List Sample} (hr : s.rx = some r) (hw : w ≠ [])
include hr hw

theorem exec_listenStep : exec (.listenStep w) s = finishStep s (fun _ => .done) (listenStep s.draws r w) :=
  (withRx_some hr _).trans (if_pos (nonEmpty_eq_true hw))

theorem exec_syncStep : exec (.syncStep w) s = finishStep s (fun _ => .done) (syncStep s.draws r w) :=
  (withRx_some hr _).trans (if_pos (nonEmpty_eq_true hw))

theorem exec_demodStep : exec (.demodStep w) s = finishStep s .message (demodStep s.draws r w) :=
  (withRx_some hr _).trans (if_pos (nonEmpty_eq_true hw))

end

/-! ### How the three steps end -/

section
variable {r : Rxu} (d : Nat) (h : TablesOk r) (w : List Sample)
include h

theorem listenStep_ends (hw : w ≠ []) : ∃ r', listenStep d r w = .returns r' none d := by
  obtain ⟨v, a, -, ⟨-, hstep⟩ | ⟨-, hstep⟩⟩ := listenStep_spec d r h w hw
  · exact ⟨_, hstep⟩
  · exact ⟨_, hstep⟩

/-- SYNCING's loop returns without a message, or it never ends (R180). -/
theorem syncStep_ends : ∃ r', syncStep d r w = .returns r' none d ∨ syncStep d r w = .loops r' := by
  obtain ⟨r₂, -, ⟨-, hstep⟩ | ⟨-, -, hstep⟩ | ⟨-, hstep⟩⟩ := syncStep_spec d r h w
  · exact ⟨_, .inl hstep⟩
  · exact ⟨_, .inl hstep⟩
  · exact ⟨_, .inr hstep⟩

theorem demodStep_ends : ∃ r' m d', demodStep d r w = .returns r' m d' := by
  obtain ⟨r₂, -, ⟨-, hstep⟩ | ⟨-, -, hstep⟩ | ⟨-, -, hstep⟩⟩ := demodStep_spec d r h w
  · exact ⟨_, _, _, hstep⟩
  · exact ⟨_, _, _, hstep⟩
  · exact ⟨_, _, _, hstep⟩

end

/-! ### RX_CHUNK runs the selected step (R170, R177) -/

section
variable {s : State} {r : Rxu}

theorem exec_rxChunk_nil (hr : s.rx = some r) : exec (.rxChunk []) s = .refused .emptySequence := withRx_some hr _

variable {w : List Sample} (hr : s.rx = some r) (hw : w ≠ [])
include hr hw

theorem exec_rxChunk_of_state_three (h3 : r.rxState = 3) : exec (.rxChunk w) s = .refused .noSuchState := by
  change execRxChunk w s = _
  rw [execRxChunk, withRx_some hr, if_pos (nonEmpty_eq_true hw)]
  simp [h3, listening, syncing, demoding]

theorem exec_rxChunk_runs_listenStep (h : RxInv r) (h0 : r.rxState = 0) :
    ∃ t, exec (.listenStep w) s = .next t ∧ exec (.rxChunk w) s = .next { t with result := .chunk w.length none } := by
  obtain ⟨r', hend⟩ := listenStep_ends s.draws h.tablesOk w hw
  refine ⟨_, by rw [exec_listenStep hr hw, hend]; rfl, ?_⟩
  exact (execRxChunk_of_listening hr hw h0).trans (by rw [hend]; rfl)

/-- Either the call returns with the length of the chunk, or both operations are in the loop without end. -/
theorem exec_rxChunk_runs_syncStep (h : RxInv r) (h1 : r.rxState = 1) :
    ∃ t, exec (.syncStep w) s = .next t ∧
      ((t.result = .done ∧ exec (.rxChunk w) s = .next { t with result := .chunk w.length none }) ∨
        (t.result = .notReturned ∧ exec (.rxChunk w) s = .next t)) := by
  have hchunk : exec (.rxChunk w) s = _ := execRxChunk_of_syncing hr hw h1
  rw [exec_syncStep hr hw, hchunk]
  obtain ⟨r', hend | hend⟩ := syncStep_ends s.draws h.tablesOk w
  all_goals rw [hend]
  · exact ⟨_, rfl, .inl ⟨rfl, rfl⟩⟩
  · exact ⟨_, rfl, .inr ⟨rfl, rfl⟩⟩

theorem exec_rxChunk_runs_demodStep (h : RxInv r) (h2 : r.rxState = 2) :
    ∃ t m, exec (.demodStep w) s = .next t ∧ t.result = .message m ∧
      exec (.rxChunk w) s = .next { t with result := .chunk w.length m } := by
  obtain ⟨r', m, d', hend⟩ := demodStep_ends s.draws h.tablesOk w
  refine ⟨_, m, by rw [exec_demodStep hr hw, hend]; rfl, rfl, ?_⟩
  exact (execRxChunk_of_demoding hr hw h2).trans (by rw [hend]; rfl)

end

/-- Settles O45: one lemma for each refusal and each value of `rx_state`. -/
theorem rxChunkRunsSelectedStep : Obligations.RxChunkRunsSelectedStep := by
  refine fun s r w hr => ⟨?_, exec_rxChunk_of_state_three hr, exec_rxChunk_runs_listenStep hr, exec_rxChunk_runs_syncStep hr,
    exec_rxChunk_runs_demodStep hr⟩
  rintro rfl
  exact exec_rxChunk_nil hr

/-- Settles O46: the two ways in which `LISTEN_STEP` ends. -/
theorem listenStepDetects : Obligations.ListenStepDetects := by
  intro s r w hr h hw
  obtain ⟨v, a, hpeak, hcases⟩ := listenStep_spec s.draws r h.tablesOk w hw
  refine ⟨v, a, hpeak, ?_⟩
  rw [exec_listenStep hr hw]
  rcases hcases with ⟨hdetect, hstep⟩ | ⟨hmiss, hstep⟩
  all_goals rw [hstep, finishStep_returns]
  · exact .inl ⟨hdetect, rfl⟩
  · exact .inr ⟨hmiss, by rw [← hr]⟩

/-! ### The transitions of rx_state (R178) -/

/-- Whether the step of `r` returns or never does, `rx_state` is as it was or is `target`. -/
structure StepEnd.StaysOrGoesTo (r : Rxu) (target : BitVec 2) (e : StepEnd) : Prop where
  /-- it returned -/
  returns : ∀ r' m d, e = .returns r' m d → r'.rxState = r.rxState ∨ r'.rxState = target
  /-- it is in a loop without end (R180) -/
  loops : ∀ r', e = .loops r' → r'.rxState = r.rxState ∨ r'.rxState = target

section
variable (d : Nat) (r : Rxu) (c : List Sample)

theorem listenStep_transition : (listenStep d r c).StaysOrGoesTo r 1 where
  returns r' m d' hret := by
    obtain ⟨-, -, rfl | rfl⟩ := listenStep_returns hret
    · exact .inl rfl
    · exact .inr rfl
  loops r' hloop := absurd hloop listenStep_not_loops

theorem syncStep_transition : (syncStep d r c).StaysOrGoesTo r 2 where
  returns r' m d' hret := by
    obtain ⟨-, -, -, -, ⟨hstate, -⟩ | ⟨hstate, -⟩⟩ := syncStep_returns hret
    · exact .inl hstate
    · exact .inr hstate
  loops r' hloop := by
    obtain ⟨-, -, hstate⟩ := syncStep_loops hloop
    exact .inl hstate

theorem demodStep_transition : (demodStep d r c).StaysOrGoesTo r 0 where
  returns r' m d' hret := by
    obtain ⟨-, ⟨hstate, -⟩ | ⟨rfl, -⟩ | ⟨rfl, -⟩⟩ := demodStep_returns hret
    · exact .inl hstate
    · exact .inr rfl
    · exact .inr rfl
  loops r' hloop := absurd hloop demodStep_not_loops

end

section
variable {s t : State} {r r' : Rxu}

theorem finishStep_transition {res : Option Message → Result} {e : StepEnd} {target : BitVec 2}
    (he : e.StaysOrGoesTo r target) (h : finishStep s res e = .next t) (hr' : t.rx = some r') :
    r'.rxState = r.rxState ∨ r'.rxState = target := by
  rcases finishStep_eq_next h with ⟨r₁, m, d, hret, rfl⟩ | ⟨r₁, hloop, rfl⟩
  · cases hr'; exact he.returns _ m d hret
  · cases hr'; exact he.loops _ hloop

theorem execRxChunk_transition {w : List Sample} (hr : s.rx = some r) (h : execRxChunk w s = .next t)
    (hr' : t.rx = some r') :
    r'.rxState = r.rxState ∨ (r.rxState = 0 ∧ r'.rxState = 1) ∨ (r.rxState = 1 ∧ r'.rxState = 2) ∨
      (r.rxState = 2 ∧ r'.rxState = 0) := by
  obtain ⟨r₀, hr₀, -, hstep⟩ := execRxChunk_eq_next h
  cases hr.symm.trans hr₀
  rcases hstep with ⟨h0, hstep⟩ | ⟨h1, hstep⟩ | ⟨h2, hstep⟩
  · exact (finishStep_transition (listenStep_transition _ _ _) hstep hr').imp_right fun hgo => .inl ⟨h0, hgo⟩
  · exact (finishStep_transition (syncStep_transition _ _ _) hstep hr').imp_right fun hgo => .inr (.inl ⟨h1, hgo⟩)
  · exact (finishStep_transition (demodStep_transition _ _ _) hstep hr').imp_right fun hgo => .inr (.inr ⟨h2, hgo⟩)

/-- The constructor and the reset leave a receiver that is listening, whatever was there before. -/
theorem execRxConstruct_listening {bw fs thr : XReal} {hamming : Bool} (h : execRxConstruct bw fs hamming thr s = .next t)
    (hr' : t.rx = some r') : r'.rxState = 0 := by
  rw [execRxConstruct] at h
  split at h
  · cases h; cases hr'; rfl
  · cases h

theorem execRxReset_listening (h : execRxReset s = .next t) (hr' : t.rx = some r') : r'.rxState = 0 := by
  obtain ⟨r₀, -, hk⟩ := withRx_eq_next h
  cases hk; cases hr'; rfl

/-- The transitions of R178, for each call that the host can make. -/
theorem exec_hostCall_transition {i : Instr} (hi : isRxCall i = true ∨ isTxCall i = true ∨ isProbe i = true)
    (hr : s.rx = some r) (h : exec i s = .next t) (hr' : t.rx = some r') :
    r'.rxState = r.rxState ∨
    ((∃ w, i = .rxChunk w) ∧
      ((r.rxState = 0 ∧ r'.rxState = 1) ∨ (r.rxState = 1 ∧ r'.rxState = 2) ∨ (r.rxState = 2 ∧ r'.rxState = 0))) ∨
    ((i = .rxReset ∨ ∃ bw fs h thr, i = .rxConstruct bw fs h thr) ∧ r'.rxState = 0) := by
  have of_same_rx (hsame : t.rx = s.rx) : r'.rxState = r.rxState := by
    rw [hr', hr] at hsame; exact congrArg Rxu.rxState (Option.some.inj hsame)
  rcases hi with hi | hi | hi
  · cases i with
    | rxConstruct bw fs hamming thr =>
      exact .inr (.inr ⟨.inr ⟨bw, fs, hamming, thr, rfl⟩, execRxConstruct_listening h hr'⟩)
    | rxReset => exact .inr (.inr ⟨.inl rfl, execRxReset_listening h hr'⟩)
    | rxChunk w => exact (execRxChunk_transition hr h hr').imp_right fun hgo => .inl ⟨⟨w, rfl⟩, hgo⟩
    | _ => cases hi
  · exact .inl (of_same_rx (txCall_frame hi h).1)
  · exact .inl (of_same_rx (exec_probe_sameUnits hi s t h).1)

end

/-- Settles O12: a step is nothing, inside a call that never returns, or the host's next call. -/
theorem receiverTransitions : Obligations.ReceiverTransitions := by
  intro s t c cs i r r' hcalls hdecode hr hstep hr'
  rcases step_eq_next hstep with ⟨-, rfl⟩ | ⟨c₀, cs₀, i₀, hcalls₀, -, hdecode₀, hexec⟩
  · cases hr.symm.trans hr'; exact .inl rfl
  · cases hcalls.symm.trans hcalls₀
    cases hdecode.symm.trans hdecode₀
    exact exec_hostCall_transition (s := { s with calls := cs }) (decodeCmd_isCommand hdecode) hr hexec hr'

/-! ### Messages (R176, R179) -/

/-- A chunk whose call answers a message ran a step that returned with it. -/
theorem finishStep_message {s t : State} {e : StepEnd} {k n : Nat} {m : Message}
    (h : finishStep s (.chunk k) e = .next t) (hresult : t.result = .chunk n (some m)) :
    n = k ∧ ∃ r d, e = .returns r (some m) d ∧ t.rx = some r := by
  rcases finishStep_eq_next h with ⟨r, m', d, hret, rfl⟩ | ⟨r, -, rfl⟩
  · cases hresult; exact ⟨rfl, r, d, hret, rfl⟩
  · cases hresult

/-- Settles O51: of the three steps only `DEMOD_STEP` returns with a message, and it does so by `RETURN_TO_LISTENING`. -/
theorem messageOnlyFromDemoding : Obligations.MessageOnlyFromDemoding := by
  intro s t w n m hexec hresult
  obtain ⟨r, hr, -, ⟨-, hstep⟩ | ⟨-, hstep⟩ | ⟨h2, hstep⟩⟩ := execRxChunk_eq_next hexec
  all_goals obtain ⟨hn, r', d, hret, hr'⟩ := finishStep_message hstep hresult
  · obtain ⟨hnone, -⟩ := listenStep_returns hret
    cases hnone
  · obtain ⟨hnone, -⟩ := syncStep_returns hret
    cases hnone
  · obtain ⟨-, ⟨-, -, hnone, -⟩ | ⟨-, hnone, -⟩ | ⟨rfl, -⟩⟩ := demodStep_returns hret
    · cases hnone
    · cases hnone
    · exact ⟨hn, r, hr, h2, hr'⟩

/-! ### Where a loop ends -/

/-- `R` leads from `a` to itself at most. -/
def IsEnd {α : Type} (R : α → α → Prop) (a : α) : Prop := ∀ b, R a b → b = a

section
variable {α : Type} {R : α → α → Prop} {a b c : α}

theorem IsEnd.eq_of_reaches (ha : IsEnd R a) (h : ReflTransGen R a b) : b = a := by
  induction h with
  | refl => rfl
  | tail _ hstep ih => subst ih; exact ha _ hstep

/-- Where no state on the way leaves a choice, all runs end in the same place. -/
theorem IsEnd.unique (hb : IsEnd R b) (hc : IsEnd R c) (hab : ReflTransGen R a b) (hac : ReflTransGen R a c)
    (hdet : ∀ x, ReflTransGen R a x → ∀ y z, R x y → R x z → y = z) : b = c := by
  induction hab using ReflTransGen.head_induction_on with
  | refl => exact (hb.eq_of_reaches hac).symm
  | head hstep hrest ih =>
    rcases hac.cases_head with rfl | ⟨x, hstep', hrest'⟩
    · obtain rfl := hc _ hstep
      exact hc.eq_of_reaches hrest
    · obtain rfl := hdet _ .refl _ _ hstep hstep'
      exact ih hrest' fun x hx => hdet x (hx.head hstep)

end

/-! ### SYNCING's loop (R172 to R174, R180) -/

/-- `SYNC_STEP` answers the state `r` of its loop: for a buffer shorter than a window, for the transition to DEMODING, or
for an iteration that repeats itself for ever. -/
def SyncAnswers (s : State) (w : List Sample) (r : Rxu) : Prop :=
  (r.sampleBuf.length < r.num ∧ exec (.syncStep w) s = .next { s with rx := some r, result := .done }) ∨
    (r.num ≤ r.sampleBuf.length ∧ r.matchCnt = 3 ∧
      exec (.syncStep w) s = .next { s with rx := some { r with rxState := 2 }, result := .done }) ∨
    (SyncIter r r ∧ exec (.syncStep w) s = .next { s with rx := some r, result := .notReturned })

/-- Settles O47: the three ends of the model's loop are those of R172 and R180. -/
theorem syncStepRunsLoop : Obligations.SyncStepRunsLoop := by
  intro s r w hr h hw
  obtain ⟨r', hreach, hend⟩ := syncStep_spec s.draws r h.tablesOk w
  refine ⟨r', hreach, ?_⟩
  rw [exec_syncStep hr hw]
  rcases hend with ⟨hshort, hstep⟩ | ⟨hfull, hmatch, hstep⟩ | ⟨hself, hstep⟩
  all_goals rw [hstep]
  · exact .inl ⟨hshort, rfl⟩
  · exact .inr (.inl ⟨hfull, hmatch, rfl⟩)
  · exact .inr (.inr ⟨hself, rfl⟩)

section
variable {s : State} {w : List Sample} {r : Rxu} (h : SyncAnswers s w r)
include h

theorem SyncAnswers.of_short (hshort : r.sampleBuf.length < r.num) :
    exec (.syncStep w) s = .next { s with rx := some r, result := .done } := by
  rcases h with ⟨-, hexec⟩ | ⟨hfull, -⟩ | ⟨⟨hfull, -⟩, -⟩
  · exact hexec
  · omega
  · omega

theorem SyncAnswers.of_matched (hfull : r.num ≤ r.sampleBuf.length) (hmatch : r.matchCnt = 3) :
    exec (.syncStep w) s = .next { s with rx := some { r with rxState := 2 }, result := .done } := by
  rcases h with ⟨hshort, -⟩ | ⟨-, -, hexec⟩ | ⟨⟨-, hne, -⟩, -⟩
  · omega
  · exact hexec
  · exact absurd hmatch hne

theorem SyncAnswers.of_goesOn (hfull : r.num ≤ r.sampleBuf.length) (hne : r.matchCnt ≠ 3) :
    exec (.syncStep w) s = .next { s with rx := some r, result := .notReturned } := by
  rcases h with ⟨hshort, -⟩ | ⟨-, hmatch, -⟩ | ⟨-, hexec⟩
  · omega
  · exact absurd hmatch hne
  · exact hexec

end

section
variable {r r₁ r₂ : Rxu}

/-- Where its window leaves no choice, an iteration has one outcome. -/
theorem SyncIter.unique (hn : NoNearTie r (r.sampleBuf.take r.num)) (h₁ : SyncIter r r₁) (h₂ : SyncIter r r₂) :
    r₁ = r₂ := by
  obtain ⟨-, -, v, a, hpeak, hcase₁⟩ := h₁
  obtain ⟨-, -, v', a', hpeak', hcase₂⟩ := h₂
  obtain ⟨rfl, rfl⟩ := hpeak.unique hn hpeak'
  rcases hcase₁ with ⟨hdetect₁, b₁, hb₁, rfl⟩ | ⟨hmiss₁, rfl⟩
  · rcases hcase₂ with ⟨-, b₂, hb₂, rfl⟩ | ⟨hmiss₂, -⟩
    · obtain rfl : b₁ = b₂ := by exact_mod_cast hb₁.trans hb₂.symm
      rfl
    · exact absurd hdetect₁ (hpeak.not_both hn hmiss₂)
  · rcases hcase₂ with ⟨hdetect₂, -⟩ | ⟨-, rfl⟩
    · exact absurd hdetect₂ (hpeak.not_both hn hmiss₁)
    · rfl

theorem syncIter_isEnd_of_short (hshort : r.sampleBuf.length < r.num) : IsEnd SyncIter r :=
  fun _ hiter => absurd hiter.1 (not_le.mpr hshort)

theorem syncIter_isEnd_of_matched (hmatch : r.matchCnt = 3) : IsEnd SyncIter r :=
  fun _ hiter => absurd hmatch hiter.2.1

theorem syncIter_isEnd_of_self (hn : NoNearTie r (r.sampleBuf.take r.num)) (hself : SyncIter r r) : IsEnd SyncIter r :=
  fun _ hiter => hiter.unique hn hself

/-- A detection at index 0 has bias 0 (R173): nothing is removed and nothing counted (R180). -/
theorem syncIter_isEnd_of_detectsAt_zero (hbias : r.expectedBias ≠ 0) (h : DetectsAt r (r.sampleBuf.take r.num) 0) :
    IsEnd SyncIter r := by
  rintro r' ⟨-, -, v, a, hpeak, hcase⟩
  obtain ⟨rfl, hnomiss⟩ := h v a hpeak
  rcases hcase with ⟨-, b, hb, rfl⟩ | ⟨hmiss, -⟩
  · obtain rfl : b = 0 := by simpa using hb
    simp [hbias.symm]
  · exact absurd hmiss hnomiss

end

section
variable {s : State} {r r' : Rxu} {w : List Sample} (hr : s.rx = some r) (h : RxInv r) (hw : w ≠ [])
include hr h hw

/-- Where no window on the way leaves a choice, `SYNC_STEP` answers the end that the iterations reach. -/
theorem syncAnswers_of_isEnd
    (hn : ∀ r₂, ReflTransGen SyncIter { r with sampleBuf := r.sampleBuf ++ w } r₂ →
      NoNearTie r₂ (r₂.sampleBuf.take r₂.num))
    (hreach : ReflTransGen SyncIter { r with sampleBuf := r.sampleBuf ++ w } r') (hend : IsEnd SyncIter r') :
    SyncAnswers s w r' := by
  obtain ⟨r₂, hreach₂, hanswers⟩ : ∃ r₂, ReflTransGen SyncIter _ r₂ ∧ SyncAnswers s w r₂ :=
    syncStepRunsLoop s r w hr h hw
  have hend₂ : IsEnd SyncIter r₂ := by
    rcases hanswers with ⟨hshort, -⟩ | ⟨-, hmatch, -⟩ | ⟨hself, -⟩
    · exact syncIter_isEnd_of_short hshort
    · exact syncIter_isEnd_of_matched hmatch
    · exact syncIter_isEnd_of_self (hn r₂ hreach₂) hself
  obtain rfl := hend.unique hend₂ hreach hreach₂ fun x hx _ _ => SyncIter.unique (hn x hx)
  exact hanswers

/-- A window with the peak above the threshold at index 0, and a counter below 3, keep `SYNC_STEP` for ever. -/
theorem exec_syncStep_of_detectsAt_zero (hne : r.matchCnt ≠ 3) (hfull : r.num ≤ (r.sampleBuf ++ w).length)
    (hdetects : DetectsAt r ((r.sampleBuf ++ w).take r.num) 0) :
    exec (.syncStep w) s
      = .next { s with rx := some { r with sampleBuf := r.sampleBuf ++ w }, result := .notReturned } := by
  have hbias : r.expectedBias ≠ 0 := h.expectedBias_eq ▸ h.num_pos.ne'
  have hend : IsEnd SyncIter { r with sampleBuf := r.sampleBuf ++ w } :=
    syncIter_isEnd_of_detectsAt_zero hbias hdetects
  obtain ⟨r', hreach, hanswers⟩ : ∃ r', ReflTransGen SyncIter _ r' ∧ SyncAnswers s w r' :=
    syncStepRunsLoop s r w hr h hw
  obtain rfl := hend.eq_of_reaches hreach
  exact hanswers.of_goesOn hfull hne

end

/-- Inside a call that never returns a step is one more iteration of its loop. -/
theorem step_of_notReturned {s : State} (h : s.result = .notReturned) : step s = .next s := by
  rw [step, nextCall_of_notReturned h]

/-- Settles O48: each of the three clauses is about an end of the loop, and the loop has one end. -/
theorem syncStepEndIsUnique : Obligations.SyncStepEndIsUnique := by
  intro s r r' w hr h hw hn hreach
  have hanswers : IsEnd SyncIter r' → SyncAnswers s w r' := syncAnswers_of_isEnd hr h hw hn hreach
  refine ⟨fun hshort => ?_, fun hfull hmatch => ?_, fun hself => ?_⟩
  · exact (hanswers (syncIter_isEnd_of_short hshort)).of_short hshort
  · exact (hanswers (syncIter_isEnd_of_matched hmatch)).of_matched hfull hmatch
  · have ⟨hfull, hne, _⟩ := hself
    exact (hanswers (syncIter_isEnd_of_self (hn r' hreach) hself)).of_goesOn hfull hne

/-- Settles O49: the chunk runs `SYNC_STEP`, which does not return, and no call is made inside a call. -/
theorem syncHangsAtBiasZero : Obligations.SyncHangsAtBiasZero := by
  intro s r w hr h h1 hw hne hfull hdetects
  have hsync := exec_syncStep_of_detectsAt_zero hr h hw hne hfull hdetects
  refine ⟨_, rfl, ?_, step_of_notReturned rfl⟩
  obtain ⟨t, hexec, ⟨hdone, -⟩ | ⟨-, hchunk⟩⟩ := exec_rxChunk_runs_syncStep hr hw h h1
  all_goals cases hsync.symm.trans hexec
  · cases hdone
  · exact hchunk

/-! ### DEMODING's loop (R175, R193, R194) -/

theorem DemodIter.sameTables {r r' : Rxu} (h : DemodIter r r') : SameTables r r' := by
  obtain ⟨-, y, -, -, -, rfl⟩ := h
  exact ⟨rfl, rfl, rfl, rfl, rfl, rfl⟩

theorem sameTables_of_demodIters {r r' : Rxu} (h : ReflTransGen DemodIter r r') : SameTables r r' := by
  induction h with
  | refl => exact .refl _
  | tail _ hiter ih => exact ih.trans hiter.sameTables

/-- Settles O50: the three ends of the model's loop are those of R175, and its iterations keep the configuration and the
tables. -/
theorem demodStepRunsLoop : Obligations.DemodStepRunsLoop := by
  intro s r w hr h hw
  obtain ⟨r', hreach, hend⟩ := demodStep_spec s.draws r h.tablesOk w
  have htables : SameTables r r' :=
    .trans (r' := { r with sampleBuf := r.sampleBuf ++ w }) ⟨rfl, rfl, rfl, rfl, rfl, rfl⟩ (sameTables_of_demodIters hreach)
  have hcleared : returnToListening r' = cleared r := htables.cleared_eq
  refine ⟨r', hreach, ?_⟩
  rw [exec_demodStep hr hw]
  rcases hend with ⟨hshort, hstep⟩ | ⟨hfull, habort, hstep⟩ | ⟨hfull, hterm, hstep⟩
  all_goals rw [hstep, finishStep_returns]
  · exact .inl ⟨hshort, rfl⟩
  · exact .inr (.inl ⟨hfull, habort, by rw [hcleared]⟩)
  · refine .inr (.inr ⟨hfull, hterm, (frameFinish s.draws r').bytes, ?_, by rw [hcleared]⟩)
    rw [← htables.cfg]
    exact isMessage_messageBytes _ _ _

/-! ### One window of DEMODING (R175, R193) -/

/-- How `DEMOD_STEP` ends on what `DEMOD_WINDOW` answers when less than a window is left, in `r`, behind it. -/
def lastWindowEnd (d : Nat) (r : Rxu) : Signal → StepEnd
  | .abort => .returns (returnToListening r) none d
  | .done m => .returns (returnToListening r) (some m) (d + 1)
  | .next symBuf => .returns { r with symBuf := symBuf } none d
  | .noPeak => .noPeak

/-- A buffer shorter than a window is left as it is. -/
theorem demodLoop_of_short (fuel d : Nat) {r : Rxu} (h : r.sampleBuf.length < r.num) :
    demodLoop fuel d r = .returns r none d := by
  cases fuel with
  | zero => rfl
  | succ fuel => exact if_pos h

theorem demodStep_of_one_window (d : Nat) {r : Rxu} {w : List Sample} (hfull : r.num ≤ (r.sampleBuf ++ w).length)
    (hone : (r.sampleBuf ++ w).length < 2 * r.num) :
    demodStep d r w = lastWindowEnd d { r with sampleBuf := (r.sampleBuf ++ w).drop r.num }
      (demodWindow d { r with sampleBuf := (r.sampleBuf ++ w).drop r.num } ((r.sampleBuf ++ w).take r.num)) := by
  have hrest : ((r.sampleBuf ++ w).drop r.num).length < r.num := by rw [List.length_drop]; omega
  have hfull' : ¬(bufAppend r.sampleBuf w).length < r.num := not_lt.mpr hfull
  rw [demodStep]
  dsimp only
  rw [demodLoop, if_neg hfull']
  dsimp only [bufDrop, bufHead, bufAppend]
  cases demodWindow d { r with sampleBuf := (r.sampleBuf ++ w).drop r.num } ((r.sampleBuf ++ w).take r.num) with
  | next symBuf => exact demodLoop_of_short _ d hrest
  | abort | done | noPeak => rfl

theorem exec_decodeSym_of_data {s : State} {r : Rxu} {y : Symbol} (hr : s.rx = some r)
    (h1 : y ≠ Config.symTerm) (h2 : y ≠ Config.symAbort) :
    exec (decodeSym y) s = .next { s with rx := some { r with symBuf := r.symBuf ++ [y] }, result := .done } := by
  rw [decodeSym, if_neg h2, if_neg h1]
  exact (withRx_some hr _).trans (if_neg (not_or.mpr ⟨h1, h2⟩))

/-- Settles O57: `DEMOD_WINDOW` answers by the symbol of its window, and each of its answers is a symbol class. -/
theorem windowRunsItsSymbolClass : Obligations.WindowRunsItsSymbolClass := by
  intro s r w hr h _ hw hfull hone
  rw [exec_demodStep hr hw, demodStep_of_one_window _ hfull hone]
  set window := (r.sampleBuf ++ w).take r.num
  set rest : Rxu := { r with sampleBuf := (r.sampleBuf ++ w).drop r.num }
  have hwindow : window ≠ [] := List.ne_nil_of_length_pos (by rw [List.length_take]; have := h.num_pos; omega)
  have hdechirps : ∀ y, dechirp rest window = some y → Dechirps r window y := fun y => dechirps_of_dechirp h hwindow
  rcases demodWindow_cases s.draws rest window with ⟨hy, -⟩ | ⟨hy, hans⟩ | ⟨hy, hans⟩ | ⟨y, hy, h1, h2, hans⟩
  · obtain ⟨y, hsome, -⟩ := dechirp_spec r h.tablesOk window hwindow
    cases hsome.symm.trans hy
  all_goals rw [hans]
  · exact ⟨0x02, _, hdechirps _ hy, rfl, .inr ⟨by decide, rfl⟩⟩
  · exact ⟨0x01, _, hdechirps _ hy, rfl, .inl ⟨rfl, _, rfl, rfl⟩⟩
  · exact ⟨y, _, hdechirps _ hy, exec_decodeSym_of_data rfl h1 h2, .inr ⟨h1, rfl⟩⟩

end Sys2Proof.Machine

/-! ## Demodulator (`45_demodulator.md`)

The operations answer what the Demodulator's parts compute, of which `Laws/Demodulator.lean` says what it is. The round trip
of one symbol at `fs = BW` rests on the correlation of its chirp: the phases of `UP` are quadratic and of period `num`, so
the terms of the convolution at index `n` form a geometric sequence, whose ratio is 1 where `num` divides `s + n`. There the
magnitude is the number of terms; elsewhere the ratio is not near 1, and the magnitude is below the smallest peak. -/

namespace Sys2Proof.Machine

/-! ### What the operations answer (R190 to R198) -/

section
variable {s : State} {r : Rxu} (hr : s.rx = some r)
include hr

theorem exec_dechirp {w : List Sample} (hw : w.length = r.num) {y : Symbol} (hy : dechirp r w = some y) :
    exec (.dechirp w) s = answer s (.symbol y) := by
  change execDechirp w s = _
  rw [execDechirp, withRx_some hr, if_pos hw, hy]

theorem exec_dechirp_of_length_ne {w : List Sample} (hw : w.length ≠ r.num) :
    exec (.dechirp w) s = .refused .windowLength := (withRx_some hr _).trans (if_neg hw)

theorem exec_demap (idx : Int) : exec (.demap idx) s = answer s (.symbol (demapLookup r.demap idx)) :=
  withRx_some hr _

theorem exec_symTerm : exec .symTerm s = .next { s with
    rx := some (cleared r), result := .signalDone (frameFinish s.draws r), draws := s.draws + 1 } :=
  withRx_some hr _

theorem exec_symAbort : exec .symAbort s = answerRx s (cleared r) .signalAbort := withRx_some hr _

theorem exec_symData {y : Symbol} (h1 : y ≠ Config.symTerm) (h2 : y ≠ Config.symAbort) :
    exec (.symData y) s = answerRx s { r with symBuf := r.symBuf ++ [y] } .done :=
  (withRx_some hr _).trans (if_neg (not_or.mpr ⟨h1, h2⟩))

theorem exec_symData_of_reserved {y : Symbol} (h : y = Config.symTerm ∨ y = Config.symAbort) :
    exec (.symData y) s = .refused .reservedSymbol := (withRx_some hr _).trans (if_pos h)

end

theorem RxInv.ne_nil_of_length {r : Rxu} (h : RxInv r) {w : List Sample} (hw : w.length = r.num) : w ≠ [] :=
  List.ne_nil_of_length_pos (hw ▸ h.num_pos)

/-- Settles O53: a window of `num` samples is not empty, so it has a symbol. -/
theorem dechirpGivesSymbol : Obligations.DechirpGivesSymbol := by
  refine fun s r w hr h => ⟨fun hw => ?_, exec_dechirp_of_length_ne hr⟩
  obtain ⟨y, hsome, hy⟩ := dechirp_spec r h.tablesOk w (h.ne_nil_of_length hw)
  exact ⟨y, hy, exec_dechirp hr hw hsome⟩

/-- Settles O55: the table of RXU is that of R25, and a look-up in it negates the index. -/
theorem demapNegates : Obligations.DemapNegates := by
  refine fun s r idx hr h => ⟨_, exec_demap hr idx, ?_⟩
  rw [h.demap_eq, demapLookup_demapTable]

/-- Settles O56: one clause for each class, the data class with its refusal. -/
theorem symbolClasses : Obligations.SymbolClasses := fun s r hr =>
  ⟨⟨(frameFinish s.draws r).bytes, isMessage_messageBytes _ _ _, exec_symTerm hr⟩, exec_symAbort hr,
    fun _ => exec_symData hr, fun _ => exec_symData_of_reserved hr⟩

/-- Settles O58: the bytes that the model forms are a message of the symbols. -/
theorem msgOfFormsBytes : Obligations.MsgOfFormsBytes := fun s y h =>
  ⟨_, exec_msgOf y h s, isMessage_messageBytes s.draws h y⟩

/-! ### The tables at `fs = BW` (R123) -/

theorem TxInv.isUnitTable {u : Txu} (h : TxInv u) : IsUnitTable u.cfg.bw u.cfg.fs u.num u.up :=
  .inr ⟨u, h, rfl, rfl, rfl, rfl⟩

/-- The phase of R120 at `fs = BW`, in turns: the table's phases continued beyond its end. -/
noncomputable def quadPhase (i : ℝ) : ℝ := i * (i - 128) / 256

section
variable {bw fs : XReal} {num : Nat} {up : List Sample} (h : IsUnitTable bw fs num up) (hfs : realVal fs = realVal bw)
include h hfs

theorem IsUnitTable.rates_ratio : 128 * realVal fs / realVal bw = (128 : Nat) := by
  rw [hfs, mul_div_cancel_right₀ _ h.rates_pos.1.ne', Nat.cast_ofNat]

theorem IsUnitTable.num_eq_128 : num = 128 := h.num_eq_of_int (h.rates_ratio hfs)

theorem IsUnitTable.up_val_quadPhase {i : Nat} (hi : i < 128) : cplxVal (up.getD i cplxZero) = cisC (quadPhase i) := by
  have hN := h.rates_ratio hfs
  rw [h.up_val_of_int hN (h.num_eq_128 hfs ▸ hi), phase_of_int h.rates_pos.1 h.rates_pos.2 hN, quadPhase]
  congr 1
  push_cast
  ring

end

/-- Over one window the continued phase changes by an integer number of turns. -/
theorem quadPhase_add_windows (i q : Nat) :
    quadPhase (i + 128 * q) = quadPhase i + ((64 * (q * (q - 1)) + i * q : Int) : ℝ) := by
  simp only [quadPhase]
  push_cast
  ring

theorem cisC_quadPhase_mod (i : Nat) : cisC (quadPhase (i % 128 : Nat)) = cisC (quadPhase i) := by
  have hi : (i : ℝ) = (i % 128 : Nat) + 128 * (i / 128 : Nat) := by exact_mod_cast (Nat.mod_add_div i 128).symm
  rw [hi, quadPhase_add_windows, cisC_int]

/-- Two phases that run towards each other: their difference grows by the same angle at each place, whole turns aside. -/
theorem cisC_quadPhase_sub (y n : ℝ) (k : Nat) :
    cisC (quadPhase (y + k)) * cisC (-quadPhase (n - k))
      = cisC (quadPhase y - quadPhase n) * cisC ((y + n) / 128) ^ k := by
  have hsplit : quadPhase (y + k) + -quadPhase (n - k)
      = quadPhase y - quadPhase n + k * ((y + n) / 128) + ((-k : Int) : ℝ) := by
    simp only [quadPhase]
    push_cast
    ring
  rw [← cisC_add, hsplit, cisC_int, cisC_add, cisC_pow]

/-! ### Sums of powers of a root of unity -/

theorem norm_cisC_sub_one (x : ℝ) : ‖cisC x - 1‖ = 2 * |Real.sin (Real.pi * x)| := by
  have harg : 2 * (Real.pi : ℂ) * x * Complex.I = Complex.I * (2 * Real.pi * x : ℝ) := by push_cast; ring
  rw [cisC, harg, Complex.norm_exp_I_mul_ofReal_sub_one, norm_mul, Real.norm_two, Real.norm_eq_abs]
  congr 3
  ring

/-- Between a 128th and half of a turn from 0 the sine of half the angle is at least that of a 128th of `pi`. -/
theorem sin_pi_div_128_le {d : Int} (h1 : 1 ≤ |d|) (h64 : |d| ≤ 64) :
    Real.sin (Real.pi / 128) ≤ |Real.sin (Real.pi * (d / 128))| := by
  have hpi := Real.pi_pos
  have h1' : (1 : ℝ) ≤ |(d : ℝ)| := by exact_mod_cast h1
  have h64' : |(d : ℝ)| ≤ 64 := by exact_mod_cast h64
  have habs : |Real.pi * (d / 128)| = Real.pi * |(d : ℝ)| / 128 := by
    rw [abs_mul, abs_div, abs_of_pos hpi, Nat.abs_ofNat, mul_div_assoc]
  have hle : Real.pi * |(d : ℝ)| ≤ Real.pi * 64 := by gcongr
  have hge : Real.pi * 1 ≤ Real.pi * |(d : ℝ)| := by gcongr
  rw [Real.abs_sin_eq_sin_abs_of_abs_le_pi (by rw [habs]; linarith), habs]
  exact Real.sin_le_sin_of_le_of_le_pi_div_two (by linarith) (by linarith) (by linarith)

/-- A 128th root of unity other than 1 is not near 1. -/
theorem lt_norm_cisC_div_128_sub_one {m : Int} (hm : ¬(128 : Int) ∣ m) : 1 / 32 < ‖cisC (m / 128) - 1‖ := by
  obtain ⟨d, q, rfl, h1, h64⟩ : ∃ d q : Int, m = d + 128 * q ∧ 1 ≤ |d| ∧ |d| ≤ 64 :=
    ⟨(m + 64) % 128 - 64, (m + 64) / 128, by omega, by rw [le_abs]; omega, by rw [abs_le]; omega⟩
  have hturns : ((d + 128 * q : Int) : ℝ) / 128 = d / 128 + q := by push_cast; ring
  have hsin : 1 / 64 < Real.sin (Real.pi / 128) :=
    calc (1 / 64 : ℝ) = 2 / Real.pi * (Real.pi / 128) := by field_simp; norm_num
      _ < _ := Real.mul_lt_sin (by positivity) (by linarith [Real.pi_pos])
  rw [hturns, cisC_int, norm_cisC_sub_one]
  linarith [sin_pi_div_128_le h1 h64]

/-- The powers of such a root in any interval add up to less than 64. -/
theorem norm_sum_cisC_pow_lt {m : Int} (hm : ¬(128 : Int) ∣ m) {a b : Nat} (hab : a ≤ b) :
    ‖∑ k ∈ Finset.Ico a b, cisC (m / 128) ^ k‖ < 64 := by
  have hz := lt_norm_cisC_div_128_sub_one hm
  set z := cisC (m / 128)
  have hne : z ≠ 1 := fun h => by rw [h, sub_self, norm_zero] at hz; norm_num at hz
  have hpow : ∀ k, ‖z ^ k‖ = 1 := fun k => by rw [norm_pow, norm_cisC, one_pow]
  have hnum : ‖z ^ b - z ^ a‖ ≤ 2 := (norm_sub_le _ _).trans (by rw [hpow, hpow]; norm_num)
  rw [geom_sum_Ico hne hab, norm_div, div_lt_iff₀ (by linarith)]
  linarith

theorem sum_cisC_pow_of_dvd {m : Int} (hm : (128 : Int) ∣ m) (a b : Nat) :
    ∑ k ∈ Finset.Ico a b, cisC (m / 128) ^ k = (b - a : Nat) := by
  obtain ⟨q, rfl⟩ := hm
  have hone : cisC (((128 * q : Int) : ℝ) / 128) = 1 := by
    rw [Int.cast_mul, Int.cast_ofNat, mul_div_cancel_left₀ _ (by norm_num), cisC_intCast]
  simp only [hone, one_pow, Finset.sum_const, Nat.card_Ico, nsmul_one]

/-! ### The correlation of the chirp of a symbol (R146, R160) -/

/-- The places of the window that meet an entry of the table at index `n` of the convolution. -/
theorem filter_overlap (n : Nat) :
    (Finset.range 128).filter (fun k => k ≤ n ∧ n - k < 128) = Finset.Ico (n - 127) (min 128 (n + 1)) := by
  ext k
  simp only [Finset.mem_filter, Finset.mem_range, Finset.mem_Ico]
  omega

section
variable {r : Rxu} {u : Txu} (h : RxInv r) (hu : TxInv u) (hfs : realVal r.cfg.fs = realVal r.cfg.bw)
  (hfs' : realVal u.cfg.fs = realVal u.cfg.bw) (y : Symbol)
include hu hfs'

theorem chirpOf_length_128 : (chirpOf u.up u.num y).length = 128 :=
  (hu.chirpOf_length y).trans (hu.isUnitTable.num_eq_128 hfs')

theorem chirpOf_val_quadPhase {k : Nat} (hk : k < 128) :
    cplxVal ((chirpOf u.up u.num y).getD k cplxZero) = cisC (quadPhase (y.toNat + k)) := by
  have hnum := hu.isUnitTable.num_eq_128 hfs'
  rw [List.getD_eq_getElem?_getD, hu.chirpOf_getElem? y (hnum.symm ▸ hk), Option.getD_some, chirpSample, hnum,
    Nat.mul_div_cancel_left _ (by norm_num), hu.isUnitTable.up_val_quadPhase hfs' (Nat.mod_lt _ (by norm_num)),
    cisC_quadPhase_mod, Nat.cast_add]

include h hfs

theorem convVal_chirpOf (n : Nat) : convVal r (chirpOf u.up u.num y) n
    = cisC (quadPhase y.toNat - quadPhase n)
      * ∑ k ∈ Finset.Ico (n - 127) (min 128 (n + 1)), cisC (((y.toNat + n : Nat) : Int) / 128) ^ k := by
  have hnum := h.isUnitTable.num_eq_128 hfs
  rw [convVal, chirpOf_length_128 hu hfs', hnum, ← Finset.sum_filter, filter_overlap, Finset.mul_sum]
  refine Finset.sum_congr rfl fun k hk => ?_
  obtain ⟨hlo, hhi⟩ := Finset.mem_Ico.mp hk
  have hdown : cplxVal (r.down.getD (n - k) cplxZero) = cisC (-quadPhase (n - k)) := by
    rw [h.down_val (by omega), h.isUnitTable.up_val_quadPhase hfs (by omega), ← cisC_neg, Nat.cast_sub (by omega)]
  rw [chirpOf_val_quadPhase hu hfs' y (by omega), hdown, cisC_quadPhase_sub]
  push_cast
  rfl

theorem norm_convVal_chirpOf_lt {n : Nat} (hn : ¬128 ∣ y.toNat + n) (hlt : n < 255) :
    ‖convVal r (chirpOf u.up u.num y) n‖ < 64 := by
  rw [convVal_chirpOf h hu hfs hfs', norm_mul, norm_cisC, one_mul]
  exact norm_sum_cisC_pow_lt (by exact_mod_cast hn) (by omega)

theorem norm_convVal_chirpOf_of_dvd {n : Nat} (hn : 128 ∣ y.toNat + n) :
    ‖convVal r (chirpOf u.up u.num y) n‖ = (min 128 (n + 1) - (n - 127) : Nat) := by
  rw [convVal_chirpOf h hu hfs hfs', norm_mul, norm_cisC, one_mul, sum_cisC_pow_of_dvd (by exact_mod_cast hn),
    Complex.norm_natCast]

/-- The larger of the two local peaks of R146 is at least 64: the offsets cancel at the index `128 - s` or `256 - s`. -/
theorem exists_norm_convVal_chirpOf_ge : ∃ n < 255, 64 ≤ ‖convVal r (chirpOf u.up u.num y) n‖ := by
  have hy := y.isLt
  obtain ⟨n, hn, hdvd, hlen⟩ : ∃ n < 255, 128 ∣ y.toNat + n ∧ 64 ≤ min 128 (n + 1) - (n - 127) := by
    rcases le_or_gt y.toNat 64 with hle | hgt
    · exact ⟨128 - y.toNat, by omega, by omega, by omega⟩
    · exact ⟨256 - y.toNat, by omega, by omega, by omega⟩
  refine ⟨n, hn, ?_⟩
  rw [norm_convVal_chirpOf_of_dvd h hu hfs hfs' y hdvd]
  exact_mod_cast hlen

/-- The peak of the chirp of a symbol is at an index that demaps to the symbol. -/
theorem IsPeak.of_chirpOf {v : ℝ} {a : Nat} (hp : IsPeak r (chirpOf u.up u.num y) v a) : 64 ≤ v ∧ 128 ∣ y.toNat + a := by
  obtain ⟨ha, hv, hmax, -⟩ := hp
  rw [chirpOf_length_128 hu hfs', h.isUnitTable.num_eq_128 hfs] at ha hmax
  obtain ⟨n, hn, hge⟩ := exists_norm_convVal_chirpOf_ge h hu hfs hfs' y
  have h64 : 64 ≤ v := hge.trans (hmax n hn)
  exact ⟨h64, not_not.mp fun hdvd => (norm_convVal_chirpOf_lt h hu hfs hfs' y hdvd ha).not_ge (hv ▸ h64)⟩

theorem dechirps_chirpOf (hthr : thresholdVal r < 64) : Dechirps r (chirpOf u.up u.num y) y := by
  have hnum := h.isUnitTable.num_eq_128 hfs
  obtain ⟨v, a, hp⟩ := exists_isPeak r (chirpOf u.up u.num y) (by rw [chirpOf_length_128 hu hfs']; omega)
  obtain ⟨h64, hdvd⟩ := hp.of_chirpOf h hu hfs hfs' y
  have hy := y.isLt
  refine ⟨v, a, hp.may, .inr ⟨.inl (hthr.trans_le h64), (a : Int) - 128, ?_, by omega⟩⟩
  have hidx : ((a : ℝ) - r.num) * 128 / r.num = ((a - 128 : Int) : ℝ) := by
    rw [hnum]; push_cast; ring
  rw [hidx]
  exact isRound_intCast _

end

/-- Settles O54: with the ratio 1 of the rates nothing is rounded, so the window has one symbol. -/
theorem dechirpInvertsChirpOf : Obligations.DechirpInvertsChirpOf := by
  intro s r u y hr hu h hinv hfs hfs' hthr
  have hlen : (chirpOf u.up u.num y).length = r.num :=
    (chirpOf_length_128 hinv hfs' y).trans (h.isUnitTable.num_eq_128 hfs).symm
  have hexact : ExactRates r.cfg.bw r.cfg.fs := exactRates_of_int h.bw_pos (h.isUnitTable.rates_ratio hfs)
  refine ⟨_, exec_chirpOf hu y, exec_dechirp hr hlen ?_⟩
  exact dechirp_of_dechirps h (h.ne_nil_of_length hlen) (.inl hexact) (dechirps_chirpOf h hinv hfs hfs' y hthr)

end Sys2Proof.Machine

/-! ## Construction and reset (`46_system_ops.md`)

The constructors test the rounded window length that they compute, the statements speak of an integer that `128 * fs / BW`
rounds to: there is only one. What the elements of a new unit are is then what its invariant says of them. -/

namespace Sys2Proof.Machine

/-! ### A configuration with a window (R7, R210, R211) -/

section
variable {bw fs : XReal} {n : Int} (hround : IsRound (128 * realVal fs / realVal bw) n)
include hround

theorem numRounded_eq_of_isRound (hbw : 0 < realVal bw) (hfs : 0 < realVal fs) : numRounded bw fs = n :=
  (numRounded_isRound hbw hfs).unique hround

theorem validRates_iff_of_isRound : validRates bw fs = true ↔ 0 < realVal bw ∧ 0 < realVal fs ∧ 0 < n := by
  rw [validRates_iff]
  refine and_congr_right fun hbw => and_congr_right fun hfs => ?_
  rw [numOf, numRounded_eq_of_isRound hround hbw hfs]
  omega

theorem numOf_eq_of_isRound (hv : validRates bw fs = true) : (numOf bw fs : Int) = n := by
  obtain ⟨hbw, hfs, hnum⟩ := (validRates_iff bw fs).mp hv
  rw [← numOf_cast hnum, numRounded_eq_of_isRound hround hbw hfs]

end

/-! ### What the operations answer (R210 to R212) -/

section
variable {bw fs : XReal} (hamming : Bool) (thr : XReal) (s : State)

theorem exec_rxConstruct_of_valid (hv : validRates bw fs = true) : exec (.rxConstruct bw fs hamming thr) s =
    .next { s with rx := some (constructRxu bw fs hamming thr), result := .done } := if_pos hv

theorem exec_rxConstruct_of_not_valid (hv : ¬validRates bw fs = true) :
    exec (.rxConstruct bw fs hamming thr) s = .refused .invalidConfiguration := if_neg hv

theorem exec_txConstruct_of_valid (hv : validRates bw fs = true) : exec (.txConstruct bw fs hamming) s =
    .next { s with tx := some (constructTxu bw fs hamming), result := .done } := if_pos hv

theorem exec_txConstruct_of_not_valid (hv : ¬validRates bw fs = true) :
    exec (.txConstruct bw fs hamming) s = .refused .invalidConfiguration := if_neg hv

end

theorem exec_rxReset {s : State} {r : Rxu} (hr : s.rx = some r) :
    exec .rxReset s = .next { s with rx := some (cleared r), result := .done } := withRx_some hr _

/-! ### The statements -/

/-- The table `DEMAP` lists `(-k) mod 128` by the two cases of R25. -/
theorem isDemapTable_demapTable : IsDemapTable demapTable := by
  refine ⟨by simp [demapTable, Config.alphabet], fun k hk => ?_⟩
  have hentry := demapTable_getD k hk
  split <;> omega

/-- Settles O19: the tables of a constructed receiver are those that its invariant gives it. -/
theorem rxConstructBuildsReceiver : Obligations.RxConstructBuildsReceiver := by
  intro bw fs h thr n s hround
  rw [← validRates_iff_of_isRound hround]
  refine ⟨fun hv => ?_, exec_rxConstruct_of_not_valid h thr s⟩
  have hinv : RxInv (constructRxu bw fs h thr) := constructRxu_inv h thr hv
  exact ⟨_, exec_rxConstruct_of_valid h thr s hv, rfl, numOf_eq_of_isRound hround hv, hinv.expectedBias_eq, hinv.up_length,
    hinv.isUpTable, hinv.isDownTable, isDemapTable_demapTable, rfl, rfl, rfl, rfl⟩

/-- Settles O20: the table of a constructed transmitter is the one that its invariant gives it. -/
theorem txConstructBuildsTransmitter : Obligations.TxConstructBuildsTransmitter := by
  intro bw fs h n s hround
  rw [← validRates_iff_of_isRound hround]
  refine ⟨fun hv => ?_, exec_txConstruct_of_not_valid h s⟩
  have hinv : TxInv (constructTxu bw fs h) := constructTxu_inv h hv
  exact ⟨_, exec_txConstruct_of_valid h s hv, rfl, numOf_eq_of_isRound hround hv, hinv.up_length, hinv.isUpTable, rfl⟩

/-- Settles O21: the reset is `RETURN_TO_LISTENING`, and a receiver in LISTENING is clear already. -/
theorem rxResetClears : Obligations.RxResetClears := fun _ _ hr =>
  ⟨exec_rxReset hr, RxInv.cleared_of_listening⟩

end Sys2Proof.Machine

/-! ## Exceptions: nothing crosses the boundary (`60_exceptions.md` R220, R222, R228)

The weak-signal abort is the only one of the abnormal conditions that changes control state, and it is a next state: the
window's symbol can only be the abort sentinel, so DEMODING's loop ends in `RETURN_TO_LISTENING`. That a host call answers a
next state or one of the named refusals is a case split over the operations that the decoder reads. -/

namespace Sys2Proof.Machine

/-! ### The weak-signal abort (R222, R228) -/

section
variable {r : Rxu} {w : List Sample}

/-- The symbol of a window that cannot be a detection is the abort sentinel (R190). -/
theorem Dechirps.eq_symAbort {y : Symbol} (hy : Dechirps r w y) (hnever : NeverDetects r w) : y = Config.symAbort := by
  obtain ⟨v, a, hpeak, ⟨-, habort⟩ | ⟨hdetect, -⟩⟩ := hy
  · exact habort
  · exact absurd hdetect (hnever v a hpeak)

theorem dechirp_of_neverDetects (h : RxInv r) (hw : w ≠ []) (hnever : NeverDetects r w) :
    dechirp r w = some Config.symAbort := by
  obtain ⟨y, hsome, hy⟩ := dechirp_spec r h.tablesOk w hw
  rw [hsome, hy.eq_symAbort hnever]

theorem demodWindow_of_symAbort {d : Nat} (h : dechirp r w = some Config.symAbort) : demodWindow d r w = .abort := by
  simp only [demodWindow, h, classify_abort]

/-- An abort in the first window ends the loop, whatever stands behind that window (R175). -/
theorem demodStep_of_symAbort {d : Nat} (hfull : r.num ≤ (r.sampleBuf ++ w).length)
    (hsymbol : dechirp r ((r.sampleBuf ++ w).take r.num) = some Config.symAbort) :
    demodStep d r w = .returns (cleared r) none d := by
  have hfull' : ¬(bufAppend r.sampleBuf w).length < r.num := not_lt.mpr hfull
  have habort : demodWindow d { r with sampleBuf := (r.sampleBuf ++ w).drop r.num } ((r.sampleBuf ++ w).take r.num) = .abort :=
    demodWindow_of_symAbort hsymbol
  rw [demodStep]
  dsimp only
  rw [demodLoop, if_neg hfull']
  dsimp only [bufDrop, bufHead, bufAppend]
  rw [habort]
  rfl

theorem demodStep_of_neverDetects {d : Nat} (h : RxInv r) (hfull : r.num ≤ (r.sampleBuf ++ w).length)
    (hnever : NeverDetects r ((r.sampleBuf ++ w).take r.num)) : demodStep d r w = .returns (cleared r) none d := by
  have hwindow : ((r.sampleBuf ++ w).take r.num).length = r.num := by rw [List.length_take, min_eq_left hfull]
  exact demodStep_of_symAbort hfull (dechirp_of_neverDetects h (h.ne_nil_of_length hwindow) hnever)

end

/-- Settles O52: the first window ends the loop with the abort sentinel. -/
theorem weakWindowAborts : Obligations.WeakWindowAborts := by
  intro s r w hr h h2 hw hfull hnever
  change execRxChunk w s = _
  rw [execRxChunk_of_demoding hr hw h2, demodStep_of_neverDetects h hfull hnever, finishStep_returns]

/-! ### The outcomes of a host call (R220) -/

/-- The outcomes that the spec names for the host call `i` with both units constructed, RXU being `r`. -/
inductive NamedOutcome (r : Rxu) : Instr → Out → Prop where
  /-- the call returns -/
  | returns {i : Instr} {t : State} (hreturned : t.result ≠ .notReturned) : NamedOutcome r i (.next t)
  /-- a chunk in SYNCING, which may fail to return (R180) -/
  | hangs {w : List Sample} {t : State} (h1 : r.rxState = 1) : NamedOutcome r (.rxChunk w) (.next t)
  /-- a configuration of RXU without a window (R210) -/
  | rxConfiguration {bw fs thr : XReal} {h : Bool} (hv : ¬(0 < realVal bw ∧ 0 < realVal fs ∧ 0 < numOf bw fs)) :
    NamedOutcome r (.rxConstruct bw fs h thr) (.refused .invalidConfiguration)
  /-- a configuration of TXU without a window (R211) -/
  | txConfiguration {bw fs : XReal} {h : Bool} (hv : ¬(0 < realVal bw ∧ 0 < realVal fs ∧ 0 < numOf bw fs)) :
    NamedOutcome r (.txConstruct bw fs h) (.refused .invalidConfiguration)
  /-- a `DECHIRP` window of another length (R94 (g)) -/
  | windowLength {w : List Sample} (hw : w.length ≠ r.num) : NamedOutcome r (.dechirp w) (.refused .windowLength)

theorem NamedOutcome.of_eq_next {r : Rxu} {i : Instr} {o : Out} {t : State} (h : o = .next t)
    (hreturned : t.result ≠ .notReturned) : NamedOutcome r i o := h ▸ .returns hreturned

theorem ne_nil_of_nonEmpty {α : Type} {l : List α} (h : nonEmpty l = true) : l ≠ [] := by
  rintro rfl
  cases h

/-- R36 (f), by the three values of R89. -/
theorem RxInv.rxState_cases {r : Rxu} (h : RxInv r) : r.rxState = 0 ∨ r.rxState = 1 ∨ r.rxState = 2 := by
  have hne := h.state_ne
  revert hne
  generalize r.rxState = code
  revert code
  decide

section
variable {s : State} {r : Rxu} {u : Txu}

theorem exec_txCall_named (hu : s.tx = some u) {i : Instr} (hi : isTxCall i = true) : NamedOutcome r i (exec i s) := by
  cases i with
  | txConstruct bw fs hamming =>
    by_cases hv : validRates bw fs = true
    · exact .of_eq_next (exec_txConstruct_of_valid hamming s hv) nofun
    · exact exec_txConstruct_of_not_valid hamming s hv ▸ .txConfiguration (mt (validRates_iff bw fs).mpr hv)
  | txSubmit m =>
    by_cases hm : m.getLast? = some 0x0A
    · obtain ⟨p, rfl⟩ := List.getLast?_eq_some_iff.mp hm
      exact .of_eq_next (exec_txSubmit_of_marker hu p) nofun
    · exact .of_eq_next (execTxSubmit_of_no_marker hu hm) nofun
  | txDrain n => exact .of_eq_next (exec_txDrain hu n) nofun
  | _ => cases hi

variable (hr : s.rx = some r) (h : RxInv r)
include hr h

theorem exec_rxChunk_named {w : List Sample} (hw : w ≠ []) : NamedOutcome r (.rxChunk w) (exec (.rxChunk w) s) := by
  rcases h.rxState_cases with h0 | h1 | h2
  · obtain ⟨t, -, hchunk⟩ := exec_rxChunk_runs_listenStep hr hw h h0
    exact .of_eq_next hchunk nofun
  · obtain ⟨t, -, ⟨-, hchunk⟩ | ⟨-, hchunk⟩⟩ := exec_rxChunk_runs_syncStep hr hw h h1
    · exact .of_eq_next hchunk nofun
    · exact hchunk ▸ .hangs h1
  · obtain ⟨t, m, -, -, hchunk⟩ := exec_rxChunk_runs_demodStep hr hw h h2
    exact .of_eq_next hchunk nofun

theorem exec_rxCall_named {i : Instr} (hi : isRxCall i = true) (hwf : i.wellFormed = true) :
    NamedOutcome r i (exec i s) := by
  cases i with
  | rxConstruct bw fs hamming thr =>
    by_cases hv : validRates bw fs = true
    · exact .of_eq_next (exec_rxConstruct_of_valid hamming thr s hv) nofun
    · exact exec_rxConstruct_of_not_valid hamming thr s hv ▸ .rxConfiguration (mt (validRates_iff bw fs).mpr hv)
  | rxReset => exact .of_eq_next (exec_rxReset hr) nofun
  | rxChunk w => exact exec_rxChunk_named hr h (ne_nil_of_nonEmpty hwf)
  | _ => cases hi

theorem exec_probe_named (hu : s.tx = some u) {i : Instr} (hi : isProbe i = true) (hwf : i.wellFormed = true) :
    NamedOutcome r i (exec i s) := by
  cases i with
  | chirpUp => exact .of_eq_next (execChirpUp_of_tx hu) nofun
  | chirpDown => exact .of_eq_next (withRx_some hr _) nofun
  | chirpOf y => exact .of_eq_next (exec_chirpOf hu y) nofun
  | buildFrame p hamming => exact .of_eq_next (exec_buildFrame hu p hamming) nofun
  | correlate w => exact .of_eq_next (exec_correlate hr (ne_nil_of_nonEmpty hwf)) nofun
  | peak mag =>
    obtain ⟨v, a, hpeak, -⟩ := peakOf_spec mag (ne_nil_of_nonEmpty hwf)
    exact .of_eq_next (exec_peak hpeak s) nofun
  | dechirp w =>
    obtain ⟨hsymbol, hrefused⟩ := dechirpGivesSymbol s r w hr h
    by_cases hw : w.length = r.num
    · obtain ⟨y, -, hexec⟩ := hsymbol hw
      exact .of_eq_next hexec nofun
    · exact hrefused hw ▸ .windowLength hw
  | demap idx => exact .of_eq_next (exec_demap hr idx) nofun
  | h74Enc n => exact .of_eq_next (exec_h74Enc n s) nofun
  | h74Dec c => exact .of_eq_next (exec_h74Dec c s) nofun
  | msgOf y hamming => exact .of_eq_next (exec_msgOf y hamming s) nofun
  | symsOf p hamming => exact .of_eq_next (exec_symsOf p hamming s) nofun
  | _ => cases hi

theorem exec_hostCall_named (hu : s.tx = some u) {i : Instr}
    (hi : isRxCall i = true ∨ isTxCall i = true ∨ isProbe i = true) (hwf : i.wellFormed = true) :
    NamedOutcome r i (exec i s) := by
  rcases hi with hi | hi | hi
  · exact exec_rxCall_named hr h hi hwf
  · exact exec_txCall_named hu hi
  · exact exec_probe_named hr h hu hi hwf

end

theorem exec_hostCall_calls {i : Instr} (hi : isRxCall i = true ∨ isTxCall i = true ∨ isProbe i = true) {s t : State}
    (ht : exec i s = .next t) : t.calls = s.calls := by
  rcases hi with hi | hi | hi
  · exact (rxOp_frame (isRxOp_of_isRxCall hi) ht).2
  · exact (txCall_frame hi ht).2.1
  · exact exec_probe_calls hi ht

/-- Settles O11: the step is the operation that the decoder reads, which is a host call within its types, and its outcome is
one of those named. -/
theorem nothingCrossesBoundary : Obligations.NothingCrossesBoundary := by
  intro s r u c cs i hs hr hu hreturned hcalls hdecode
  rw [step_of_decodeCmd hcalls hreturned hdecode]
  have hhost := decodeCmd_isCommand hdecode
  have hnamed : NamedOutcome r i (exec i { s with calls := cs }) :=
    exec_hostCall_named (s := { s with calls := cs }) hr (hs.1 r hr) hu hhost (decodeCmd_wellFormed hdecode)
  generalize hexec : exec i { s with calls := cs } = o at hnamed
  cases hnamed with
  | returns hret => exact .inl ⟨_, rfl, exec_hostCall_calls hhost hexec, fun hhang => absurd hhang hret⟩
  | hangs h1 => exact .inl ⟨_, rfl, exec_hostCall_calls hhost hexec, fun _ => ⟨⟨_, rfl⟩, h1⟩⟩
  | rxConfiguration hv => exact .inr (.inl ⟨rfl, _, _, _, .inl ⟨_, rfl⟩, hv⟩)
  | txConfiguration hv => exact .inr (.inl ⟨rfl, _, _, _, .inr rfl, hv⟩)
  | windowLength hw => exact .inr (.inr ⟨rfl, _, rfl, hw⟩)

end Sys2Proof.Machine

/-! ## Reset and hazards (`70_reset_and_hazards.md` R250, R253; log entries 2, 4, 8)

What is left of the state machine's edges: reset is a construction, a unit that has not been constructed has no operations,
and without a call to make nothing happens. -/

namespace Sys2Proof.Machine

/-- Settles O10: the rates of reset give a window, and the units of reset are those constructed with them. -/
theorem resetIsConstruction : Obligations.ResetIsConstruction := by
  refine fun s => ⟨?_, ?_⟩
  · refine (exec_rxConstruct_of_valid true (realOfRat 40) s exampleRate_valid).trans ?_
    rw [← resetRxu_eq_construct]
    rfl
  · refine (exec_txConstruct_of_valid true s exampleRate_valid).trans ?_
    rw [← resetTxu_eq_construct]
    rfl

/-- `CHIRP_UP` without either unit (log entry 6). -/
theorem execChirpUp_of_none {s : State} (htx : s.tx = none) (hrx : s.rx = none) :
    execChirpUp s = .refused .rxNotConstructed := by
  rw [execChirpUp, htx]; exact withRx_none hrx _

/-- Settles O17: each of the operations asks for its unit first; `CHIRP_UP` asks for TXU and then for RXU. -/
theorem notConstructedRefused : Obligations.NotConstructedRefused := by
  constructor
  · intro s hrx
    have hrefused (k : Rxu → Out) : withRx s k = .refused .rxNotConstructed := withRx_none hrx k
    exact ⟨hrefused _, fun _ => hrefused _, hrefused _, fun _ => hrefused _, fun _ => hrefused _, fun _ => hrefused _,
      fun _ => hrefused _, fun _ => hrefused _, fun _ => hrefused _, hrefused _, hrefused _, fun _ => hrefused _,
      fun htx => execChirpUp_of_none htx hrx⟩
  · intro s htx
    have hrefused (k : Txu → Out) : withTx s k = .refused .txNotConstructed := withTx_none htx k
    exact ⟨fun _ => hrefused _, fun _ => hrefused _, fun _ => hrefused _, fun _ _ => hrefused _⟩

theorem step_of_no_call {s : State} (h : s.calls = []) : step s = .next s := by rw [step, nextCall_of_nil h]

/-- Settles O7: there is no next call in either case. -/
theorem noCallNoChange : Obligations.NoCallNoChange := by
  rintro s (hcalls | hhang)
  · exact step_of_no_call hcalls
  · exact step_of_notReturned hhang

end Sys2Proof.Machine
